-- ==== Sys2Proof/Word.lean ====
section
/-! DEFINITION. The words of the block and the closed sets of names its rules use: bytes, 32-bit host words,
64-bit command words and pins; direction, stepper model, light condition, coil phase, stepper pair,
sticky flag. -/

namespace Sys2Proof

/-- A register byte of the expander, and a bus data byte (R60). -/
abbrev Byte := BitVec 8

/-- A 32-bit host register or a 32-bit field of the block (R9, R33). -/
abbrev Word32 := BitVec 32

/-- A command word (R90). -/
abbrev Command := BitVec 64

/-- A pin identifier, 8-bit unsigned (R30, R64). -/
abbrev Pin := BitVec 8

/-- Direction of a DC motor or a stepper (R91, R152). -/
inductive Dir where
  | fwd
  | rev
  deriving DecidableEq, Repr

/-- Stepper model: A is the 28-step type, B the 42-step type (R91). -/
inductive Model where
  | a
  | b
  deriving DecidableEq, Repr

/-- Light condition: `int` is "interrupted", `notInt` is "not interrupted" (R91). -/
inductive Cond where
  | int
  | notInt
  deriving DecidableEq, Repr

/-- Coil phase of a stepper (R182). -/
inductive Phase where
  | a
  | b
  | c
  | d
  deriving DecidableEq, Repr

/-- Stepper slot: pair 1 is M1/M2, pair 2 is M3/M4 (R180). -/
inductive Pair where
  | one
  | two
  deriving DecidableEq, Repr

/-- The sticky status flags (R27). -/
inductive Flag where
  | dropped
  | clamped
  | masked
  | noopZero
  | illegal
  | overrun
  deriving DecidableEq, Repr

end Sys2Proof
end

