-- ==== Sys2Proof/Syntax.lean ====
section
/-! DEFINITION. The commands, one constructor per row of spec/opcode_table.json (R94). Operands are the values of
R92: signed indices and magnitudes are integers, ticks naturals, pins and raw bits bit vectors. -/

namespace Sys2Proof

/-- A command with its operands, in the operand order of R104. -/
inductive Instr where
  /-- R240 -/
  | nop
  /-- R127 -/
  | init
  /-- R126 -/
  | setfreq (hz : Int)
  /-- R128 -/
  | setch (ch : Int) (on off : Nat)
  /-- R129 -/
  | choff (ch : Int)
  /-- R151 -/
  | servo (idx deg : Int)
  /-- R153 -/
  | dcmotor (idx : Int) (dir : Dir) (speed : Int)
  /-- R155 -/
  | mstop (idx : Int)
  /-- R156 -/
  | mstopall
  /-- R186 -/
  | stepdeg (pair : Int) (dir : Dir) (model : Model) (deg : Int)
  /-- R187 -/
  | stepturn (pair : Int) (dir : Dir) (model : Model) (turns : Int)
  /-- R213 -/
  | lread (pin : Pin) (cond : Cond)
  /-- R214 -/
  | lsens (value : Int)
  /-- R215 -/
  | lwatch (pin : Pin) (cond : Cond)
  /-- R241 -/
  | sclr (mask : BitVec 32)
  /-- R242: every word with OP = 0xF; `rest` is its bits 59:0 -/
  | reservedF (rest : BitVec 60)
  deriving DecidableEq, Repr

end Sys2Proof
end

