-- ==== Sys2Proof/WellFormed.lean ====
section
/-! DEFINITION. Which operands a command word can carry (R92, R104): an operand outside its field's range has no
encoding and is an assembly error. Pins, SCLR masks and reserved words have the width of their field by type. -/

namespace Sys2Proof

/-- A channel, motor index or pair: `sext_8`, in -128..127 (R92). -/
abbrev idxFits (v : Int) : Prop := -128 ≤ v ∧ v ≤ 127

/-- A magnitude: `sext_32` (R92). -/
abbrev valFits (v : Int) : Prop := -2147483648 ≤ v ∧ v ≤ 2147483647

/-- A raw tick of `SETCH`: `zext_16` (R92). -/
abbrev tickFits (v : Nat) : Prop := v ≤ 65535

/-- Every operand fits its field. -/
def Instr.wellFormed (i : Instr) : Bool :=
  match i with
  | .nop | .init | .mstopall | .lread _ _ | .lwatch _ _ | .sclr _ | .reservedF _ => true
  | .setfreq v | .lsens v => decide (valFits v)
  | .setch ch on off => decide (idxFits ch) && decide (tickFits on) && decide (tickFits off)
  | .choff ch => decide (idxFits ch)
  | .mstop idx => decide (idxFits idx)
  | .servo idx deg => decide (idxFits idx) && decide (valFits deg)
  | .dcmotor idx _ speed => decide (idxFits idx) && decide (valFits speed)
  | .stepdeg pair _ _ deg => decide (idxFits pair) && decide (valFits deg)
  | .stepturn pair _ _ turns => decide (idxFits pair) && decide (valFits turns)

/-- The check as a proposition. -/
abbrev Instr.WellFormed (i : Instr) : Prop := i.wellFormed = true

end Sys2Proof
end

