-- ==== Sys2Proof/Decode.lean ====
section
/-! DEFINITION. The encoding of command words (R90 to R98): the match and mask table of R95, the total decoder of
R97, and the encoder of R96. -/

namespace Sys2Proof

/-- Why a word is no command (R98): it sets a bit that must be zero in the form of the named opcode. -/
inductive DecodeError where
  | mustBeZero (mnemonic : String)
  deriving DecidableEq, Repr

/-- A row of the opcode table (R95). -/
structure OpRow where
  mnemonic : String
  pattern : Command
  mask : Command
  deriving DecidableEq, Repr

/-- The table of R95, by opcode. -/
def opRow (op : BitVec 4) : OpRow :=
  match op.toNat with
  | 0x0 => ⟨"NOP", 0x0000000000000000, 0xFFFFFFFFFFFFFFFF⟩
  | 0x1 => ⟨"INIT", 0x1000000000000000, 0xFFFFFFFFFFFFFFFF⟩
  | 0x2 => ⟨"SETFREQ", 0x2000000000000000, 0xFFFFFFFF00000000⟩
  | 0x3 => ⟨"SETCH", 0x3000000000000000, 0xF00FFFFF00000000⟩
  | 0x4 => ⟨"CHOFF", 0x4000000000000000, 0xF00FFFFFFFFFFFFF⟩
  | 0x5 => ⟨"SERVO", 0x5000000000000000, 0xF00FFFFF00000000⟩
  | 0x6 => ⟨"DCMOTOR", 0x6000000000000000, 0xF007FFFF00000000⟩
  | 0x7 => ⟨"MSTOP", 0x7000000000000000, 0xF00FFFFFFFFFFFFF⟩
  | 0x8 => ⟨"MSTOPALL", 0x8000000000000000, 0xFFFFFFFFFFFFFFFF⟩
  | 0x9 => ⟨"STEPDEG", 0x9000000000000000, 0xF003FFFF00000000⟩
  | 0xA => ⟨"STEPTURN", 0xA000000000000000, 0xF003FFFF00000000⟩
  | 0xB => ⟨"LREAD", 0xB000000000000000, 0xF00DFFFFFFFFFFFF⟩
  | 0xC => ⟨"LSENS", 0xC000000000000000, 0xFFFFFFFF00000000⟩
  | 0xD => ⟨"LWATCH", 0xD000000000000000, 0xF00DFFFFFFFFFFFF⟩
  | 0xE => ⟨"SCLR", 0xE000000000000000, 0xFFFFFFFF00000000⟩
  | _ => ⟨"RESERVED_F", 0xF000000000000000, 0xF000000000000000⟩

/-- `OP`, bits 63:60 (R91). -/
def opField (w : Command) : BitVec 4 := w.extractLsb' 60 4

/-- `IDX`, bits 59:52 (R91). -/
def idxField (w : Command) : BitVec 8 := w.extractLsb' 52 8

/-- `VAL`, bits 31:0 (R91). -/
def valField (w : Command) : BitVec 32 := w.extractLsb' 0 32

/-- `sidx = sext_8(w[59:52])` (R92). -/
def sidx (w : Command) : Int := (idxField w).toInt

/-- `sval = sext_32(w[31:0])` (R92). -/
def sval (w : Command) : Int := (valField w).toInt

/-- `DIR`, bit 51 (R91). -/
def dirField (w : Command) : Dir := if w.getLsbD 51 then .rev else .fwd

/-- `MODEL`, bit 50 (R91). -/
def modelField (w : Command) : Model := if w.getLsbD 50 then .b else .a

/-- `COND`, bit 49 (R91). -/
def condField (w : Command) : Cond := if w.getLsbD 49 then .notInt else .int

/-- `ON`, bits 15:0, zero-extended (R92). -/
def onField (w : Command) : Nat := (w.extractLsb' 0 16).toNat

/-- `OFF`, bits 31:16, zero-extended (R92). -/
def offField (w : Command) : Nat := (w.extractLsb' 16 16).toNat

/-- The command of a word whose must-be-zero bits are zero: the opcode map of R94 over the operands of R92. -/
def assembleOperands (w : Command) : Instr :=
  match (opField w).toNat with
  | 0x0 => .nop
  | 0x1 => .init
  | 0x2 => .setfreq (sval w)
  | 0x3 => .setch (sidx w) (onField w) (offField w)
  | 0x4 => .choff (sidx w)
  | 0x5 => .servo (sidx w) (sval w)
  | 0x6 => .dcmotor (sidx w) (dirField w) (sval w)
  | 0x7 => .mstop (sidx w)
  | 0x8 => .mstopall
  | 0x9 => .stepdeg (sidx w) (dirField w) (modelField w) (sval w)
  | 0xA => .stepturn (sidx w) (dirField w) (modelField w) (sval w)
  | 0xB => .lread (idxField w) (condField w)
  | 0xC => .lsens (sval w)
  | 0xD => .lwatch (idxField w) (condField w)
  | 0xE => .sclr (valField w)
  | _ => .reservedF (w.extractLsb' 0 60)

/-- The decoder of R97, total on every word. A word with OP = 0xF decodes to the reserved row, whose meaning is the
refusal of R98 and R242 (log entry 22). -/
def decode (w : Command) : Except DecodeError Instr :=
  let row := opRow (opField w)
  if w &&& row.mask = row.pattern then .ok (assembleOperands w) else .error (.mustBeZero row.mnemonic)

/-- The host bits of a word as the opcode table numbers them (fixed name): bits above `nbits` are zero. -/
def decodeTableWord (nbits w : Nat) : Option Instr :=
  (decode (BitVec.ofNat 64 (w % 2 ^ nbits))).toOption

/-! The encoder, written from the field layout of R91 and the opcode map of R94. -/

/-- The opcode of a command (R94). -/
def Instr.opcode (i : Instr) : BitVec 4 :=
  match i with
  | .nop => 0x0
  | .init => 0x1
  | .setfreq _ => 0x2
  | .setch _ _ _ => 0x3
  | .choff _ => 0x4
  | .servo _ _ => 0x5
  | .dcmotor _ _ _ => 0x6
  | .mstop _ => 0x7
  | .mstopall => 0x8
  | .stepdeg _ _ _ _ => 0x9
  | .stepturn _ _ _ _ => 0xA
  | .lread _ _ => 0xB
  | .lsens _ => 0xC
  | .lwatch _ _ => 0xD
  | .sclr _ => 0xE
  | .reservedF _ => 0xF

/-- A word from its fields, `RSV` zero (R91, R96). -/
def fieldsWord (op : BitVec 4) (idx : BitVec 8) (dir model cond : Bool) (val : BitVec 32) : Command :=
  op ++ idx ++ BitVec.ofBool dir ++ BitVec.ofBool model ++ BitVec.ofBool cond ++ 0#17 ++ val

/-- The `DIR` bit (R91). -/
def Dir.bit (d : Dir) : Bool := match d with | .fwd => false | .rev => true

/-- The `MODEL` bit (R91). -/
def Model.bit (m : Model) : Bool := match m with | .a => false | .b => true

/-- The `COND` bit (R91). -/
def Cond.bit (c : Cond) : Bool := match c with | .int => false | .notInt => true

/-- The encoder of R96: negative operands in two's complement, unused fields 0. -/
def encode (i : Instr) : Command :=
  match i with
  | .nop => fieldsWord 0x0 0 false false false 0
  | .init => fieldsWord 0x1 0 false false false 0
  | .setfreq hz => fieldsWord 0x2 0 false false false (BitVec.ofInt 32 hz)
  | .setch ch on off => fieldsWord 0x3 (BitVec.ofInt 8 ch) false false false (BitVec.ofNat 16 off ++ BitVec.ofNat 16 on)
  | .choff ch => fieldsWord 0x4 (BitVec.ofInt 8 ch) false false false 0
  | .servo idx deg => fieldsWord 0x5 (BitVec.ofInt 8 idx) false false false (BitVec.ofInt 32 deg)
  | .dcmotor idx dir speed => fieldsWord 0x6 (BitVec.ofInt 8 idx) dir.bit false false (BitVec.ofInt 32 speed)
  | .mstop idx => fieldsWord 0x7 (BitVec.ofInt 8 idx) false false false 0
  | .mstopall => fieldsWord 0x8 0 false false false 0
  | .stepdeg pair dir model deg =>
    fieldsWord 0x9 (BitVec.ofInt 8 pair) dir.bit model.bit false (BitVec.ofInt 32 deg)
  | .stepturn pair dir model turns =>
    fieldsWord 0xA (BitVec.ofInt 8 pair) dir.bit model.bit false (BitVec.ofInt 32 turns)
  | .lread pin cond => fieldsWord 0xB pin false false cond.bit 0
  | .lsens value => fieldsWord 0xC 0 false false false (BitVec.ofInt 32 value)
  | .lwatch pin cond => fieldsWord 0xD pin false false cond.bit 0
  | .sclr mask => fieldsWord 0xE 0 false false false mask
  | .reservedF rest => (0xF#4 ++ rest : Command)

end Sys2Proof
end

