-- ==== Sys2Proof/Config.lean ====
section
/-! DEFINITION. What the spec leaves open. `Params` is the read-only configuration a model takes as an argument
(R8, R32, R37); the opaque constants are the free values, of which nothing can be proved. The fixed constants of R7
and the default parameters stand in Machine/Params.lean; `ANALOG_MAX`, which bounds the type of a level, stands here. -/

namespace Sys2Proof

/-- R7 `ANALOG_MAX`: the highest level an analog pin answers. It bounds the type `Level`. -/
def Config.analogMax : Nat := 1023

/-- An analog level, 0..`ANALOG_MAX` (R64): exactly the admitted range. -/
abbrev Level := Fin (Config.analogMax + 1)

end Sys2Proof

namespace Sys2Proof.Config

/-- A coil duty pair of two 12-bit tick values (R8, R182). -/
structure Duty where
  on : BitVec 12
  off : BitVec 12
  deriving DecidableEq, Repr

/-- The four duty pairs of one stepper model (R182). -/
structure PhaseTable where
  a : Duty
  b : Duty
  c : Duty
  d : Duty
  deriving DecidableEq, Repr

/-- `P_COIL_TABLE` (R182). -/
structure CoilTable where
  modelA : PhaseTable
  modelB : PhaseTable
  deriving DecidableEq, Repr

/-- One entry of a coil map: this channel carries this phase (R183). -/
structure CoilEntry where
  ch : Nat
  phase : Phase
  deriving DecidableEq, Repr

/-- `P_COIL_MAP` (R183): the ordered entries for each model, pair and direction. -/
structure CoilMap where
  a1Fwd : List CoilEntry
  a1Rev : List CoilEntry
  a2Fwd : List CoilEntry
  a2Rev : List CoilEntry
  b1Fwd : List CoilEntry
  b1Rev : List CoilEntry
  b2Fwd : List CoilEntry
  b2Rev : List CoilEntry
  deriving DecidableEq, Repr

/-- Who answers a read of MODE1. `draw`: the bus device, any byte (R63, D32). `reference`: the reference expander
of R82, which answers the register's byte (for the test vectors only). -/
inductive BusDevice where
  | draw
  | reference
  deriving DecidableEq, Repr

/-- The parameters of R8 that are data. No step writes them. -/
structure Params where
  tickHighMask : Byte
  initMode1 : Byte
  sleepKeep : Byte
  sleepSet : Byte
  wakeSet : Byte
  coilTable : CoilTable
  coilMap : CoilMap
  /-- `none` is unbounded. -/
  monCapacity : Option Nat
  lightPrevInit : Option Word32
  busDevice : BusDevice
  /-- `P_HOST_BASE`, the host address of the block's first register (R33, R72, 93 U13) -/
  hostBase : Nat
  deriving DecidableEq, Repr

/-- Free value: the byte the bus device answers to the n-th draw (R63, 93 U1). Log entry 4. -/
opaque mode1Draw : Nat → Byte

/-- Free value: the level the analog source answers on a pin at the n-th draw (R64, 93 U2). Log entry 5. -/
opaque analogDraw : Pin → Nat → Level

/-- Free value: `P_EVENT_BASE` (R8, R212). Log entry 6. -/
opaque eventBase : Int

/-- Free value: `P_CC_INT` (R8, R212). Log entry 6. -/
opaque ccInt : Int

/-- Free value: `P_CC_NOTINT` (R8, R212). Log entry 6. -/
opaque ccNotInt : Int

/-- Free value: `P_EVENT_PAYLOAD` (R8, R211). Log entry 6. -/
opaque eventPayload : Pin → Cond → Level → Int

/-- Free value: what MON_COUNT reads as when the length of MON needs more than 32 bits (R33 gives the register
32 bits and MON no bound). Log entry 14. -/
opaque monCountOver : Nat → Word32

end Sys2Proof.Config
end

