-- ==== Sys2Proof/Machine/Params.lean ====
section
/-! DEFINITION. The fixed constants of R7, each named once (D44), the default parameters of R8, the look-ups in the
coil table and map (R182, R183), and the check of a configured coil map (R183, 93 U18). -/

namespace Sys2Proof.Config

/-- R7 `EXP_ADDR`: the bus device address of the expander. -/
def expAddr : Byte := 0x40

/-- R7 `REG_MODE1` -/
def regMode1 : Byte := 0x00

/-- R7 `REG_PRESCALE` -/
def regPrescale : Byte := 0xFE

/-- R7 `REG_LED0_ON_L` -/
def regLed0OnL : Byte := 0x06

/-- R7 `N_CHANNELS` -/
def nChannels : Int := 16

/-- R7 `FRAME_TICKS` -/
def frameTicks : Int := 4096

/-- R7 `TICK_MAX` -/
def tickMax : Int := 4095

/-- R7 `OSC_HZ` -/
def oscHz : Int := 25000000

/-- R7 `SETTLE_US`, a minimum -/
def settleUs : Nat := 5000

/-- R7 `INIT_HZ` -/
def initHz : Int := 50

/-- R7 `SERVO_MIN_US` -/
def servoMinUs : Int := 600

/-- R7 `SERVO_SPAN_US` -/
def servoSpanUs : Int := 1800

/-- R7 `SERVO_SPAN_DEG` -/
def servoSpanDeg : Int := 180

/-- R7 `SERVO_FRAME_US` -/
def servoFrameUs : Int := 20000

/-- R7 `SERVO_CH_OFFSET` -/
def servoChOffset : Int := 7

/-- R7 `SPEED_SCALE` -/
def speedScale : Int := 41

/-- R7 `DUTY_CLAMP` -/
def dutyClamp : Int := 4095

/-- R7 `HOLD_A_NUM`, `HOLD_A_DEN` -/
def holdANum : Nat := 50000

/-- R7 `HOLD_A_DEN` = 360*100 -/
def holdADen : Nat := 36000

/-- R7 `HOLD_B_NUM` -/
def holdBNum : Nat := 1000

/-- R7 `HOLD_B_DEN` -/
def holdBDen : Nat := 360

/-- R7 `TURN_DEG` -/
def turnDeg : Int := 360

/-- R7 `SAMPLE_MS` -/
def sampleMs : Nat := 200

/-- R7 `THRESH_DEFAULT` -/
def threshDefault : Word32 := 20

/-- R7 `THRESH_CONTRACT`: the caller's contract, which no rule enforces (R214) -/
def threshContract : Int × Int := (5, 1023)

/-- The default `P_COIL_TABLE` of R182. PRESUMED: the spec's general knowledge, not in its source (log entry 9). -/
def defaultCoilTable : CoilTable where
  modelA := { a := ⟨2047, 4095⟩, b := ⟨1, 2047⟩, c := ⟨1023, 3071⟩, d := ⟨3071, 1023⟩ }
  modelB := { a := ⟨3071, 1023⟩, b := ⟨1023, 3071⟩, c := ⟨4095, 2047⟩, d := ⟨2047, 4095⟩ }

/-- The default `P_COIL_MAP` of R183. PRESUMED: the spec's general knowledge, not in its source (log entry 9). -/
def defaultCoilMap : CoilMap where
  a1Fwd := [⟨4, .a⟩, ⟨6, .b⟩, ⟨5, .c⟩, ⟨7, .d⟩]
  a1Rev := [⟨7, .a⟩, ⟨5, .b⟩, ⟨6, .c⟩, ⟨4, .d⟩]
  a2Fwd := [⟨0, .a⟩, ⟨2, .b⟩, ⟨1, .c⟩, ⟨3, .d⟩]
  a2Rev := [⟨3, .a⟩, ⟨1, .b⟩, ⟨2, .c⟩, ⟨0, .d⟩]
  b1Fwd := [⟨7, .a⟩, ⟨6, .b⟩, ⟨5, .c⟩, ⟨4, .d⟩]
  b1Rev := [⟨7, .c⟩, ⟨6, .d⟩, ⟨5, .a⟩, ⟨4, .b⟩]
  b2Fwd := [⟨3, .a⟩, ⟨2, .b⟩, ⟨1, .c⟩, ⟨0, .d⟩]
  b2Rev := [⟨3, .c⟩, ⟨2, .d⟩, ⟨1, .a⟩, ⟨0, .b⟩]

/-- The defaults of R8. The MODE1 bytes are PRESUMED (log entry 9), the rest the spec's decisions (log entry 10);
`P_HOST_BASE` is open and 0 is this model's value for it (log entry 12). -/
def defaultParams : Params where
  tickHighMask := 0xFF
  initMode1 := 0x00
  sleepKeep := 0x7F
  sleepSet := 0x10
  wakeSet := 0xA1
  coilTable := defaultCoilTable
  coilMap := defaultCoilMap
  monCapacity := none
  lightPrevInit := none
  busDevice := .draw
  hostBase := 0

/-- The default configuration with the reference expander of R82 on the bus. -/
def referenceParams : Params := { defaultParams with busDevice := .reference }

/-- `P_COIL_TABLE(model, phase)` (R182). -/
def coilDuty (t : CoilTable) (model : Model) (phase : Phase) : Duty :=
  let row := match model with
    | .a => t.modelA
    | .b => t.modelB
  match phase with
  | .a => row.a
  | .b => row.b
  | .c => row.c
  | .d => row.d

/-- `P_COIL_MAP(model, pair, direction)` (R183). -/
def coilEntries (m : CoilMap) (model : Model) (pair : Pair) (dir : Dir) : List CoilEntry :=
  match model, pair, dir with
  | .a, .one, .fwd => m.a1Fwd
  | .a, .one, .rev => m.a1Rev
  | .a, .two, .fwd => m.a2Fwd
  | .a, .two, .rev => m.a2Rev
  | .b, .one, .fwd => m.b1Fwd
  | .b, .one, .rev => m.b1Rev
  | .b, .two, .fwd => m.b2Fwd
  | .b, .two, .rev => m.b2Rev

/-- The channels of a pair (R180). -/
def pairChannels (pair : Pair) : List Nat :=
  match pair with
  | .one => [4, 5, 6, 7]
  | .two => [0, 1, 2, 3]

/-- A list of coil entries covers each channel of its pair once and each phase once (R183). -/
def coilListOk (pair : Pair) (es : List CoilEntry) : Bool :=
  (es.length == 4) && (pairChannels pair).all (fun c => es.any (fun e => e.ch == c)) &&
    [Phase.a, Phase.b, Phase.c, Phase.d].all (fun p => es.any (fun e => decide (e.phase = p)))

/-- The constraints of R183 hold of every list of the map. -/
def coilMapOk (m : CoilMap) : Bool :=
  coilListOk .one m.a1Fwd && coilListOk .one m.a1Rev && coilListOk .two m.a2Fwd && coilListOk .two m.a2Rev &&
    coilListOk .one m.b1Fwd && coilListOk .one m.b1Rev && coilListOk .two m.b2Fwd && coilListOk .two m.b2Rev

end Sys2Proof.Config
end

