-- ==== Sys2Proof/Machine/State.lean ====
section
/-! DEFINITION. The machine's state as plain data: the block state S of R20 to R32, the read-only configuration
(R8, R32), and beside them what R37 and R284 keep outside S: the expander's registers, the recorded history of the
ports, and the environment's moves that are still to come. The state after reset (R38). The reasons a step stops. -/

namespace Sys2Proof.Machine

/-- Why a step stops as stuck. -/
inductive Fault where
  /-- Raised by `step` when the next listed move names an agent that has no enabled step (R75; 93 "stuck"): no
  execution of the spec continues so. Safe. Log entry 2. -/
  | noStep
  deriving DecidableEq, Repr

/-- What the model gives no meaning. -/
inductive Refusal where
  /-- Raised by `exec`'s arm of an instruction without a meaning. Safe. No arm does. -/
  | notModelled (mnemonic : String)
  /-- Raised by a host access that is not an aligned 32-bit access to one of the 64 bytes from `P_HOST_BASE` on (R69,
  93 U14). Safe.
  Log entry 12. -/
  | hostAccess
  /-- Raised by `step` when the configured coil map breaks the constraints of R183 (93 U18). Safe. Log entry 11. -/
  | badConfig
  deriving DecidableEq, Repr

/-- The six sticky flags (R27). -/
structure Sticky where
  dropped : Bool
  clamped : Bool
  masked : Bool
  noopZero : Bool
  illegal : Bool
  overrun : Bool
  deriving DecidableEq, Repr

/-- One procedure call of a command's pseudocode (R120), its operands computed. A list of them is what is left of a
command: the k of RUNNING(k) (R28). -/
inductive Op where
  /-- `ensureInit()` (R122) -/
  | ensureInit
  /-- `setFrequency(hz)` (R125), from its start -/
  | setFrequency (hz : Int)
  /-- the rest of `setFrequency(hz)` after its suspension, `old` the MODE1 byte it read (R125) -/
  | settled (old : Byte) (hz : Int)
  /-- `S.INIT <- 1`, the end of `initialize` (R123) -/
  | setInit
  /-- `setChannel(c, on, off)` (R121) -/
  | setChannel (c on off : Int)
  /-- `set_flag(F)` (R12) -/
  | flag (f : Flag)
  /-- `S.HOLD_MS <- h; SleepMillis(h)` (R185) -/
  | hold (h : Nat)
  deriving DecidableEq, Repr

/-- `SEQ` (R28). In `running k answered`, `k` is the continuation and `answered` says that the timer has answered
its suspension, so that the sequencer has a step (R65). -/
inductive Seq where
  | idle
  | running (k : List Op) (answered : Bool)
  deriving DecidableEq, Repr

/-- Phase of a monitor agent (R31). -/
inductive MonPhase where
  | sample
  | sleeping
  deriving DecidableEq, Repr

/-- An entry of `MON` (R30) with the phase of the agent it owns (R31). -/
structure Monitor where
  pin : Pin
  cond : Cond
  phase : MonPhase
  deriving DecidableEq, Repr

/-- An event of the bus, timer, analog or event port (R12, R63 to R66). -/
inductive PortEvent where
  /-- `BusWrite(dev, [b0, ..., bn])`, b0 the register address -/
  | busWrite (dev : Byte) (bytes : List Byte)
  /-- `BusRead(dev, reg)` and its answer -/
  | busRead (dev reg answer : Byte)
  | sleepMicros (n : Nat)
  | sleepMillis (n : Nat)
  /-- `AnalogRead(pin)` and its answer -/
  | analogRead (pin : Pin) (level : Level)
  | raise (id payload : Int)
  deriving DecidableEq, Repr

/-- One atomic step of an agent or of the environment (R74, R75, R262). Log entry 1. -/
inductive Move where
  /-- the host writes `value` at an address, `size` bytes wide (R33) -/
  | hostWrite (address size : Nat) (value : Word32)
  /-- the host reads at an address, `size` bytes wide (R33) -/
  | hostRead (address size : Nat)
  /-- the timer answers the sequencer's suspension (R65) -/
  | timerSeq
  /-- the sequencer continues after its suspension (R75) -/
  | sequencer
  /-- the timer answers the suspension of monitor i (R31, R65) -/
  | timerMon (i : Nat)
  /-- monitor i ticks (R211) -/
  | tick (i : Nat)
  /-- power-on reset (R282) -/
  | powerOn
  deriving DecidableEq, Repr

/-- The expander's registers: (address, byte) pairs, addresses strictly rising, only known registers listed
(log entry 7). -/
abbrev Mem := List Host.Cell

structure State where
  /-- the configuration, written by no step (R8, R32) -/
  cfg : Config.Params
  /-- `INIT` (R22) -/
  init : Bool
  /-- `FREQ`, 32-bit signed (R23) -/
  freq : Word32
  /-- `THRESH`, 32-bit signed (R24) -/
  thresh : Word32
  /-- `LAST_LEVEL`, 32-bit signed (R25) -/
  lastLevel : Word32
  /-- `LAST_VALID` (R25) -/
  lastValid : Bool
  /-- `RESULT` (R26) -/
  result : Bool
  /-- the sticky flags (R27) -/
  sticky : Sticky
  /-- `SEQ`, and with it `BUSY` (R28) -/
  seq : Seq
  /-- `HOLD_MS`, 64-bit unsigned (R29) -/
  holdMs : BitVec 64
  /-- `MON` and the monitor agents' phases (R30, R31) -/
  mon : List Monitor
  /-- `CMD_LO` (R35) -/
  cmdLo : Word32
  /-- the expander's registers as the block wrote them (R37, R284) -/
  expander : Mem
  /-- the recorded history of the ports, oldest first (R70, R284) -/
  trace : List PortEvent
  /-- the atomic steps still to come, the next one first (R75, log entry 1) -/
  moves : List Move
  /-- analog answers already decided, the next one first (R64) -/
  levels : List Level
  /-- how many free values have been drawn -/
  draws : Nat
  /-- how many moves have been taken: whose turn it is where no move is listed (log entry 1) -/
  turn : Nat
  /-- the word the host port last answered to a read (R36) -/
  readData : Word32
  deriving DecidableEq, Repr

/-- `BUSY` = 1 exactly when `SEQ` is not IDLE (R28). -/
def State.busy (s : State) : Bool := decide (s.seq ≠ .idle)

/-- All sticky flags 0 (R38). -/
def Sticky.clear : Sticky := ⟨false, false, false, false, false, false⟩

/-- The reset table of R38 for a configuration `p`. What stands outside S is the model's own: nothing recorded,
nothing listed, nothing still to come (log entries 7, 15). -/
def State.resetWith (p : Config.Params) : State where
  cfg := p
  init := false
  freq := 0
  thresh := Config.threshDefault
  lastLevel := p.lightPrevInit.getD 0
  lastValid := p.lightPrevInit.isSome
  result := false
  sticky := Sticky.clear
  seq := .idle
  holdMs := 0
  mon := []
  cmdLo := 0
  expander := []
  trace := []
  moves := []
  levels := []
  draws := 0
  turn := 0
  readData := 0

/-- The machine right after power-on reset, in the default configuration (R38, R280). -/
def State.reset : State := State.resetWith Config.defaultParams

end Sys2Proof.Machine
end

