-- ==== Sys2Proof/Machine/Flags.lean ====
section
/-! DEFINITION. The sticky flags: setting one (R12, R27), clearing by mask (R241), and the STATUS word (R34). -/

namespace Sys2Proof.Machine

/-- The flag's value. -/
def stickyGet (f : Flag) (k : Sticky) : Bool :=
  match f with
  | .dropped => k.dropped
  | .clamped => k.clamped
  | .masked => k.masked
  | .noopZero => k.noopZero
  | .illegal => k.illegal
  | .overrun => k.overrun

/-- `set_flag(F)` on the flags. -/
def stickySet (f : Flag) (k : Sticky) : Sticky :=
  match f with
  | .dropped => { k with dropped := true }
  | .clamped => { k with clamped := true }
  | .masked => { k with masked := true }
  | .noopZero => { k with noopZero := true }
  | .illegal => { k with illegal := true }
  | .overrun => { k with overrun := true }

/-- The STATUS bit of a sticky flag (R34). -/
def flagBit (f : Flag) : Nat :=
  match f with
  | .dropped => 8
  | .clamped => 9
  | .masked => 10
  | .noopZero => 11
  | .illegal => 12
  | .overrun => 13

/-- `SCLR`: each flag whose STATUS bit is 1 in the mask becomes 0 (R241). -/
def stickyClear (mask : Word32) (k : Sticky) : Sticky where
  dropped := k.dropped && !mask.getLsbD (flagBit .dropped)
  clamped := k.clamped && !mask.getLsbD (flagBit .clamped)
  masked := k.masked && !mask.getLsbD (flagBit .masked)
  noopZero := k.noopZero && !mask.getLsbD (flagBit .noopZero)
  illegal := k.illegal && !mask.getLsbD (flagBit .illegal)
  overrun := k.overrun && !mask.getLsbD (flagBit .overrun)

/-- The STATUS word (R34): bits 31:14 and 7:4 read 0. -/
def statusWord (s : State) : Word32 :=
  0#18 ++ BitVec.ofBool s.sticky.overrun ++ BitVec.ofBool s.sticky.illegal ++ BitVec.ofBool s.sticky.noopZero ++
    BitVec.ofBool s.sticky.masked ++ BitVec.ofBool s.sticky.clamped ++ BitVec.ofBool s.sticky.dropped ++ 0#4 ++
    BitVec.ofBool s.lastValid ++ BitVec.ofBool s.result ++ BitVec.ofBool s.init ++ BitVec.ofBool s.busy

/-- `set_flag(F)` (R12). -/
def setFlag (f : Flag) (s : State) : State := { s with sticky := stickySet f s.sticky }

end Sys2Proof.Machine
end

