-- ==== Sys2Proof/Machine/Operands.lean ====
section
/-! DEFINITION. The integer primitives of R10 and R11 and the values the rules compute from operands: tick bytes
(R67), prescale (R124), servo ticks (R151), DC duty and channels (R153, R154), hold times (R184). -/

namespace Sys2Proof.Machine

open Sys2Proof.Config

/-- `tdiv(a, b)`, the quotient truncated toward zero, for b > 0 (R11). -/
def tdiv (a b : Int) : Int := Int.tdiv a b

/-- `fdiv(a, b)`, the floor quotient, for b > 0 (R11). -/
def fdiv (a b : Int) : Int := a / b

/-- The dividend of `rnd(n, d)` (R11). -/
def rndDividend (n d : Int) : Int := 2 * n + d

/-- The divisor of `rnd(n, d)` (R11). -/
def rndDivisor (d : Int) : Int := 2 * d

/-- `rnd(n, d) = fdiv(2n + d, 2d)`, for n ≥ 0 and d > 0 (R11). -/
def rnd (n d : Int) : Int := fdiv (rndDividend n d) (rndDivisor d)

/-- `clamp(v, lo, hi) = min(hi, max(lo, v))` (R11). -/
def clamp (v lo hi : Int) : Int := min hi (max lo v)

/-- The byte of bits [k+7:k] of the two's complement of `v` (R10). -/
def byteAt (v : Int) (k : Nat) : Byte := BitVec.ofInt 8 (v >>> k)

/-- `lo(v) = v[7:0]` (R67). -/
def tickLo (v : Int) : Byte := byteAt v 0

/-- `hi(v) = v[15:8] & P_TICK_HIGH_MASK` (R67). -/
def tickHi (mask : Byte) (v : Int) : Byte := byteAt v 8 &&& mask

/-- A tick value lies in [0, 4095] (R121). -/
def tickInRange (v : Int) : Bool := decide (0 ≤ v ∧ v ≤ tickMax)

/-- A channel lies in 0..15 (R121). -/
def channelOk (c : Int) : Bool := decide (0 ≤ c ∧ c < nChannels)

/-- `base(c) = 0x06 + 4*c` (R62). -/
def channelBase (c : Int) : Byte := regLed0OnL + BitVec.ofInt 8 (4 * c)

/-- `4096*hz` (R124). -/
def prescaleProduct (hz : Int) : Int := frameTicks * hz

/-- `prescale(hz) = rnd(25_000_000, 4096*hz) - 1`, for hz ≥ 1 (R124). -/
def prescale (hz : Int) : Int := rnd oscHz (prescaleProduct hz) - 1

/-- A prescale value fits its register (R124). -/
def prescaleInRange (p : Int) : Bool := decide (0 ≤ p ∧ p ≤ 255)

/-- The MODE1 byte that puts the expander to sleep: `(old & P_SLEEP_KEEP) | P_SLEEP_SET` (R125). -/
def sleepByte (p : Params) (old : Byte) : Byte := (old &&& p.sleepKeep) ||| p.sleepSet

/-- The MODE1 byte after the settle wait: `(old | P_WAKE_SET) & 0xFF` (R125). -/
def wakeByte (p : Params) (old : Byte) : Byte := old ||| p.wakeSet

/-- `deg * 1800` (R151). -/
def servoSpan (deg : Int) : Int := deg * servoSpanUs

/-- `pulse = tdiv(deg * 1800, 180) + 600` (R151). -/
def servoPulse (deg : Int) : Int := tdiv (servoSpan deg) servoSpanDeg + servoMinUs

/-- `pulse * 4096` (R151). -/
def servoProduct (deg : Int) : Int := servoPulse deg * frameTicks

/-- `ticks = tdiv(pulse * 4096, 20000)` (R151). -/
def servoTicks (deg : Int) : Int := tdiv (servoProduct deg) servoFrameUs

/-- `ch = idx + 7` (R151). -/
def servoChannel (idx : Int) : Int := idx + servoChOffset

/-- `dirSign` (R152). -/
def dirSign (d : Dir) : Int :=
  match d with
  | .fwd => 1
  | .rev => -1

/-- A motor index lies in 1..4 (R153, R155). -/
def motorOk (i : Int) : Bool := decide (1 ≤ i ∧ i ≤ 4)

/-- The forward channel `pp(i) = (4 - i)*2 + 1` (R154). -/
def motorPp (i : Int) : Int := (4 - i) * 2 + 1

/-- The reverse channel `pn(i) = (4 - i)*2` (R154). -/
def motorPn (i : Int) : Int := (4 - i) * 2

/-- `raw = speed * 41 * dirSign` (R153). -/
def rawDuty (dir : Dir) (speed : Int) : Int := speed * speedScale * dirSign dir

/-- `s = clamp(raw, -4095, 4095)` (R153). -/
def clampedDuty (dir : Dir) (speed : Int) : Int := clamp (rawDuty dir speed) (-dutyClamp) dutyClamp

/-- The stepper pair an operand names, if it names one (R185). -/
def pairOf (p : Int) : Option Pair :=
  if p = 1 then some .one else if p = 2 then some .two else none

/-- The pair's number (R180). -/
def pairIndex (p : Pair) : Int :=
  match p with
  | .one => 1
  | .two => 2

/-- `turns * 360` (R187). -/
def turnDegrees (turns : Int) : Int := turns * turnDeg

/-- The product of a hold time, `50000 * m` or `1000 * m` (R184). -/
def holdProduct (model : Model) (m : Nat) : Nat :=
  match model with
  | .a => holdANum * m
  | .b => holdBNum * m

/-- The divisor of a hold time, 36000 or 360 (R184). -/
def holdDivisor (model : Model) : Nat :=
  match model with
  | .a => holdADen
  | .b => holdBDen

/-- `holdMs(model, m)`, a floor quotient (R184). -/
def holdMs (model : Model) (m : Nat) : Nat := holdProduct model m / holdDivisor model

/-- `level > THRESH`, a signed comparison (R210). -/
def above (level : Int) (thresh : Word32) : Bool := decide (level > thresh.toInt)

/-- The condition holds of a level: INT is above, NOTINT at or below (R210, R213). -/
def condHolds (cond : Cond) (level : Int) (thresh : Word32) : Bool :=
  match cond with
  | .int => above level thresh
  | .notInt => !above level thresh

/-- `cc(cond)` (R212). -/
def condCode (cond : Cond) : Int :=
  match cond with
  | .int => ccInt
  | .notInt => ccNotInt

/-- `eventId(pin, cond) = P_EVENT_BASE + pin + cc(cond)` (R212). -/
def eventId (pin : Pin) (cond : Cond) : Int := eventBase + (pin.toNat : Int) + condCode cond

end Sys2Proof.Machine
end

