-- ==== Sys2Proof/Machine/Ops.lean ====
section
/-! DEFINITION. The operations the rules share: the expander's registers, the bus, timer, analog and event ports
(R12, R60 to R66), the procedures of the PWM driver (R120 to R125), and the sequencer that runs a command's procedure
calls from one suspension point to the next (R28, R71). The block takes no exception (R250, R253), so there is none to
take. -/

namespace Sys2Proof.Machine

open Sys2Proof.Config

/-! The expander's registers. -/

/-- What an unlisted register reads as: unknown (R281, log entry 7). -/
def memUnlisted : Option Byte := none

/-- The byte a register is known to hold. -/
def memRead (m : Mem) (a : Nat) : Option Byte :=
  match m with
  | [] => memUnlisted
  | (x, v) :: rest => if x = a then some v else memRead rest a

/-- The registers after a byte is written, in canonical form. -/
def memWrite (m : Mem) (a : Nat) (b : Byte) : Mem :=
  match m with
  | [] => [(a, b)]
  | (x, v) :: rest =>
    if a < x then (a, b) :: (x, v) :: rest
    else if a = x then (a, b) :: rest
    else (x, v) :: memWrite rest a b

/-- A burst lands in consecutive registers from `r` on (R63), modulo 256 (R82). -/
def memWriteBytes (m : Mem) (r : Byte) (bytes : List Byte) : Mem :=
  match bytes with
  | [] => m
  | b :: rest => memWriteBytes (memWrite m r.toNat b) (r + 1) rest

/-- The canonical form: addresses strictly rising, each one of the 256 registers (R60). -/
abbrev memWf (m : Mem) : Prop := (m.map Prod.fst).Pairwise (· < ·) ∧ ∀ c ∈ m, c.1 < 256

/-! The ports. -/

/-- One event is recorded, after those before it (R70). -/
def record (e : PortEvent) (s : State) : State := { s with trace := s.trace ++ [e] }

/-- `BusWrite(0x40, [r, b0, ..., bn])` (R63): one transaction, which completes (R81). -/
def busWrite (r : Byte) (bytes : List Byte) (s : State) : State :=
  { record (.busWrite expAddr (r :: bytes)) s with expander := memWriteBytes s.expander r bytes }

/-- The byte the bus device answers to a read of MODE1: a draw (R63, D32), or the reference expander's register
(R82). Log entry 4. -/
def mode1Answer (s : State) : Byte :=
  match s.cfg.busDevice with
  | .draw => mode1Draw s.draws
  | .reference => (memRead s.expander regMode1.toNat).getD (mode1Draw s.draws)

/-- `BusRead(0x40, 0x00)` (R63): the answer is `mode1Answer`; the read is recorded and changes nothing else. -/
def busReadMode1 (s : State) : State :=
  { record (.busRead expAddr regMode1 (mode1Answer s)) s with draws := s.draws + 1 }

/-- The level the analog source answers on a pin (R64): the next listed answer, else a free value. Log entry 5. -/
def analogAnswer (pin : Pin) (s : State) : Level :=
  match s.levels with
  | [] => analogDraw pin s.draws
  | l :: _ => l

/-- `AnalogRead(pin)` (R64): the answer is `analogAnswer`; the read is recorded. -/
def analogRead (pin : Pin) (s : State) : State :=
  { record (.analogRead pin (analogAnswer pin s)) s with levels := s.levels.tail, draws := s.draws + 1 }

/-- `Raise(eventId(pin, cond), P_EVENT_PAYLOAD(pin, cond, level))` (R66, R211). -/
def raiseEvent (pin : Pin) (cond : Cond) (level : Level) (s : State) : State :=
  record (.raise (eventId pin cond) (eventPayload pin cond level)) s

/-- The running command waits at a suspension point, `k` being what is left of it (R28, R65). -/
def suspend (k : List Op) (s : State) : State := { s with seq := .running k false }

/-! The procedures of the PWM driver. -/

/-- `setChannel(c, on, off)` (R121). -/
def setChannel (c on off : Int) (s : State) : State :=
  if channelOk c then
    busWrite (channelBase c)
      [tickLo on, tickHi s.cfg.tickHighMask on, tickLo off, tickHi s.cfg.tickHighMask off]
      (if tickInRange on && tickInRange off then s else setFlag .masked s)
  else setFlag .dropped s

/-- `setFrequency(hz)` up to its suspension: MASKED for the prescale, the MODE1 read, the sleep, prescale and
restore writes, `SleepMicros(5000)` (R125). -/
def frequencyStart (hz : Int) (s : State) : State :=
  let s₁ := if prescaleInRange (prescale hz) then s else setFlag .masked s
  let old := mode1Answer s₁
  record (.sleepMicros settleUs)
    (busWrite regMode1 [old]
      (busWrite regPrescale [byteAt (prescale hz) 0]
        (busWrite regMode1 [sleepByte s.cfg old] (busReadMode1 s₁))))

/-- The MODE1 byte `frequencyStart` reads. -/
def frequencyOld (hz : Int) (s : State) : Byte :=
  mode1Answer (if prescaleInRange (prescale hz) then s else setFlag .masked s)

/-- `setFrequency(hz)` from the end of its suspension: the wake write, then `S.FREQ <- hz` (R125). -/
def frequencyFinish (old : Byte) (hz : Int) (s : State) : State :=
  { busWrite regMode1 [wakeByte s.cfg old] s with freq := BitVec.ofInt 32 hz }

/-- `initialize()` up to the suspension inside its `setFrequency(50)` (R123). -/
def initStart (s : State) : State := frequencyStart initHz (busWrite regMode1 [s.cfg.initMode1] s)

/-- What is left of `initialize()` at that suspension (R123). -/
def initRest (s : State) : List Op :=
  [.settled (frequencyOld initHz (busWrite regMode1 [s.cfg.initMode1] s)) initHz, .setInit]

/-- One procedure call: the state it leaves, and, where it suspends, what is left of it. -/
def runOp (op : Op) (s : State) : State × Option (List Op) :=
  match op with
  | .ensureInit => if s.init then (s, none) else (initStart s, some (initRest s))
  | .setFrequency hz => (frequencyStart hz s, some [.settled (frequencyOld hz s) hz])
  | .settled old hz => (frequencyFinish old hz s, none)
  | .setInit => ({ s with init := true }, none)
  | .setChannel c on off => (setChannel c on off s, none)
  | .flag f => (setFlag f s, none)
  | .hold h => (record (.sleepMillis h) { s with holdMs := BitVec.ofNat 64 h }, some [])

/-- A command's procedure calls in order, up to the end or the next suspension point: one atomic step of the
sequencer (R71). -/
def runOps (ops : List Op) (s : State) : State :=
  match ops with
  | [] => s
  | op :: rest =>
    match runOp op s with
    | (s', none) => runOps rest s'
    | (s', some k) => suspend (k ++ rest) s'

/-- `motorStop(i)` as procedure calls (R155). -/
def motorStopOps (i : Int) : List Op :=
  .ensureInit ::
    (if motorOk i then [.setChannel (motorPp i) 0 0, .setChannel (motorPn i) 0 0] else [.flag .dropped])

end Sys2Proof.Machine
end

