-- ==== Sys2Proof/Machine/Actuator.lean ====
section
/-! DEFINITION. The actuator mapper: SERVO, DCMOTOR, MSTOP, MSTOPALL (R150 to R159). -/

namespace Sys2Proof.Machine

/-- `SERVO idx, deg` (R151). -/
def execServo (idx deg : Int) (s : State) : Host.Outcome State Fault Refusal :=
  .next (runOps [.ensureInit, .setChannel (servoChannel idx) 0 (servoTicks deg)] s)

/-- The channel writes of `DCMOTOR` for a clamped duty `d`: the driven channel first, then the other (R153). -/
def dutyOps (idx d : Int) : List Op :=
  if 0 ≤ d then [.setChannel (motorPp idx) 0 d, .setChannel (motorPn idx) 0 0]
  else [.setChannel (motorPn idx) 0 (-d), .setChannel (motorPp idx) 0 0]

/-- `DCMOTOR idx, dir, speed` as procedure calls (R153). -/
def dcmotorOps (idx : Int) (dir : Dir) (speed : Int) : List Op :=
  .ensureInit ::
    (if motorOk idx then
      (if clampedDuty dir speed = rawDuty dir speed then [] else [.flag .clamped]) ++
        dutyOps idx (clampedDuty dir speed)
    else [.flag .dropped])

/-- `DCMOTOR idx, dir, speed` (R153). -/
def execDcmotor (idx : Int) (dir : Dir) (speed : Int) (s : State) : Host.Outcome State Fault Refusal :=
  .next (runOps (dcmotorOps idx dir speed) s)

/-- `MSTOP idx` (R155). -/
def execMstop (idx : Int) (s : State) : Host.Outcome State Fault Refusal :=
  .next (runOps (motorStopOps idx) s)

/-- `MSTOPALL` (R156). -/
def execMstopall (s : State) : Host.Outcome State Fault Refusal :=
  .next (runOps (.ensureInit :: (motorStopOps 1 ++ motorStopOps 2 ++ motorStopOps 3 ++ motorStopOps 4)) s)

end Sys2Proof.Machine
end

