-- ==== Sys2Proof/Machine/Block.lean ====
section
/-! DEFINITION. The block control commands: NOP, SCLR and the reserved opcode (R240 to R242). -/

namespace Sys2Proof.Machine

/-- `NOP` (R240). -/
def execNop (s : State) : Host.Outcome State Fault Refusal := .next s

/-- `SCLR mask` (R241). -/
def execSclr (mask : BitVec 32) (s : State) : Host.Outcome State Fault Refusal :=
  .next { s with sticky := stickyClear mask s.sticky }

/-- A word with OP = 0xF: ILLEGAL and nothing else, whatever its other bits (R98, R242). -/
def execReservedF (_rest : BitVec 60) (s : State) : Host.Outcome State Fault Refusal :=
  .next (setFlag .illegal s)

end Sys2Proof.Machine
end

