-- ==== Sys2Proof/Machine/Driver.lean ====
section
/-! DEFINITION. The commands of the PWM channel driver: INIT, SETFREQ, SETCH, CHOFF (R126 to R130). -/

namespace Sys2Proof.Machine

/-- `INIT` (R127). -/
def execInit (s : State) : Host.Outcome State Fault Refusal :=
  .next (runOps [.ensureInit] s)

/-- `SETFREQ hz` (R126). -/
def execSetfreq (hz : Int) (s : State) : Host.Outcome State Fault Refusal :=
  .next (runOps (if hz ≤ 0 then [.flag .dropped] else [.setFrequency hz]) s)

/-- `SETCH ch, on, off` (R128). -/
def execSetch (ch : Int) (on off : Nat) (s : State) : Host.Outcome State Fault Refusal :=
  .next (runOps [.ensureInit, .setChannel ch on off] s)

/-- `CHOFF ch` (R129). -/
def execChoff (ch : Int) (s : State) : Host.Outcome State Fault Refusal :=
  .next (runOps [.ensureInit, .setChannel ch 0 0] s)

end Sys2Proof.Machine
end

