-- ==== Sys2Proof/Machine/Light.lean ====
section
/-! DEFINITION. The phototransistor edge detector: LREAD, LSENS, LWATCH, and the tick of a monitor agent
(R210 to R218). -/

namespace Sys2Proof.Machine

open Sys2Proof.Config

/-- `LREAD pin, cond` (R213). -/
def execLread (pin : Pin) (cond : Cond) (s : State) : Host.Outcome State Fault Refusal :=
  .next { analogRead pin s with result := condHolds cond (analogAnswer pin s).val s.thresh }

/-- `LSENS value` (R214). -/
def execLsens (value : Int) (s : State) : Host.Outcome State Fault Refusal :=
  .next { s with thresh := BitVec.ofInt 32 value }

/-- The capacity is full (R215). -/
def monFull (s : State) : Bool :=
  match s.cfg.monCapacity with
  | none => false
  | some n => s.mon.length == n

/-- `LWATCH pin, cond` (R215): the new agent starts in phase SAMPLE (R31). -/
def execLwatch (pin : Pin) (cond : Cond) (s : State) : Host.Outcome State Fault Refusal :=
  .next (if monFull s then setFlag .dropped s else { s with mon := s.mon ++ [⟨pin, cond, .sample⟩] })

/-- The sample `level` of a registration (pin, cond) raises an event: a crossing in its direction against the
previous sample (R211). -/
def edge (cond : Cond) (level : Level) (s : State) : Bool :=
  s.lastValid &&
    match cond with
    | .int => above level.val s.thresh && !above s.lastLevel.toInt s.thresh
    | .notInt => !above level.val s.thresh && above s.lastLevel.toInt s.thresh

/-- The tick of monitor `i` with registration `m` (R211). -/
def monitorTick (i : Nat) (m : Monitor) (s : State) : State :=
  let level := analogAnswer m.pin s
  let s₁ := if edge m.cond level s then raiseEvent m.pin m.cond level (analogRead m.pin s) else analogRead m.pin s
  record (.sleepMillis sampleMs)
    { s₁ with
      lastLevel := BitVec.ofNat 32 level.val
      lastValid := true
      mon := s.mon.set i { m with phase := .sleeping } }

end Sys2Proof.Machine
end

