-- ==== Sys2Proof/Machine/Stepper.lean ====
section
/-! DEFINITION. The stepper coil-energization sequencer: STEPDEG, STEPTURN (R180 to R189). -/

namespace Sys2Proof.Machine

open Sys2Proof.Config

/-- The energize writes of a stepper command, in the map's order (R185). -/
def energizeOps (p : Params) (model : Model) (pair : Pair) (dir : Dir) : List Op :=
  (coilEntries p.coilMap model pair dir).map fun e =>
    let d := coilDuty p.coilTable model e.phase
    .setChannel e.ch d.on.toNat d.off.toNat

/-- The stop after the hold: both motors of the pair (R185). -/
def pairStopOps (pair : Pair) : List Op :=
  motorStopOps (2 * pairIndex pair - 1) ++ motorStopOps (2 * pairIndex pair)

/-- `stepperDeg(p, dir, model, deg)` as procedure calls (R185). -/
def stepperOps (p : Params) (pair : Int) (dir : Dir) (model : Model) (deg : Int) : List Op :=
  match pairOf pair with
  | none => [.flag .dropped]
  | some q => .ensureInit :: (energizeOps p model q dir ++ .hold (holdMs model deg.natAbs) :: pairStopOps q)

/-- `STEPDEG pair, dir, model, deg` (R186). -/
def execStepdeg (pair : Int) (dir : Dir) (model : Model) (deg : Int) (s : State) :
    Host.Outcome State Fault Refusal :=
  .next (runOps (if deg = 0 then [.flag .noopZero] else stepperOps s.cfg pair dir model deg) s)

/-- `STEPTURN pair, dir, model, turns` (R187). -/
def execStepturn (pair : Int) (dir : Dir) (model : Model) (turns : Int) (s : State) :
    Host.Outcome State Fault Refusal :=
  .next (runOps (if turns = 0 then [.flag .noopZero] else stepperOps s.cfg pair dir model (turnDegrees turns)) s)

end Sys2Proof.Machine
end

