-- ==== Sys2Proof/Machine/Dispatch.lean ====
section
/-! DEFINITION. One arm per command: the meaning of each, up to its first suspension point. -/

namespace Sys2Proof.Machine

def exec (i : Instr) (s : State) : Host.Outcome State Fault Refusal :=
  match i with
  | .nop => Sys2Proof.Machine.execNop s
  | .init => Sys2Proof.Machine.execInit s
  | .setfreq hz => Sys2Proof.Machine.execSetfreq hz s
  | .setch ch on off => Sys2Proof.Machine.execSetch ch on off s
  | .choff ch => Sys2Proof.Machine.execChoff ch s
  | .servo idx deg => Sys2Proof.Machine.execServo idx deg s
  | .dcmotor idx dir speed => Sys2Proof.Machine.execDcmotor idx dir speed s
  | .mstop idx => Sys2Proof.Machine.execMstop idx s
  | .mstopall => Sys2Proof.Machine.execMstopall s
  | .stepdeg pair dir model deg => Sys2Proof.Machine.execStepdeg pair dir model deg s
  | .stepturn pair dir model turns => Sys2Proof.Machine.execStepturn pair dir model turns s
  | .lread pin cond => Sys2Proof.Machine.execLread pin cond s
  | .lsens value => Sys2Proof.Machine.execLsens value s
  | .lwatch pin cond => Sys2Proof.Machine.execLwatch pin cond s
  | .sclr mask => Sys2Proof.Machine.execSclr mask s
  | .reservedF rest => Sys2Proof.Machine.execReservedF rest s

end Sys2Proof.Machine
end

