-- ==== Sys2Proof/Machine/HostPort.lean ====
section
/-! DEFINITION. The host port: the register map (R33 to R36), the command latch (R35), and the acceptance of a command
word (R97 to R99). -/

namespace Sys2Proof.Machine

open Sys2Proof.Config

/-- The register offset of an admitted host access: a naturally aligned 32-bit access to one of the 64 bytes from
`P_HOST_BASE` on (R33, R36, R69). Log entry 12. -/
def hostOffset (p : Params) (address size : Nat) : Option Nat :=
  if size = 4 ∧ p.hostBase ≤ address ∧ (address - p.hostBase) % 4 = 0 ∧ address - p.hostBase < 0x40 then
    some (address - p.hostBase)
  else none

/-- `issue(w)` (R99): OVERRUN before decoding, then ILLEGAL (R98), else the command's rule. -/
def issue (w : Command) (s : State) : Host.Outcome State Fault Refusal :=
  if s.busy then .next (setFlag .overrun s)
  else
    match decode w with
    | .error _ => .next (setFlag .illegal s)
    | .ok i => exec i s

/-- A write to the register at an offset (R33, R35, R36): CMD_LO latches, CMD_HI issues, every other offset ignores
the write. -/
def writeRegister (offset : Nat) (v : Word32) (s : State) : Host.Outcome State Fault Refusal :=
  match offset with
  | 0x00 => .next { s with cmdLo := v }
  | 0x04 => issue (v ++ s.cmdLo) s
  | _ => .next s

/-- A host write at an address (R33, R69). -/
def hostWrite (address size : Nat) (v : Word32) (s : State) : Host.Outcome State Fault Refusal :=
  match hostOffset s.cfg address size with
  | some offset => writeRegister offset v s
  | none => .refused .hostAccess

/-- MON_COUNT (R30, R33); beyond 32 bits the spec states no value (log entry 14). -/
def monCount (s : State) : Word32 :=
  if s.mon.length < 4294967296 then BitVec.ofNat 32 s.mon.length else monCountOver s.mon.length

/-- What a register reads as (R33, R36): write-only registers and reserved offsets read 0. -/
def hostRegister (offset : Nat) (s : State) : Word32 :=
  match offset with
  | 0x08 => statusWord s
  | 0x0C => s.freq
  | 0x10 => s.thresh
  | 0x14 => s.lastLevel
  | 0x18 => s.holdMs.extractLsb' 0 32
  | 0x1C => s.holdMs.extractLsb' 32 32
  | 0x20 => monCount s
  | _ => 0

/-- A host read at an address (R36): the answer goes to the host; nothing else changes. -/
def hostRead (address size : Nat) (s : State) : Host.Outcome State Fault Refusal :=
  match hostOffset s.cfg address size with
  | some offset => .next { s with readData := hostRegister offset s }
  | none => .refused .hostAccess

end Sys2Proof.Machine
end

