-- ==== Sys2Proof/Machine/Agents.lean ====
section
/-! DEFINITION. The atomic steps of the agents and the environment (R71, R75, R262): the host's accesses, the timer's
answers (R65), the sequencer's continuation (R28), the monitors' ticks (R211, R216) and power-on reset (R280 to
R282). -/

namespace Sys2Proof.Machine

/-- The timer answers the sequencer's suspension (R65): the sequencer then has a step. -/
def timerSeq (s : State) : Host.Outcome State Fault Refusal :=
  match s.seq with
  | .running k false => .next { s with seq := .running k true }
  | _ => .fault .noStep

/-- The sequencer continues after its suspension, to the command's end (BUSY <- 0, SEQ <- IDLE) or to the next
suspension point (R28, R71, R99). -/
def resume (s : State) : Host.Outcome State Fault Refusal :=
  match s.seq with
  | .running k true => .next (runOps k { s with seq := .idle })
  | _ => .fault .noStep

/-- The timer answers the suspension of monitor i: its phase becomes SAMPLE again (R31). -/
def timerMon (i : Nat) (s : State) : Host.Outcome State Fault Refusal :=
  match s.mon[i]? with
  | some ⟨pin, cond, .sleeping⟩ => .next { s with mon := s.mon.set i ⟨pin, cond, .sample⟩ }
  | _ => .fault .noStep

/-- Monitor i ticks, if it is in phase SAMPLE (R211). -/
def tick (i : Nat) (s : State) : Host.Outcome State Fault Refusal :=
  match s.mon[i]? with
  | some ⟨pin, cond, .sample⟩ => .next (monitorTick i ⟨pin, cond, .sample⟩ s)
  | _ => .fault .noStep

/-- Power-on reset (R280, R282): every field of S as R38 says; the expander is not touched (R281), and what stands
outside S stays. Log entry 17. -/
def powerOn (s : State) : State :=
  { State.resetWith s.cfg with
    expander := s.expander
    trace := s.trace
    moves := s.moves
    levels := s.levels
    draws := s.draws
    turn := s.turn
    readData := s.readData }

/-- One move. -/
def doMove (m : Move) (s : State) : Host.Outcome State Fault Refusal :=
  match m with
  | .hostWrite address size v => hostWrite address size v s
  | .hostRead address size => hostRead address size s
  | .timerSeq => timerSeq s
  | .sequencer => resume s
  | .timerMon i => timerMon i s
  | .tick i => tick i s
  | .powerOn => .next (powerOn s)

/-- The enabled step of an agent, the timer's answer to it counted as its own: agent 0 is the sequencer, agent i + 1
monitor i (R75, R262). -/
def agentMove (s : State) (agent : Nat) : Option Move :=
  match agent with
  | 0 =>
    match s.seq with
    | .idle => none
    | .running _ false => some .timerSeq
    | .running _ true => some .sequencer
  | i + 1 =>
    match s.mon[i]? with
    | none => none
    | some ⟨_, _, .sleeping⟩ => some (.timerMon i)
    | some ⟨_, _, .sample⟩ => some (.tick i)

/-- The number of agents: the sequencer and the monitors (R262). -/
def agentCount (s : State) : Nat := s.mon.length + 1

/-- The move a step takes: the next listed one. With none listed the agents take turns, one without an enabled step
passing to the next: every suspension returns and the monitors never stop (R216, R284, R296). None is left only where
no command runs and nothing is registered. Log entry 1. -/
def nextMove (s : State) : Option Move :=
  match s.moves with
  | m :: _ => some m
  | [] => (List.range (agentCount s)).findSome? fun j => agentMove s ((s.turn + j) % agentCount s)

/-- The state with its next move taken from the list, and the turn passed on. -/
def takeMove (s : State) : State := { s with moves := s.moves.tail, turn := s.turn + 1 }

/-- One step: the next move, in a configuration the spec admits (R75, R183). With none the machine waits for the host
(R280). Log entries 1, 3, 11. -/
def stepMove (s : State) : Host.Outcome State Fault Refusal :=
  if Config.coilMapOk s.cfg.coilMap then
    match nextMove s with
    | none => .next s
    | some m => doMove m (takeMove s)
  else .refused .badConfig

/-- The state in which the host's next access issues the command word `w` to an idle block (log entry 3). -/
def placeCommand (w : Command) (s : State) : State :=
  { s with
    seq := .idle
    cmdLo := w.extractLsb' 0 32
    moves := .hostWrite (s.cfg.hostBase + 0x04) 4 (w.extractLsb' 32 32) :: s.moves }

end Sys2Proof.Machine
end

