-- ==== Sys2Proof/Machine/Step.lean ====
section
/-! DEFINITION. One step of the machine, and the placement of a command word where the next step issues it. -/

namespace Sys2Proof.Machine

/-- One atomic step (R74, R75). -/
def step (s : State) : Host.Outcome State Fault Refusal := stepMove s

/-- The word `w` as the very next command (fixed name). Log entry 3. -/
def State.withFetchWord (s : State) (nbits w : Nat) : State := placeCommand (BitVec.ofNat 64 (w % 2 ^ nbits)) s

end Sys2Proof.Machine
end

