-- ==== Sys2Proof/Machine/Asm.lean ====
section
/-! DEFINITION. The assembler syntax (R104) and the pseudo-instructions (R105), over lists of characters. A line is a
mnemonic, a space and operands separated by commas; an operand outside its field's range is an error, never
truncated. Lexical details the rules leave open: log entry 23. -/

namespace Sys2Proof

/-- Why a line does not assemble. -/
inductive AsmError where
  | unknownMnemonic
  /-- the number or the form of the operands; a pin outside 0..255, a mask wider than 32 bits and a negative tick
  among them -/
  | badOperands
  /-- an operand outside its field's range -/
  | outOfRange
  deriving DecidableEq, Repr

/-- The pseudo-instructions (R105). -/
inductive Pseudo where
  | setduty (ch : Int) (off : Nat)
  | stoppair (p : Int)
  | clrflags
  | alloff
  deriving DecidableEq, Repr

/-- The commands a pseudo-instruction stands for (R105). -/
def expandPseudo (p : Pseudo) : List Instr :=
  match p with
  | .setduty ch off => [.setch ch 0 off]
  | .stoppair p => [.mstop (2 * p - 1), .mstop (2 * p)]
  | .clrflags => [.sclr 0x3F00]
  | .alloff =>
    [.choff 0, .choff 1, .choff 2, .choff 3, .choff 4, .choff 5, .choff 6, .choff 7,
      .choff 8, .choff 9, .choff 10, .choff 11, .choff 12, .choff 13, .choff 14, .choff 15]

/-- The pieces of a text between separators. -/
def splitChars (sep : Char) (cs : List Char) : List (List Char) :=
  match cs with
  | [] => [[]]
  | c :: rest =>
    if c = sep then [] :: splitChars sep rest
    else
      match splitChars sep rest with
      | [] => [[c]]
      | piece :: more => (c :: piece) :: more

/-- The text without the spaces around it. -/
def trimChars (cs : List Char) : List Char :=
  ((cs.dropWhile (· == ' ')).reverse.dropWhile (· == ' ')).reverse

/-- The value of a digit in capitals, up to hexadecimal. -/
def digitValue (c : Char) : Option Nat :=
  if '0' ≤ c ∧ c ≤ '9' then some (c.toNat - 48) else if 'A' ≤ c ∧ c ≤ 'F' then some (c.toNat - 55) else none

/-- The value of a non-empty run of digits of a base. -/
def digitsValue (base acc : Nat) (cs : List Char) : Option Nat :=
  match cs with
  | [] => some acc
  | c :: rest =>
    match digitValue c with
    | none => none
    | some d => if d < base then digitsValue base (base * acc + d) rest else none

/-- An unsigned literal, decimal or hex (R104). -/
def unsignedLiteral (cs : List Char) : Option Nat :=
  match cs with
  | [] => none
  | '0' :: 'X' :: c :: rest => digitsValue 16 0 (c :: rest)
  | c :: rest => digitsValue 10 0 (c :: rest)

/-- An integer literal (R104). -/
def intLiteral (cs : List Char) : Option Int :=
  match cs with
  | '-' :: rest => (unsignedLiteral rest).map (fun n => -(n : Int))
  | cs => (unsignedLiteral cs).map (fun n => (n : Int))

/-- A number that cannot be negative. -/
def natLiteral (cs : List Char) : Option Nat :=
  (intLiteral cs).bind (fun v => if 0 ≤ v then some v.toNat else none)

/-- A pin, 0..255 (R104). -/
def pinLiteral (cs : List Char) : Option Pin :=
  (natLiteral cs).bind (fun n => if n < 256 then some (BitVec.ofNat 8 n) else none)

/-- A 32-bit mask: any value that 32 bits hold, signed or unsigned. -/
def maskLiteral (cs : List Char) : Option (BitVec 32) :=
  (intLiteral cs).bind (fun v => if -2147483648 ≤ v ∧ v ≤ 4294967295 then some (BitVec.ofInt 32 v) else none)

/-- `FWD` or `REV` (R104). -/
def dirKeyword (cs : List Char) : Option Dir :=
  if cs = ['F', 'W', 'D'] then some .fwd else if cs = ['R', 'E', 'V'] then some .rev else none

/-- `A` or `B` (R104). -/
def modelKeyword (cs : List Char) : Option Model :=
  if cs = ['A'] then some .a else if cs = ['B'] then some .b else none

/-- `INT` or `NOTINT` (R104). -/
def condKeyword (cs : List Char) : Option Cond :=
  if cs = ['I', 'N', 'T'] then some .int
  else if cs = ['N', 'O', 'T', 'I', 'N', 'T'] then some .notInt
  else none

/-- The commands of a mnemonic and its operands, in the operand order of R104. -/
def parseOperands (mnemonic : List Char) (ops : List (List Char)) : Option (List Instr) :=
  match mnemonic, ops with
  | ['N', 'O', 'P'], [] => some [.nop]
  | ['I', 'N', 'I', 'T'], [] => some [.init]
  | ['M', 'S', 'T', 'O', 'P', 'A', 'L', 'L'], [] => some [.mstopall]
  | ['C', 'L', 'R', 'F', 'L', 'A', 'G', 'S'], [] => some (expandPseudo .clrflags)
  | ['A', 'L', 'L', 'O', 'F', 'F'], [] => some (expandPseudo .alloff)
  | ['S', 'E', 'T', 'F', 'R', 'E', 'Q'], [v] => do return [.setfreq (← intLiteral v)]
  | ['L', 'S', 'E', 'N', 'S'], [v] => do return [.lsens (← intLiteral v)]
  | ['S', 'C', 'L', 'R'], [v] => do return [.sclr (← maskLiteral v)]
  | ['C', 'H', 'O', 'F', 'F'], [c] => do return [.choff (← intLiteral c)]
  | ['M', 'S', 'T', 'O', 'P'], [i] => do return [.mstop (← intLiteral i)]
  | ['S', 'T', 'O', 'P', 'P', 'A', 'I', 'R'], [p] => do return expandPseudo (.stoppair (← intLiteral p))
  | ['S', 'E', 'R', 'V', 'O'], [i, v] => do return [.servo (← intLiteral i) (← intLiteral v)]
  | ['S', 'E', 'T', 'D', 'U', 'T', 'Y'], [c, v] =>
    do return expandPseudo (.setduty (← intLiteral c) (← natLiteral v))
  | ['S', 'E', 'T', 'C', 'H'], [c, n, f] => do return [.setch (← intLiteral c) (← natLiteral n) (← natLiteral f)]
  | ['D', 'C', 'M', 'O', 'T', 'O', 'R'], [i, d, v] =>
    do return [.dcmotor (← intLiteral i) (← dirKeyword d) (← intLiteral v)]
  | ['S', 'T', 'E', 'P', 'D', 'E', 'G'], [p, d, m, v] =>
    do return [.stepdeg (← intLiteral p) (← dirKeyword d) (← modelKeyword m) (← intLiteral v)]
  | ['S', 'T', 'E', 'P', 'T', 'U', 'R', 'N'], [p, d, m, v] =>
    do return [.stepturn (← intLiteral p) (← dirKeyword d) (← modelKeyword m) (← intLiteral v)]
  | ['L', 'R', 'E', 'A', 'D'], [p, c] => do return [.lread (← pinLiteral p) (← condKeyword c)]
  | ['L', 'W', 'A', 'T', 'C', 'H'], [p, c] => do return [.lwatch (← pinLiteral p) (← condKeyword c)]
  | _, _ => none

/-- The mnemonics and pseudo-instructions of R104 and R105. -/
def asmMnemonics : List (List Char) :=
  [['N', 'O', 'P'], ['I', 'N', 'I', 'T'], ['S', 'E', 'T', 'F', 'R', 'E', 'Q'], ['S', 'E', 'T', 'C', 'H'],
    ['C', 'H', 'O', 'F', 'F'], ['S', 'E', 'R', 'V', 'O'], ['D', 'C', 'M', 'O', 'T', 'O', 'R'],
    ['M', 'S', 'T', 'O', 'P'], ['M', 'S', 'T', 'O', 'P', 'A', 'L', 'L'], ['S', 'T', 'E', 'P', 'D', 'E', 'G'],
    ['S', 'T', 'E', 'P', 'T', 'U', 'R', 'N'], ['L', 'R', 'E', 'A', 'D'], ['L', 'S', 'E', 'N', 'S'],
    ['L', 'W', 'A', 'T', 'C', 'H'], ['S', 'C', 'L', 'R'], ['S', 'E', 'T', 'D', 'U', 'T', 'Y'],
    ['S', 'T', 'O', 'P', 'P', 'A', 'I', 'R'], ['C', 'L', 'R', 'F', 'L', 'A', 'G', 'S'],
    ['A', 'L', 'L', 'O', 'F', 'F']]

/-- The mnemonic and the operands of a line, in capitals: mnemonics and keywords are read in any case (R104). -/
def lineParts (line : List Char) : List Char × List (List Char) :=
  let cs := trimChars (line.map Char.toUpper)
  let rest := trimChars (cs.dropWhile (· != ' '))
  (cs.takeWhile (· != ' '), if rest = [] then [] else (splitChars ',' rest).map trimChars)

/-- The commands a mnemonic and its operands stand for, or why there are none (R104). -/
def parseParts (mnemonic : List Char) (ops : List (List Char)) : Except AsmError (List Instr) :=
  if asmMnemonics.contains mnemonic then
    match parseOperands mnemonic ops with
    | none => .error .badOperands
    | some is => .ok is
  else .error .unknownMnemonic

/-- The commands a line stands for (R104). Ranges are not checked yet. -/
def parseLine (line : List Char) : Except AsmError (List Instr) := parseParts (lineParts line).1 (lineParts line).2

/-- The command words of one line (R104); an operand outside its field is an error. -/
def assembleLine (line : List Char) : Except AsmError (List Command) :=
  match parseLine line with
  | .error e => .error e
  | .ok is => if is.all Instr.wellFormed then .ok (is.map encode) else .error .outOfRange

/-! The text of a command, as R104 writes it. -/

/-- An integer in decimal. -/
def decimalText (v : Int) : List Char :=
  if v < 0 then '-' :: Nat.toDigits 10 v.natAbs else Nat.toDigits 10 v.natAbs

/-- A number in hex. -/
def hexText (n : Nat) : List Char := '0' :: 'x' :: Nat.toDigits 16 n

/-- A direction keyword. -/
def Dir.text (d : Dir) : List Char := match d with | .fwd => ['F', 'W', 'D'] | .rev => ['R', 'E', 'V']

/-- A model keyword. -/
def Model.text (m : Model) : List Char := match m with | .a => ['A'] | .b => ['B']

/-- A condition keyword. -/
def Cond.text (c : Cond) : List Char :=
  match c with
  | .int => ['I', 'N', 'T']
  | .notInt => ['N', 'O', 'T', 'I', 'N', 'T']

/-- Operands separated by commas. -/
def operandsText (ops : List (List Char)) : List Char :=
  match ops with
  | [] => []
  | [o] => o
  | o :: rest => o ++ ',' :: ' ' :: operandsText rest

/-- A mnemonic, a space, and operands separated by commas. -/
def lineText (mnemonic : List Char) (ops : List (List Char)) : List Char :=
  match ops with
  | [] => mnemonic
  | o :: rest => mnemonic ++ ' ' :: operandsText (o :: rest)

/-- The line of a command; the reserved opcode has none (R104). The mask of SCLR is written in hex. -/
def Instr.text (i : Instr) : Option (List Char) :=
  match i with
  | .nop => some (lineText ['N', 'O', 'P'] [])
  | .init => some (lineText ['I', 'N', 'I', 'T'] [])
  | .setfreq hz => some (lineText ['S', 'E', 'T', 'F', 'R', 'E', 'Q'] [decimalText hz])
  | .setch ch on off =>
    some (lineText ['S', 'E', 'T', 'C', 'H'] [decimalText ch, decimalText on, decimalText off])
  | .choff ch => some (lineText ['C', 'H', 'O', 'F', 'F'] [decimalText ch])
  | .servo idx deg => some (lineText ['S', 'E', 'R', 'V', 'O'] [decimalText idx, decimalText deg])
  | .dcmotor idx dir speed =>
    some (lineText ['D', 'C', 'M', 'O', 'T', 'O', 'R'] [decimalText idx, dir.text, decimalText speed])
  | .mstop idx => some (lineText ['M', 'S', 'T', 'O', 'P'] [decimalText idx])
  | .mstopall => some (lineText ['M', 'S', 'T', 'O', 'P', 'A', 'L', 'L'] [])
  | .stepdeg pair dir model deg =>
    some (lineText ['S', 'T', 'E', 'P', 'D', 'E', 'G'] [decimalText pair, dir.text, model.text, decimalText deg])
  | .stepturn pair dir model turns =>
    some
      (lineText ['S', 'T', 'E', 'P', 'T', 'U', 'R', 'N'] [decimalText pair, dir.text, model.text, decimalText turns])
  | .lread pin cond => some (lineText ['L', 'R', 'E', 'A', 'D'] [decimalText pin.toNat, cond.text])
  | .lsens value => some (lineText ['L', 'S', 'E', 'N', 'S'] [decimalText value])
  | .lwatch pin cond => some (lineText ['L', 'W', 'A', 'T', 'C', 'H'] [decimalText pin.toNat, cond.text])
  | .sclr mask => some (lineText ['S', 'C', 'L', 'R'] [hexText mask.toNat])
  | .reservedF _ => none

end Sys2Proof
end

