-- ==== Sys2Proof/Safety.lean ====
section
/-! DEFINITION. What claims count as a safe run: the bus carries only the transactions of R63 and R103, and the
expander's registers are in canonical form and lie where the block may write (R61). -/

namespace Sys2Proof

open Machine Config

/-- A register the block uses: MODE1, PRESCALE, or a channel register 0x06..0x45 (R61). -/
def registerUsed (a : Nat) : Bool := decide (a = 0x00 ∨ a = 0xFE ∨ (0x06 ≤ a ∧ a ≤ 0x45))

/-- The bytes of a bus write are one of the forms of R103: a MODE1 or PRESCALE write of one byte, or a four-byte
burst at a channel's base. -/
def writeForm (bytes : List Byte) : Bool :=
  match bytes with
  | [r, _] => decide (r = 0x00 ∨ r = 0xFE)
  | [r, _, _, _, _] => decide (0x06 ≤ r.toNat ∧ r.toNat ≤ 0x42 ∧ r.toNat % 4 = 2)
  | _ => false

/-- A port event the block may emit: bus transactions of R63 and R103 to device 0x40, the settle wait of 5000 us
(R263); timer requests in milliseconds, analog reads and events carry no constraint here. -/
def eventAllowed (e : PortEvent) : Bool :=
  match e with
  | .busWrite dev bytes => decide (dev = 0x40) && writeForm bytes
  | .busRead dev reg _ => decide (dev = 0x40) && decide (reg = 0x00)
  | .sleepMicros n => decide (n = 5000)
  | .sleepMillis _ | .analogRead _ _ | .raise _ _ => true

/-- The burst of R103 that writes a channel, in numbers: register 6 + 4c, then on and off, low byte first, the high
bytes masked (R67). -/
def channelBurst (mask : Byte) (c on off : Int) : PortEvent :=
  .busWrite 0x40
    [BitVec.ofInt 8 (6 + 4 * c), BitVec.ofInt 8 on, BitVec.ofInt 8 (on / 256) &&& mask, BitVec.ofInt 8 off,
      BitVec.ofInt 8 (off / 256) &&& mask]

/-- The four registers of channel `c` hold the tick pair (on, off) (R62). -/
def channelHolds (m : Mem) (mask : Byte) (c on off : Int) : Prop :=
  memRead m (6 + 4 * c).toNat = some (BitVec.ofInt 8 on) ∧
    memRead m (7 + 4 * c).toNat = some (BitVec.ofInt 8 (on / 256) &&& mask) ∧
    memRead m (8 + 4 * c).toNat = some (BitVec.ofInt 8 off) ∧
    memRead m (9 + 4 * c).toNat = some (BitVec.ofInt 8 (off / 256) &&& mask)

/-- Address `a` is one of the four registers of channel `c` (R62). -/
def ofChannel (c : Int) (a : Nat) : Prop := 6 + 4 * c ≤ a ∧ (a : Int) < 10 + 4 * c

/-- The channels a channel-writing command addresses, by the functions its meaning uses; one outside 0..15 is not
written (R121). -/
def channelsAddressed (i : Instr) : List Int :=
  match i with
  | .setch ch _ _ => [ch]
  | .choff ch => [ch]
  | .servo idx _ => [servoChannel idx]
  | .dcmotor idx _ _ => if motorOk idx then [motorPp idx, motorPn idx] else []
  | .mstop idx => if motorOk idx then [motorPp idx, motorPn idx] else []
  | .mstopall => [7, 6, 5, 4, 3, 2, 1, 0]
  | .stepdeg pair _ _ _ | .stepturn pair _ _ _ =>
    match pairOf pair with
    | none => []
    | some q => (pairChannels q).map Int.ofNat
  | _ => []

/-- The commands that write channels and hold nothing (R130, first row). -/
def writesChannels (i : Instr) : Bool :=
  match i with
  | .setch _ _ _ | .choff _ | .servo _ _ | .dcmotor _ _ _ | .mstop _ | .mstopall => true
  | _ => false

/-- `step` takes the move `m` next, in a configuration the spec admits, and `u` is the state with that move taken:
`s` but for the list of moves and whose turn it is. -/
def scheduled (s : State) (m : Move) (u : State) : Prop :=
  coilMapOk s.cfg.coilMap = true ∧ nextMove s = some m ∧ u = { s with moves := s.moves.tail, turn := s.turn + 1 }

/-- `step` takes a host access of `size` bytes at the register offset `offset` next (R33): a write of `v`. -/
def hostWrites (s : State) (offset size : Nat) (v : Word32) (u : State) : Prop :=
  scheduled s (.hostWrite (s.cfg.hostBase + offset) size v) u

/-- `step` takes a host read of `size` bytes at the register offset `offset` next (R33). -/
def hostReads (s : State) (offset size : Nat) (u : State) : Prop :=
  scheduled s (.hostRead (s.cfg.hostBase + offset) size) u

/-- `n` rounds of the timer answering the sequencer and the sequencer continuing. -/
def answerRounds (n : Nat) : List Move :=
  match n with
  | 0 => []
  | n + 1 => .timerSeq :: .sequencer :: answerRounds n

/-- A command end (R284): no command runs and the host has no further command to issue. -/
def commandEnd (s : State) : Prop := s.seq = .idle ∧ ∀ v, .hostWrite (s.cfg.hostBase + 0x04) 4 v ∉ s.moves

/-- Every recorded event is one the block may emit. -/
def busDisciplined (s : State) : Prop := ∀ e ∈ s.trace, eventAllowed e = true

/-- The expander's registers: canonical form, and only registers the block uses are known (R61). -/
def expanderDisciplined (s : State) : Prop := memWf s.expander ∧ ∀ c ∈ s.expander, registerUsed c.1 = true

end Sys2Proof
end

