-- ==== Sys2Proof/Certificates/Slice0/Obligations.lean ====
section
/-! DEFINITION. The statements for the provers. Constants are written as the numbers of the spec, so that a wrong
constant of the model would refute a statement. -/

open Sys2Proof Sys2Proof.Machine Sys2Proof.Config

/-! ## Reset -/

/-- R38: the reset value of every field of S, for every configuration; the machine's reset state is that of the
default configuration, in which no previous light level is set; reset does not touch the expander. -/
def Obligations.ResetTableOfValues : Prop :=
  (∀ p : Params,
    (State.resetWith p).init = false ∧ (State.resetWith p).freq = 0 ∧ (State.resetWith p).thresh = 20 ∧
    (p.lightPrevInit = none → (State.resetWith p).lastLevel = 0 ∧ (State.resetWith p).lastValid = false) ∧
    (∀ v, p.lightPrevInit = some v → (State.resetWith p).lastLevel = v ∧ (State.resetWith p).lastValid = true) ∧
    (State.resetWith p).result = false ∧ (∀ f, stickyGet f (State.resetWith p).sticky = false) ∧
    (State.resetWith p).busy = false ∧ (State.resetWith p).seq = .idle ∧ (State.resetWith p).holdMs = 0 ∧
    (State.resetWith p).mon = [] ∧ hostRegister 0x20 (State.resetWith p) = 0 ∧ (State.resetWith p).cmdLo = 0 ∧
    (State.resetWith p).cfg.coilTable = p.coilTable ∧ (State.resetWith p).cfg.coilMap = p.coilMap) ∧
  (State.reset = State.resetWith defaultParams ∧ defaultParams.lightPrevInit = none) ∧
  (∀ s, (powerOn s).expander = s.expander)

/-- R280, R281, R282: a power-on reset step ends the running command and the monitors, puts every field of S at its
reset value, keeps the expander; that the history, the listed inputs, whose turn it is and the host's read data stay is
the model's choice (log entry 17). -/
def Obligations.PowerOnResetsTheBlockOnly : Prop :=
  ∀ s u, scheduled s .powerOn u →
    step s = .next { State.resetWith s.cfg with
      expander := s.expander, trace := s.trace, moves := u.moves, levels := s.levels, draws := s.draws,
      turn := u.turn, readData := s.readData }

/-! ## Host port and acceptance -/

/-- R34: every bit of STATUS; a host write to STATUS is ignored; among the commands only SCLR clears a sticky flag
(StickyFlagsStayUntilCleared says which steps of the whole machine do). -/
def Obligations.StatusBitsAreTheTable : Prop :=
  (∀ s, (statusWord s).getLsbD 0 = s.busy ∧ (statusWord s).getLsbD 1 = s.init ∧
    (statusWord s).getLsbD 2 = s.result ∧ (statusWord s).getLsbD 3 = s.lastValid ∧
    (∀ b, 4 ≤ b → b ≤ 7 → (statusWord s).getLsbD b = false) ∧
    (statusWord s).getLsbD 8 = s.sticky.dropped ∧ (statusWord s).getLsbD 9 = s.sticky.clamped ∧
    (statusWord s).getLsbD 10 = s.sticky.masked ∧ (statusWord s).getLsbD 11 = s.sticky.noopZero ∧
    (statusWord s).getLsbD 12 = s.sticky.illegal ∧ (statusWord s).getLsbD 13 = s.sticky.overrun ∧
    (∀ b, 14 ≤ b → b ≤ 31 → (statusWord s).getLsbD b = false)) ∧
  (∀ v s, hostWrite (s.cfg.hostBase + 0x08) 4 v s = .next s) ∧
  (∀ i s t f, exec i s = .next t → stickyGet f s.sticky = true → stickyGet f t.sticky = false →
    ∃ mask, i = .sclr mask)

/-- R33, R36: what each admitted host read answers, at its offset from `P_HOST_BASE`, and that nothing else changes. A MON of 2^32 entries or more is
left out at 0x20 (log entry 14). -/
def Obligations.HostReadsAnswerTheMap : Prop :=
  ∀ s u off, hostReads s off 4 u → off % 4 = 0 → off < 0x40 →
    (off = 0x20 → s.mon.length < 4294967296) →
    step s = .next { u with
      readData :=
        if off = 0x08 then statusWord s else if off = 0x0C then s.freq else if off = 0x10 then s.thresh
        else if off = 0x14 then s.lastLevel
        else if off = 0x18 then BitVec.ofNat 32 s.holdMs.toNat
        else if off = 0x1C then BitVec.ofNat 32 (s.holdMs.toNat / 4294967296)
        else if off = 0x20 then BitVec.ofNat 32 s.mon.length else 0 }

/-- R35, R36: a write to CMD_LO stores the latch and has no other effect; a write to CMD_HI issues that value above the
latch, which keeps its value; a write to a read-only or reserved offset is ignored. -/
def Obligations.HostWritesLatchOrAreIgnored : Prop :=
  (∀ s u v, hostWrites s 0x00 4 v u → step s = .next { u with cmdLo := v }) ∧
  (∀ s u v, hostWrites s 0x04 4 v u →
    step s = issue (v ++ s.cmdLo) u ∧ ∀ t, step s = .next t → t.cmdLo = s.cmdLo) ∧
  (∀ s u off v, hostWrites s off 4 v u → off % 4 = 0 → 0x08 ≤ off → off < 0x40 → step s = .next u)

/-- R69 (host side): an access that is narrow or wide, or whose address is not an aligned offset below 0x40 from
`P_HOST_BASE`, is given no step; the refusal's name and that the alignment is the offset's are the model's (log entry
12). -/
def Obligations.OtherHostAccessesAreRefused : Prop :=
  ∀ s u address size v,
    (size ≠ 4 ∨ ∀ off, address = s.cfg.hostBase + off → off % 4 ≠ 0 ∨ 0x40 ≤ off) →
    (scheduled s (.hostWrite address size v) u → step s = .refused .hostAccess) ∧
    (scheduled s (.hostRead address size) u → step s = .refused .hostAccess)

/-- R35, R99: when the block is idle and the word issued by a CMD_HI write decodes to a command, the step is that
command's meaning on the state with the move taken (log entry 1); and a placed word runs so (log entry 3). -/
def Obligations.StepRunsTheDecodedCommand : Prop :=
  (∀ s u v i, hostWrites s 0x04 4 v u → s.seq = .idle → decode (v ++ s.cmdLo) = .ok i → step s = exec i u) ∧
  (∀ (s : State) (w : Command) i, coilMapOk s.cfg.coilMap = true → decode w = .ok i →
    step (s.withFetchWord 64 w.toNat) = exec i { s with seq := .idle, cmdLo := w.extractLsb' 0 32, turn := s.turn + 1 })

/-- R99: a busy block discards every issued word, decodable or not, with OVERRUN and changes nothing else; an idle
one sets ILLEGAL for an illegal word and nothing else, and runs the rule of a legal one to its end (IDLE) or to a
suspension point. -/
def Obligations.IssueFollowsTheAcceptanceRule : Prop :=
  ∀ s u v, hostWrites s 0x04 4 v u →
    (s.busy = true → step s = .next { u with sticky := { s.sticky with overrun := true } }) ∧
    (s.busy = false →
      ((∃ e, decode (v ++ s.cmdLo) = .error e) ∨ opField (v ++ s.cmdLo) = 0xF →
        step s = .next { u with sticky := { s.sticky with illegal := true } }) ∧
      ∀ i, decode (v ++ s.cmdLo) = .ok i →
        step s = exec i u ∧
          ∃ t, step s = .next t ∧ (t.seq = .idle ∨ ∃ k, t.seq = .running k false))

/-- R98: an idle block refuses a word with opcode 0xF or with a must-be-zero bit set: ILLEGAL and nothing else, BUSY
stays 0. -/
def Obligations.IllegalWordOnlySetsIllegal : Prop :=
  ∀ s u v, hostWrites s 0x04 4 v u → s.busy = false →
    (opField (v ++ s.cmdLo) = 0xF ∨
      (v ++ s.cmdLo) &&& (opRow (opField (v ++ s.cmdLo))).mask ≠ (opRow (opField (v ++ s.cmdLo))).pattern) →
    step s = .next { u with sticky := { s.sticky with illegal := true } }

/-! ## Encoding -/

/-- R92, R96, R97: decoding an encoded well-formed command gives it back, every operand at every value its field
admits. -/
def Obligations.DecodeOfEncodeIsTheCommand : Prop :=
  ∀ i : Instr, i.WellFormed → decode (encode i) = .ok i

/-- R92, R96, R97: a word that decodes is the encoding of what it decodes to, whose operands fit: no bit of a legal
word is dropped. -/
def Obligations.EncodeOfDecodeIsTheWord : Prop :=
  ∀ w i, decode w = .ok i → encode i = w ∧ i.WellFormed

/-- R91, R96: the word of an opcode and its fields is the sum of the shifted fields. -/
def Obligations.EncodedFieldsStandWhereTheTableSays : Prop :=
  ∀ (op : BitVec 4) (idx : BitVec 8) (dir model cond : Bool) (val : BitVec 32),
    (fieldsWord op idx dir model cond val).toNat =
      op.toNat * 2 ^ 60 + idx.toNat * 2 ^ 52 + dir.toNat * 2 ^ 51 + model.toNat * 2 ^ 50 + cond.toNat * 2 ^ 49 +
        val.toNat

/-- R93, R95: a word of opcode 0..14 is accepted exactly when RSV and every field its form does not use are zero. -/
def Obligations.AcceptedExactlyWhenUnusedFieldsAreZero : Prop :=
  ∀ w, opField w ≠ 0xF →
    ((∃ i, decode w = .ok i) ↔
      w.extractLsb' 32 17 = 0 ∧
      (opField w ∉ ([0x3, 0x4, 0x5, 0x6, 0x7, 0x9, 0xA, 0xB, 0xD] : List (BitVec 4)) → w.extractLsb' 52 8 = 0) ∧
      (opField w ∉ ([0x6, 0x9, 0xA] : List (BitVec 4)) → w.getLsbD 51 = false) ∧
      (opField w ∉ ([0x9, 0xA] : List (BitVec 4)) → w.getLsbD 50 = false) ∧
      (opField w ∉ ([0xB, 0xD] : List (BitVec 4)) → w.getLsbD 49 = false) ∧
      (opField w ∈ ([0x0, 0x1, 0x4, 0x7, 0x8, 0xB, 0xD] : List (BitVec 4)) → w.extractLsb' 0 32 = 0))

/-- Section 2 of 95_test_vectors.md (V-E-1 to V-E-26), R96: words written out from the encoding. -/
def Obligations.WrittenOutWordsDecode : Prop :=
  decode 0x2000000000000064 = .ok (.setfreq 100) ∧ decode 0x303000000BB80064 = .ok (.setch 3 100 3000) ∧
  decode 0x4FF0000000000000 = .ok (.choff (-1)) ∧ decode 0x501000000000005A = .ok (.servo 1 90) ∧
  decode 0x6048000000000064 = .ok (.dcmotor 4 .rev 100) ∧
  decode 0x90280000FFFFFFA6 = .ok (.stepdeg 2 .rev .a (-90)) ∧
  decode 0xA014000000000001 = .ok (.stepturn 1 .fwd .b 1) ∧ decode 0xB032000000000000 = .ok (.lread 3 .notInt) ∧
  decode 0xDC80000000000000 = .ok (.lwatch 200 .int) ∧ decode 0xE000000000003F00 = .ok (.sclr 0x3F00) ∧
  decode 0x0000000100000000 = .error (.mustBeZero "NOP") ∧
  decode 0x5008000000000000 = .error (.mustBeZero "SERVO")

/-- R104, R105: an assembled line is the encodings of the commands it stands for, each of which fits its fields and
decodes back; a command that does not fit is an error, never truncated, and so is a pin, a tick or a mask beyond its
field; every command is read back from its text, operands at every value, hex among them; each pseudo-instruction
stands for its expansion; letters may have any case. How a command's text is spaced is the model's (log entry 23). -/
def Obligations.AssembledWordsAreLegalCommands : Prop :=
  (∀ line ws, assembleLine line = .ok ws →
    ∃ is, parseLine line = .ok is ∧ ws = is.map encode ∧ ∀ i ∈ is, i.WellFormed ∧ decode (encode i) = .ok i) ∧
  (∀ line is i, parseLine line = .ok is → i ∈ is → ¬i.WellFormed → ∃ e, assembleLine line = .error e) ∧
  (∀ i line, i.text = some line → parseLine line = .ok [i]) ∧
  (∀ n : Nat, parseLine (lineText "SETFREQ".toList [hexText n]) = .ok [.setfreq n]) ∧
  (∀ (v : Int) (c : Cond), v < 0 ∨ 255 < v →
    (∃ e, assembleLine (lineText "LREAD".toList [decimalText v, c.text]) = .error e) ∧
    ∃ e, assembleLine (lineText "LWATCH".toList [decimalText v, c.text]) = .error e) ∧
  (∀ ch on off : Int, on < 0 ∨ off < 0 →
    (∃ e, assembleLine (lineText "SETCH".toList [decimalText ch, decimalText on, decimalText off]) = .error e) ∧
    (off < 0 → ∃ e, assembleLine (lineText "SETDUTY".toList [decimalText ch, decimalText off]) = .error e)) ∧
  (∀ v : Int, v < -2147483648 ∨ 4294967295 < v →
    ∃ e, assembleLine (lineText "SCLR".toList [decimalText v]) = .error e) ∧
  (∀ (ch : Int) (off : Nat),
    parseLine (lineText "SETDUTY".toList [decimalText ch, decimalText off]) = .ok [.setch ch 0 off]) ∧
  (∀ p : Int,
    parseLine (lineText "STOPPAIR".toList [decimalText p]) = .ok [.mstop (2 * p - 1), .mstop (2 * p)]) ∧
  parseLine "CLRFLAGS".toList = .ok [.sclr 0x3F00] ∧
  parseLine "ALLOFF".toList = .ok ((List.range 16).map fun c => .choff c) ∧
  (∀ l l' : List Char, l.map Char.toUpper = l'.map Char.toUpper → assembleLine l = assembleLine l')

/-! ## PWM channel driver -/

/-- R67: the two bytes of any tick value, and that they rebuild a value in [0, 4095] under every mask that keeps
bits 11:8. -/
def Obligations.TickBytesAreLittleEndian : Prop :=
  (∀ v mask, tickLo v = BitVec.ofInt 8 v ∧ tickHi mask v = BitVec.ofInt 8 (v / 256) &&& mask) ∧
  (∀ v mask, 0 ≤ v → v ≤ 4095 → mask &&& 0x0F = 0x0F →
    ((tickLo v).toNat : Int) + 256 * ((tickHi mask v).toNat : Int) = v)

/-- R121: `setChannel` drops a channel outside 0..15 and else emits its one burst, with MASKED when a tick lies
outside [0, 4095]. -/
def Obligations.SetChannelDropsOrWritesOneBurst : Prop :=
  ∀ c on off s,
    (c < 0 ∨ 15 < c → setChannel c on off s = { s with sticky := { s.sticky with dropped := true } }) ∧
    (0 ≤ c → c ≤ 15 → ∃ m,
      setChannel c on off s = { s with
        sticky := if 0 ≤ on ∧ on ≤ 4095 ∧ 0 ≤ off ∧ off ≤ 4095 then s.sticky else { s.sticky with masked := true }
        trace := s.trace ++ [channelBurst s.cfg.tickHighMask c on off]
        expander := m } ∧
      channelHolds m s.cfg.tickHighMask c on off ∧
      ∀ a, ¬ofChannel c a → memRead m a = memRead s.expander a)

/-- R128: SETCH on an initialised block completes with `setChannel` of its operands. -/
def Obligations.SetchCompletes : Prop :=
  ∀ s ch on off, s.init = true → exec (.setch ch on off) s = .next (setChannel ch on off s)

/-- R129: CHOFF on an initialised block completes with `setChannel(ch, 0, 0)`. -/
def Obligations.ChoffCompletes : Prop :=
  ∀ s ch, s.init = true → exec (.choff ch) s = .next (setChannel ch 0 0 s)

/-- R151: SERVO on an initialised block writes (0, ticks) to channel idx + 7, the ticks by the formula. -/
def Obligations.ServoCompletes : Prop :=
  ∀ s idx deg, s.init = true →
    exec (.servo idx deg) s =
      .next (setChannel (idx + 7) 0 (Int.tdiv ((Int.tdiv (deg * 1800) 180 + 600) * 4096) 20000) s)

/-- R151 (flags), R158: when the ticks leave [0, 4095]; the range and the order of the ticks over 0..180 degrees. -/
def Obligations.ServoTicksRangeAndOrder : Prop :=
  (∀ deg, ¬(0 ≤ servoTicks deg ∧ servoTicks deg ≤ 4095) ↔ deg ≤ -61 ∨ 1940 ≤ deg) ∧
  (∀ deg, 0 ≤ deg → deg ≤ 180 → 122 ≤ servoTicks deg ∧ servoTicks deg ≤ 491) ∧
  (servoTicks 0 = 122 ∧ servoTicks 180 = 491) ∧
  (∀ d e, 0 ≤ d → d ≤ e → e ≤ 180 → servoTicks d ≤ servoTicks e) ∧
  (∀ deg, -60 ≤ deg → deg ≤ 1939 → 0 ≤ servoTicks deg ∧ servoTicks deg ≤ 4093)

/-- R124: the prescale value is the nearest integer to 25000000/4096/hz less one, no hz makes a tie, and it fits the
register exactly for hz in 24..12207. -/
def Obligations.PrescaleIsNearestAndFits : Prop :=
  ∀ hz, 1 ≤ hz →
    (2 * 25000000 < (2 * (prescale hz + 1) + 1) * (4096 * hz) ∧
      (2 * (prescale hz + 1) - 1) * (4096 * hz) < 2 * 25000000) ∧
    (0 ≤ prescale hz ∧ prescale hz ≤ 255 ↔ 24 ≤ hz ∧ hz ≤ 12207)

/-- R125, R126: SETFREQ with hz ≤ 0 only sets DROPPED; with hz ≥ 1 its first step reads MODE1, writes sleep,
prescale and restore, and suspends for 5000 us with BUSY = 1, INIT and FREQ as before. -/
def Obligations.SetfreqRunsToTheSettleWait : Prop :=
  ∀ s hz,
    (hz ≤ 0 → exec (.setfreq hz) s = .next { s with sticky := { s.sticky with dropped := true } }) ∧
    (1 ≤ hz → ∃ old m, exec (.setfreq hz) s = .next { s with
        sticky :=
          if 0 ≤ prescale hz ∧ prescale hz ≤ 255 then s.sticky else { s.sticky with masked := true }
        seq := .running [.settled old hz] false
        draws := s.draws + 1
        expander := m
        trace := s.trace ++
          [.busRead 0x40 0x00 old,
            .busWrite 0x40 [0x00, (old &&& s.cfg.sleepKeep) ||| s.cfg.sleepSet],
            .busWrite 0x40 [0xFE, BitVec.ofInt 8 (prescale hz)],
            .busWrite 0x40 [0x00, old],
            .sleepMicros 5000] } ∧
      memRead m 0x00 = some old ∧ memRead m 0xFE = some (BitVec.ofInt 8 (prescale hz)) ∧
      ∀ a, a ≠ 0x00 → a ≠ 0xFE → memRead m a = memRead s.expander a)

/-- R125 (after the settle wait): the sequencer's next step writes MODE1 with the wake bits, sets FREQ, and goes on
with what is left of the command; for a SETFREQ nothing is left and the block is idle. -/
def Obligations.SettleWaitEndsWithTheWakeWrite : Prop :=
  ∀ s u old hz rest, scheduled s .sequencer u → s.seq = .running (.settled old hz :: rest) true →
    ∃ w, step s = .next (runOps rest w) ∧
      w = { u with
        seq := .idle, freq := BitVec.ofInt 32 hz, expander := w.expander
        trace := s.trace ++ [.busWrite 0x40 [0x00, old ||| s.cfg.wakeSet]] } ∧
      memRead w.expander 0x00 = some (old ||| s.cfg.wakeSet) ∧
      (∀ a, a ≠ 0x00 → memRead w.expander a = memRead s.expander a) ∧
      (rest = [] → step s = .next w)

/-- R122, R123, R127, R130, R297: INIT and every channel-writing command on an uninitialised block first emits the
initialisation sequence for 50 Hz and suspends, with INIT still 0 and no flag, FREQ or channel register changed; what
is left after the settle wait is INIT <- 1 and then what the command does on an initialised block. -/
def Obligations.LazyInitialisationComesFirst : Prop :=
  ∀ s i, s.init = false → i = .init ∨ writesChannels i = true →
    ∃ old rest m, exec i s = .next { s with
        seq := .running (.settled old 50 :: .setInit :: rest) false
        draws := s.draws + 1
        expander := m
        trace := s.trace ++
          [.busWrite 0x40 [0x00, s.cfg.initMode1],
            .busRead 0x40 0x00 old,
            .busWrite 0x40 [0x00, (old &&& s.cfg.sleepKeep) ||| s.cfg.sleepSet],
            .busWrite 0x40 [0xFE, 0x79],
            .busWrite 0x40 [0x00, old],
            .sleepMicros 5000] } ∧
      (∀ a, a ≠ 0x00 → a ≠ 0xFE → memRead m a = memRead s.expander a) ∧
      (∀ u, u.init = true → exec i u = .next (runOps rest u))

/-- R123, R127: the sequencer's step after the settle wait of an INIT sets INIT = 1 and FREQ = 50 and leaves the block
idle; a further INIT is a no-op. -/
def Obligations.InitCompletesOnceAndIsIdempotent : Prop :=
  (∀ s u old, scheduled s .sequencer u → s.seq = .running [.settled old 50, .setInit] true →
    ∃ t, step s = .next t ∧ t.init = true ∧ t.freq = 50 ∧ t.seq = .idle ∧ exec .init t = .next t) ∧
  (∀ s, s.init = true → exec .init s = .next s)

/-! ## Actuator mapper -/

/-- R152 to R154: DCMOTOR on an initialised block: an index outside 1..4 is dropped; else the clamped duty goes to
the forward or the reverse channel first and the other is zeroed second, CLAMPED set exactly when the raw value left
[-4095, 4095]. -/
def Obligations.DcmotorCompletes : Prop :=
  ∀ s idx dir speed, s.init = true →
    (idx < 1 ∨ 4 < idx →
      exec (.dcmotor idx dir speed) s = .next { s with sticky := { s.sticky with dropped := true } }) ∧
    (1 ≤ idx → idx ≤ 4 →
      ∀ raw d u, raw = speed * 41 * (if dir = .fwd then 1 else -1) → d = min 4095 (max (-4095) raw) →
        u = (if raw < -4095 ∨ 4095 < raw then { s with sticky := { s.sticky with clamped := true } } else s) →
        exec (.dcmotor idx dir speed) s = .next
          (if 0 ≤ d then setChannel ((4 - idx) * 2) 0 0 (setChannel ((4 - idx) * 2 + 1) 0 d u)
          else setChannel ((4 - idx) * 2 + 1) 0 0 (setChannel ((4 - idx) * 2) 0 (-d) u)))

/-- R153, R159: after DCMOTOR on an initialised block the driven channel of the motor holds (0, |duty|), |duty| ≤
4095, the other (0, 0); FWD with a speed in 0..100 drives pp, REV with a speed in 1..100 drives pn; MASKED and
DROPPED are as before. -/
def Obligations.DcmotorDrivesOneChannel : Prop :=
  ∀ s t idx dir speed, s.init = true → 1 ≤ idx → idx ≤ 4 → exec (.dcmotor idx dir speed) s = .next t →
    (∃ duty driven other, 0 ≤ duty ∧ duty ≤ 4095 ∧
      ((driven = motorPp idx ∧ other = motorPn idx) ∨ (driven = motorPn idx ∧ other = motorPp idx)) ∧
      (dir = .fwd → 0 ≤ speed → driven = motorPp idx ∧ duty = min 4095 (41 * speed)) ∧
      (dir = .rev → 0 < speed → driven = motorPn idx ∧ duty = min 4095 (41 * speed)) ∧
      channelHolds t.expander s.cfg.tickHighMask driven 0 duty ∧
      channelHolds t.expander s.cfg.tickHighMask other 0 0) ∧
    t.sticky.masked = s.sticky.masked ∧ t.sticky.dropped = s.sticky.dropped

/-- R155: MSTOP on an initialised block zeroes the forward, then the reverse channel, or drops an index outside
1..4. -/
def Obligations.MstopCompletes : Prop :=
  ∀ s idx, s.init = true →
    (idx < 1 ∨ 4 < idx → exec (.mstop idx) s = .next { s with sticky := { s.sticky with dropped := true } }) ∧
    (1 ≤ idx → idx ≤ 4 →
      exec (.mstop idx) s = .next (setChannel ((4 - idx) * 2) 0 0 (setChannel ((4 - idx) * 2 + 1) 0 0 s)))

/-- R156: MSTOPALL on an initialised block emits the eight zero bursts to channels 7 down to 0 and sets no flag;
afterwards channels 0..7 hold (0, 0) and every other register reads as before. -/
def Obligations.MstopallZeroesChannelsInOrder : Prop :=
  ∀ s, s.init = true →
    ∃ m, exec .mstopall s = .next { s with
        expander := m
        trace := s.trace ++
          [.busWrite 0x40 [0x22, 0, 0, 0, 0], .busWrite 0x40 [0x1E, 0, 0, 0, 0], .busWrite 0x40 [0x1A, 0, 0, 0, 0],
            .busWrite 0x40 [0x16, 0, 0, 0, 0], .busWrite 0x40 [0x12, 0, 0, 0, 0], .busWrite 0x40 [0x0E, 0, 0, 0, 0],
            .busWrite 0x40 [0x0A, 0, 0, 0, 0], .busWrite 0x40 [0x06, 0, 0, 0, 0]] } ∧
      (∀ c, 0 ≤ c → c ≤ 7 → channelHolds m s.cfg.tickHighMask c 0 0) ∧
      (∀ a, a < 0x06 ∨ 0x26 ≤ a → memRead m a = memRead s.expander a)

/-- R121, R150: the frame of SETCH, CHOFF, SERVO, DCMOTOR, MSTOP and MSTOPALL on an initialised block: only the flags
DROPPED, CLAMPED (DCMOTOR alone) and MASKED (SETCH and SERVO alone) can change, no flag is cleared, and every register
outside the addressed channels reads as before. -/
def Obligations.ChannelCommandsFrame : Prop :=
  ∀ s t i, writesChannels i = true → s.init = true → exec i s = .next t →
    t = { s with sticky := t.sticky, trace := t.trace, expander := t.expander } ∧
    t.sticky = { s.sticky with
      dropped := t.sticky.dropped, clamped := t.sticky.clamped, masked := t.sticky.masked } ∧
    (∀ f, stickyGet f s.sticky = true → stickyGet f t.sticky = true) ∧
    (t.sticky.clamped ≠ s.sticky.clamped → ∃ idx dir speed, i = .dcmotor idx dir speed) ∧
    (t.sticky.masked ≠ s.sticky.masked → (∃ ch on off, i = .setch ch on off) ∨ ∃ idx deg, i = .servo idx deg) ∧
    (∀ a, (∀ c ∈ channelsAddressed i, 0 ≤ c → c ≤ 15 → ¬ofChannel c a) →
      memRead t.expander a = memRead s.expander a)

/-! ## Stepper -/

/-- R186, R187 (zero magnitude): STEPDEG of 0 degrees and STEPTURN of 0 turns only set NOOP_ZERO, initialised or
not. -/
def Obligations.ZeroMagnitudeOnlySetsNoopZero : Prop :=
  ∀ s pair dir model,
    exec (.stepdeg pair dir model 0) s = .next { s with sticky := { s.sticky with noopZero := true } } ∧
    exec (.stepturn pair dir model 0) s = .next { s with sticky := { s.sticky with noopZero := true } }

/-- R185 (pair check): a non-zero stepper command on a pair outside 1 and 2 only sets DROPPED, initialised or not. -/
def Obligations.BadPairOnlySetsDropped : Prop :=
  ∀ s pair dir model v, v ≠ 0 → pair ≠ 1 → pair ≠ 2 →
    exec (.stepdeg pair dir model v) s = .next { s with sticky := { s.sticky with dropped := true } } ∧
    exec (.stepturn pair dir model v) s = .next { s with sticky := { s.sticky with dropped := true } }

/-- R184 to R187: STEPDEG, and STEPTURN of turns worth as many degrees, on an initialised block with a pair 1 or 2 and a
non-zero magnitude completes its first step: the four energize bursts of the configured map and table in the map's
order, HOLD_MS, the suspension of that many ms, and the stop of the pair left to do; no flag changes, and only the
pair's channels are written. -/
def Obligations.StepperEnergizesAndHolds : Prop :=
  ∀ s q dir model deg i, s.init = true → coilMapOk s.cfg.coilMap = true → deg ≠ 0 →
    i = .stepdeg (pairIndex q) dir model deg ∨
      (∃ turns, deg = 360 * turns ∧ i = .stepturn (pairIndex q) dir model turns) →
    ∀ h : Nat,
      h = (match model with
        | .a => 50000 * deg.natAbs / 36000
        | .b => 1000 * deg.natAbs / 360) →
      ∃ m, exec i s = .next { s with
          seq := .running (pairStopOps q) false
          holdMs := BitVec.ofNat 64 h
          expander := m
          trace := s.trace ++
            (coilEntries s.cfg.coilMap model q dir).map (fun e =>
              channelBurst s.cfg.tickHighMask e.ch (coilDuty s.cfg.coilTable model e.phase).on.toNat
                (coilDuty s.cfg.coilTable model e.phase).off.toNat) ++ [.sleepMillis h] } ∧
        (∀ e ∈ coilEntries s.cfg.coilMap model q dir,
          channelHolds m s.cfg.tickHighMask e.ch (coilDuty s.cfg.coilTable model e.phase).on.toNat
            (coilDuty s.cfg.coilTable model e.phase).off.toNat) ∧
        (∀ a, (∀ c ∈ channelsAddressed i, ¬ofChannel c a) → memRead m a = memRead s.expander a)

/-- R122, R185, R187 (uninitialised block): STEPDEG, and STEPTURN of turns worth as many degrees, with a pair 1 or 2 and
a non-zero magnitude first initialises: its first step is the one INIT makes, and what is left after INIT <- 1 is what
the command does on an initialised block of the same configuration. -/
def Obligations.StepperInitialisesAfterItsChecks : Prop :=
  ∀ s q dir model deg i, s.init = false → deg ≠ 0 →
    i = .stepdeg (pairIndex q) dir model deg ∨
      (∃ turns, deg = 360 * turns ∧ i = .stepturn (pairIndex q) dir model turns) →
    ∃ old rest t, exec .init s = .next t ∧ t.seq = .running [.settled old 50, .setInit] false ∧
      exec i s = .next { t with seq := .running (.settled old 50 :: .setInit :: rest) false } ∧
      ∀ u, u.init = true → u.cfg = s.cfg → exec i u = .next (runOps rest u)

/-- R185, R189(c): when the hold is answered, the sequencer's next step zeroes the pair's four channels (7, 6, 5, 4 or
3, 2, 1, 0), leaves the block idle, and all four channels hold (0, 0). -/
def Obligations.HoldEndsWithThePairStopped : Prop :=
  ∀ s u q, scheduled s .sequencer u → s.seq = .running (pairStopOps q) true → s.init = true →
    ∃ m, step s = .next { u with
        seq := .idle
        expander := m
        trace := s.trace ++
          (if q = .one then
            [.busWrite 0x40 [0x22, 0, 0, 0, 0], .busWrite 0x40 [0x1E, 0, 0, 0, 0],
              .busWrite 0x40 [0x1A, 0, 0, 0, 0], .busWrite 0x40 [0x16, 0, 0, 0, 0]]
          else
            [.busWrite 0x40 [0x12, 0, 0, 0, 0], .busWrite 0x40 [0x0E, 0, 0, 0, 0],
              .busWrite 0x40 [0x0A, 0, 0, 0, 0], .busWrite 0x40 [0x06, 0, 0, 0, 0]]) } ∧
      (∀ c ∈ pairChannels q, channelHolds m s.cfg.tickHighMask c 0 0) ∧
      (∀ a, (∀ c ∈ pairChannels q, ¬ofChannel c a) → memRead m a = memRead s.expander a)

/-- R187: STEPTURN of t ≠ 0 turns is STEPDEG of 360*t degrees; R185: the sign of the degrees changes nothing. -/
def Obligations.StepturnIsStepdegOf360 : Prop :=
  (∀ s pair dir model t, t ≠ 0 →
    exec (.stepturn pair dir model t) s = exec (.stepdeg pair dir model (360 * t)) s) ∧
  (∀ s pair dir model deg, exec (.stepdeg pair dir model (-deg)) s = exec (.stepdeg pair dir model deg) s)

/-- R184: a hold is the floor of the rule's quotient, at least 1 ms (A) or 2 ms (B), and for every magnitude a command
can carry the product fits 63 bits and the hold fits HOLD_MS. -/
def Obligations.HoldTimesAreFloorsAndFit : Prop :=
  ∀ m : Nat, 1 ≤ m →
    (36000 * holdMs .a m ≤ 50000 * m ∧ 50000 * m < 36000 * (holdMs .a m + 1) ∧ 1 ≤ holdMs .a m) ∧
    (360 * holdMs .b m ≤ 1000 * m ∧ 1000 * m < 360 * (holdMs .b m + 1) ∧ 2 ≤ holdMs .b m) ∧
    (m ≤ 360 * 2 ^ 31 → 50000 * m < 2 ^ 63 ∧ ∀ model, (BitVec.ofNat 64 (holdMs model m)).toNat = holdMs model m)

/-! ## Light -/

/-- R213: LREAD samples once and stores whether the level meets the condition; nothing else of the block changes. -/
def Obligations.LreadStoresTheAnswer : Prop :=
  ∀ s pin cond, ∃ level : Level,
    exec (.lread pin cond) s = .next { s with
      levels := s.levels.tail
      draws := s.draws + 1
      trace := s.trace ++ [.analogRead pin level]
      result :=
        (match cond with
        | .int => decide (s.thresh.toInt < level.val)
        | .notInt => decide ((level.val : Int) ≤ s.thresh.toInt)) } ∧
    (∀ l ls, s.levels = l :: ls → level = l)

/-- R213 (corner cases): with THRESH ≥ 1023 the answer to INT is always 0, with THRESH < 0 always 1, whatever level
is drawn. -/
def Obligations.LreadExtremeThresholds : Prop :=
  ∀ s t pin, exec (.lread pin .int) s = .next t →
    (1023 ≤ s.thresh.toInt → t.result = false) ∧ (s.thresh.toInt < 0 → t.result = true)

/-- R214: LSENS is encoded as OP = 0xC above its operand, and stores the operand verbatim, inside the contract or
not. -/
def Obligations.LsensStoresVerbatim : Prop :=
  ∀ v : Int, (Instr.lsens v).WellFormed →
    (∀ w : Command, decode w = .ok (.lsens v) ↔ w = 0xC0000000#32 ++ BitVec.ofInt 32 v) ∧
    ∀ s, ∃ x : Word32, x.toInt = v ∧ exec (.lsens v) s = .next { s with thresh := x }

/-- R215: LWATCH drops when the capacity is full, else appends one registration whose agent starts in SAMPLE. -/
def Obligations.LwatchRegistersOrDrops : Prop :=
  ∀ s pin cond,
    (s.cfg.monCapacity = some s.mon.length →
      exec (.lwatch pin cond) s = .next { s with sticky := { s.sticky with dropped := true } }) ∧
    (s.cfg.monCapacity ≠ some s.mon.length →
      exec (.lwatch pin cond) s = .next { s with mon := s.mon ++ [⟨pin, cond, .sample⟩] })

/-- R210, R211, R212, R216: one tick of a monitor in SAMPLE: it samples, raises exactly one event exactly on a
crossing in its direction against the shared previous level, stores the level, and sleeps 200 ms; nothing of the PWM
side changes. -/
def Obligations.MonitorTickRule : Prop :=
  ∀ s u i pin cond, scheduled s (.tick i) u → s.mon[i]? = some ⟨pin, cond, .sample⟩ →
    ∃ level : Level, ∃ events : List PortEvent,
      step s = .next { u with
        levels := s.levels.tail
        draws := s.draws + 1
        lastLevel := BitVec.ofNat 32 level.val
        lastValid := true
        mon := s.mon.set i ⟨pin, cond, .sleeping⟩
        trace := s.trace ++ [.analogRead pin level] ++ events ++ [.sleepMillis 200] } ∧
      (s.lastValid = true ∧
          ((cond = .int ∧ (level.val : Int) > s.thresh.toInt ∧ s.lastLevel.toInt ≤ s.thresh.toInt) ∨
            (cond = .notInt ∧ (level.val : Int) ≤ s.thresh.toInt ∧ s.lastLevel.toInt > s.thresh.toInt)) →
        events =
          [.raise (eventBase + (pin.toNat : Int) + (if cond = .int then ccInt else ccNotInt))
            (eventPayload pin cond level)]) ∧
      (¬(s.lastValid = true ∧
          ((cond = .int ∧ (level.val : Int) > s.thresh.toInt ∧ s.lastLevel.toInt ≤ s.thresh.toInt) ∨
            (cond = .notInt ∧ (level.val : Int) ≤ s.thresh.toInt ∧ s.lastLevel.toInt > s.thresh.toInt))) →
        events = [])

/-- R31, R65: the timer's answer moves a sleeping monitor to SAMPLE and gives a suspended sequencer its step, and
changes nothing else. -/
def Obligations.TimerAnswersWakeTheirAgent : Prop :=
  (∀ s u i pin cond, scheduled s (.timerMon i) u → s.mon[i]? = some ⟨pin, cond, .sleeping⟩ →
    step s = .next { u with mon := s.mon.set i ⟨pin, cond, .sample⟩ }) ∧
  (∀ s u k, scheduled s .timerSeq u → s.seq = .running k false → step s = .next { u with seq := .running k true })

/-! ## Block control -/

/-- R240, R241, R242: only the all-zero word is NOP, which changes nothing; SCLR, OP = 0xE above its mask, clears
exactly the sticky flags its mask selects among bits 13..8; every word with OP = 0xF is the reserved command, which
sets ILLEGAL and nothing else. -/
def Obligations.BlockControlCommands : Prop :=
  (∀ w, decode w = .ok .nop ↔ w = 0) ∧
  (∀ w mask, decode w = .ok (.sclr mask) ↔ w = 0xE0000000#32 ++ mask) ∧
  (∀ w rest, decode w = .ok (.reservedF rest) ↔ w = 0xF#4 ++ rest) ∧
  (∀ s, exec .nop s = .next s) ∧
  (∀ s mask, exec (.sclr mask) s = .next { s with
    sticky :=
      { dropped := s.sticky.dropped && !mask.getLsbD 8
        clamped := s.sticky.clamped && !mask.getLsbD 9
        masked := s.sticky.masked && !mask.getLsbD 10
        noopZero := s.sticky.noopZero && !mask.getLsbD 11
        illegal := s.sticky.illegal && !mask.getLsbD 12
        overrun := s.sticky.overrun && !mask.getLsbD 13 } }) ∧
  (∀ s rest, exec (.reservedF rest) s = .next { s with sticky := { s.sticky with illegal := true } })

/-! ## The whole machine -/

/-- R250, R253: no command traps or stops: every command, in every state, answers a next state. -/
def Obligations.EveryCommandAnswersANextState : Prop :=
  ∀ i s, ∃ t, exec i s = .next t

/-- R61, R63, R103: every step keeps the bus discipline: the block emits no transaction but those of R103, to device
0x40, reads only MODE1, and waits no other settle time. -/
def Obligations.EveryStepKeepsTheBusDiscipline : Prop :=
  ∀ s t, busDisciplined s → step s = .next t → busDisciplined t

/-- R60, R61: every step keeps the expander's registers in canonical form and inside MODE1, PRESCALE and the channel
registers. -/
def Obligations.EveryStepKeepsTheExpanderDiscipline : Prop :=
  ∀ s t, expanderDisciplined s → step s = .next t → expanderDisciplined t

/-- The two disciplines hold at reset, where the history is empty and the expander unknown (the model's choices, log
entry 15), and the default coil map, the family's of log entry 9, meets R183. -/
def Obligations.ResetMeetsTheInvariants : Prop :=
  busDisciplined State.reset ∧ expanderDisciplined State.reset ∧ coilMapOk State.reset.cfg.coilMap = true

/-- R70, R284: no step changes or drops what the history records: the trace before is an initial part of the trace
after. -/
def Obligations.HistoryIsOnlyExtended : Prop :=
  ∀ s t, step s = .next t → ∃ new, t.trace = s.trace ++ new

/-- R22, R30, R32: over every step the configuration is unchanged; INIT is never cleared and no registration is removed
or changed, but by power-on reset. -/
def Obligations.PersistentStateSurvivesEveryStep : Prop :=
  ∀ s t, step s = .next t →
    t.cfg = s.cfg ∧
    (nextMove s ≠ some .powerOn →
      (s.init = true → t.init = true) ∧
      ∃ new, t.mon.map (fun m => (m.pin, m.cond)) = s.mon.map (fun m => (m.pin, m.cond)) ++ new)

/-- R27, R34, R241: a sticky flag that is set stays set over every step but a power-on reset and the acceptance of an
SCLR whose mask selects it. -/
def Obligations.StickyFlagsStayUntilCleared : Prop :=
  ∀ s t f, step s = .next t → stickyGet f s.sticky = true → stickyGet f t.sticky = false →
    nextMove s = some .powerOn ∨
    ∃ v mask, nextMove s = some (.hostWrite (s.cfg.hostBase + 0x04) 4 v) ∧ s.seq = .idle ∧
      decode (v ++ s.cmdLo) = .ok (.sclr mask) ∧ mask.getLsbD (flagBit f) = true

/-- R23 to R26, R29, R30: which command can change which register. -/
def Obligations.RegistersHaveTheirOnlyWriters : Prop :=
  ∀ i s t, exec i s = .next t →
    (t.thresh ≠ s.thresh → ∃ v, i = .lsens v) ∧
    (t.result ≠ s.result → ∃ pin cond, i = .lread pin cond) ∧
    (t.mon ≠ s.mon → ∃ pin cond, i = .lwatch pin cond) ∧
    (t.holdMs ≠ s.holdMs → (∃ p d m v, i = .stepdeg p d m v) ∨ ∃ p d m v, i = .stepturn p d m v) ∧
    t.lastLevel = s.lastLevel ∧ t.lastValid = s.lastValid ∧ t.freq = s.freq ∧ t.cmdLo = s.cmdLo ∧
    t.init = s.init ∧ t.cfg = s.cfg ∧ t.moves = s.moves ∧ t.readData = s.readData

/-- R213 to R216, R241, R242, R130: NOP, LREAD, LSENS, LWATCH, SCLR and a reserved word write no register of the
expander, emit no bus or timer event and never suspend. -/
def Obligations.OtherCommandsTouchNoPwmState : Prop :=
  ∀ i s t, exec i s = .next t →
    (match i with
      | .nop | .lread _ _ | .lsens _ | .lwatch _ _ | .sclr _ | .reservedF _ => True
      | _ => False) →
    t.expander = s.expander ∧ t.seq = s.seq ∧
    ∃ new, t.trace = s.trace ++ new ∧ ∀ e ∈ new, ∃ pin level, e = .analogRead pin level

/-- R181, R188: the first step of a stepper command on an initialised block emits only channel writes and timer
requests: no MODE1 or PRESCALE transaction; and FREQ is as before. -/
def Obligations.StepperChangesNoFrequency : Prop :=
  ∀ s t p d m v, s.init = true →
    exec (.stepdeg p d m v) s = .next t ∨ exec (.stepturn p d m v) s = .next t →
    t.freq = s.freq ∧
    ∃ new, t.trace = s.trace ++ new ∧
      ∀ e ∈ new, (∃ c on off, 0 ≤ c ∧ c ≤ 15 ∧ e = channelBurst s.cfg.tickHighMask c on off) ∨
        ∃ h, e = .sleepMillis h

/-- R181, R290, R295: a suspension cannot be cut short: while the sequencer waits, no step but the timer's answer or a
power-on reset changes SEQ, INIT, FREQ, HOLD_MS or any register of the expander, and an issued command word sets
OVERRUN. -/
def Obligations.WaitingCommandCannotBeDisturbed : Prop :=
  ∀ s t k, s.seq = .running k false → step s = .next t →
    nextMove s ≠ some .timerSeq → nextMove s ≠ some .powerOn →
    t.seq = s.seq ∧ t.expander = s.expander ∧ t.init = s.init ∧ t.freq = s.freq ∧ t.holdMs = s.holdMs ∧
      ∀ v, nextMove s = some (.hostWrite (s.cfg.hostBase + 0x04) 4 v) → t.sticky.overrun = true

/-- R216, R284, R296: every suspended command completes, within as many answered suspensions as it has procedure calls
left, plus one: where the answers and continuations are listed, under that many of them; with nothing listed, while
the agents take turns (log entry 1), within that many rounds of all the agents, at a command end; and with nothing listed every
registered monitor has its step again within one round, whatever runs, so the machine is never quiescent. What is
listed is finite (log entry 19). -/
def Obligations.SuspendedCommandsCompleteAndMonitorsGoOn : Prop :=
  (∀ (s : State) (k : List Op) (ms : List Move), coilMapOk s.cfg.coilMap = true → s.seq = .running k false →
    ∃ (n : Nat) (t : State), n ≤ k.length + 1 ∧ t.seq = .idle ∧ t.moves = ms ∧
      Sys2Proof.core.run (2 * n) { s with moves := answerRounds n ++ ms } = .next t) ∧
  (∀ (s : State) (k : List Op), coilMapOk s.cfg.coilMap = true → s.seq = .running k false → s.moves = [] →
    ∃ (n : Nat) (t : State), n ≤ 2 * (k.length + 1) * (s.mon.length + 1) ∧ commandEnd t ∧
      Sys2Proof.core.run n s = .next t) ∧
  (∀ (s : State) (i : Nat), coilMapOk s.cfg.coilMap = true → s.moves = [] → i < s.mon.length →
    ∃ (n : Nat) (t : State), n ≤ s.mon.length ∧ Sys2Proof.core.run n s = .next t ∧
      ((∃ pin cond, t.mon[i]? = some ⟨pin, cond, .sleeping⟩ ∧ nextMove t = some (.timerMon i)) ∨
        ∃ pin cond, t.mon[i]? = some ⟨pin, cond, .sample⟩ ∧ nextMove t = some (.tick i)))

/-- R23: no computation reads FREQ: a step from a state that differs only in FREQ ends the same way, and its next
states differ in FREQ at most (the host's read of FREQ itself apart). -/
def Obligations.FreqIsReadByNoComputation : Prop :=
  ∀ s t f, step s = .next t → nextMove s ≠ some (.hostRead (s.cfg.hostBase + 0x0C) 4) →
    ∃ g, step { s with freq := f } = .next { t with freq := g }

/-- R27, R40: no command reads a sticky flag: the meaning of a command from a state that differs only in its sticky
flags differs in its sticky flags at most. -/
def Obligations.StickyFlagsAreReadByNoCommand : Prop :=
  ∀ i s t k, exec i s = .next t → ∃ k', exec i { s with sticky := k } = .next { t with sticky := k' }

/-- R13: for every operand a command can carry, the intermediates from which the model computes the servo ticks, the
DC duty, the turns, the hold and the prescale keep the rule's bounds, all of which a signed 64-bit value holds. -/
def Obligations.IntermediatesFitSixtyFourBits : Prop :=
  (∀ v : Int, valFits v →
    (servoPulse v = Int.tdiv (servoSpan v) 180 + 600 ∧ servoTicks v = Int.tdiv (servoProduct v) 20000 ∧
      |servoSpan v| ≤ 88 * 10 ^ 12 ∧ |servoPulse v| ≤ 88 * 10 ^ 12 ∧ |servoProduct v| ≤ 88 * 10 ^ 12) ∧
    (∀ dir, clampedDuty dir v = min 4095 (max (-4095) (rawDuty dir v)) ∧ |rawDuty dir v| ≤ 89 * 10 ^ 9) ∧
    |turnDegrees v| ≤ 78 * 10 ^ 10 ∧
    (∀ model m, m = v.natAbs ∨ m = (turnDegrees v).natAbs →
      holdMs model m = holdProduct model m / holdDivisor model ∧ holdProduct model m ≤ 39 * 10 ^ 15) ∧
    prescale v = rndDividend 25000000 (prescaleProduct v) / rndDivisor (prescaleProduct v) - 1 ∧
    |prescaleProduct v| ≤ 88 * 10 ^ 11 ∧ |rndDivisor (prescaleProduct v)| < 2 ^ 63 ∧
    |rndDividend 25000000 (prescaleProduct v)| < 2 ^ 63) ∧
  39 * 10 ^ 15 < 2 ^ 63 ∧ 88 * 10 ^ 12 < 2 ^ 63
end

