-- ==== Sys2Proof/Laws/Asm.lean ====
section
/-! SUPPORT. The assembler reads what its printer writes: numbers, then lines whose parts hold no separator. -/

namespace Sys2Proof

/-! Numbers. -/

/-- The value of a digit of base 16, in capitals. -/
theorem digitValue_digitChar : ∀ d < 16, digitValue (Nat.digitChar d).toUpper = some d := by decide

/-- The capital of a digit is no separator, no sign and no `X`. -/
theorem digitChar_ne : ∀ d < 16, (Nat.digitChar d).toUpper ≠ ' ' ∧ (Nat.digitChar d).toUpper ≠ ',' ∧
    (Nat.digitChar d).toUpper ≠ '-' ∧ (Nat.digitChar d).toUpper ≠ 'X' := by decide

theorem digitsValue_append (b acc : Nat) (xs ys : List Char) :
    digitsValue b acc (xs ++ ys) = (digitsValue b acc xs).bind (fun v => digitsValue b v ys) := by
  induction xs generalizing acc with
  | nil => rfl
  | cons c xs ih =>
    simp only [List.cons_append, digitsValue]
    cases digitValue c with
    | none => rfl
    | some d => dsimp only; split <;> [exact ih _; rfl]

/-- Reading the digits of a number gives the number. -/
theorem digitsValue_toDigits {b : Nat} (h : 1 < b) (hb : b ≤ 16) (n : Nat) :
    digitsValue b 0 ((Nat.toDigits b n).map Char.toUpper) = some n := by
  induction n using Nat.strongRecOn with
  | _ n ih =>
    by_cases hn : n < b
    · rw [Nat.toDigits_of_lt_base hn]
      simp [digitsValue, digitValue_digitChar n (by omega), hn]
    · have hlt : n % b < b := Nat.mod_lt _ (by omega)
      rw [Nat.toDigits_of_base_le h (by omega), List.map_append, digitsValue_append,
        ih _ (Nat.div_lt_self (by omega) h)]
      simp [digitsValue, digitValue_digitChar _ (hlt.trans_le hb), hlt, Nat.div_add_mod]

theorem mem_toDigits {b : Nat} (h : 1 < b) (n : Nat) {c : Char} (hc : c ∈ Nat.toDigits b n) :
    ∃ d < b, c = Nat.digitChar d := by
  induction n using Nat.strongRecOn with
  | _ n ih =>
    by_cases hn : n < b
    · rw [Nat.toDigits_of_lt_base hn] at hc
      exact ⟨n, hn, by simpa using hc⟩
    · rw [Nat.toDigits_of_base_le h (by omega), List.mem_append] at hc
      rcases hc with hc | hc
      · exact ih _ (Nat.div_lt_self (by omega) h) hc
      · exact ⟨n % b, Nat.mod_lt _ (by omega), by simpa using hc⟩

/-- A number's text begins with a digit. -/
theorem toDigits_cons {b : Nat} (h : 1 < b) (n : Nat) : ∃ d < b, ∃ cs, Nat.toDigits b n = Nat.digitChar d :: cs := by
  cases e : Nat.toDigits b n with
  | nil => exact absurd e Nat.toDigits_ne_nil
  | cons c cs =>
    obtain ⟨d, hd, rfl⟩ := mem_toDigits h n (e ▸ List.mem_cons_self : c ∈ Nat.toDigits b n)
    exact ⟨d, hd, cs, rfl⟩

/-- The text in capitals: a line is read in them (R104). -/
abbrev capitals (cs : List Char) : List Char := cs.map Char.toUpper

theorem unsignedLiteral_decimal (n : Nat) : unsignedLiteral (capitals (Nat.toDigits 10 n)) = some n := by
  have hv : digitsValue 10 0 (capitals (Nat.toDigits 10 n)) = some n := digitsValue_toDigits (by omega) (by omega) n
  have hx : ∀ c ∈ capitals (Nat.toDigits 10 n), c ≠ 'X' := by
    intro c hc
    obtain ⟨a, ha, rfl⟩ := List.mem_map.1 hc
    obtain ⟨d, hd, rfl⟩ := mem_toDigits (by omega) n ha
    exact (digitChar_ne d (by omega)).2.2.2
  have hn : capitals (Nat.toDigits 10 n) ≠ [] := by simp [capitals, Nat.toDigits_ne_nil]
  revert hv hx hn
  generalize capitals (Nat.toDigits 10 n) = cs
  intro hv hx hn
  unfold unsignedLiteral
  split
  · exact absurd rfl hn
  · exact absurd rfl (hx 'X' (by simp))
  · exact hv

theorem unsignedLiteral_hex (n : Nat) : unsignedLiteral (capitals (hexText n)) = some n := by
  obtain ⟨d, _, cs, e⟩ := toDigits_cons (b := 16) (by omega) n
  have hv := digitsValue_toDigits (b := 16) (by omega) (by omega) n
  rw [e] at hv
  simpa [hexText, e, unsignedLiteral] using hv

theorem intLiteral_of_unsigned {cs : List Char} {n : Nat} (h : unsignedLiteral cs = some n)
    (hm : cs.head? ≠ some '-') : intLiteral cs = some n := by
  unfold intLiteral
  split
  · exact absurd rfl hm
  · simp [h]

theorem intLiteral_decimal (v : Int) : intLiteral (capitals (decimalText v)) = some v := by
  unfold decimalText
  split
  · have : capitals ('-' :: Nat.toDigits 10 v.natAbs) = '-' :: capitals (Nat.toDigits 10 v.natAbs) := rfl
    rw [this, intLiteral, unsignedLiteral_decimal]
    show some (-(v.natAbs : Int)) = some v
    exact congrArg some (by omega)
  · rw [intLiteral_of_unsigned (unsignedLiteral_decimal _)]
    · exact congrArg some (by omega)
    · obtain ⟨d, hd, cs, e⟩ := toDigits_cons (b := 10) (by omega) v.natAbs
      rw [e]
      simpa using (digitChar_ne d (by omega)).2.2.1

theorem intLiteral_hex (n : Nat) : intLiteral (capitals (hexText n)) = some n :=
  intLiteral_of_unsigned (unsignedLiteral_hex n) (by simp [hexText])

theorem natLiteral_decimal (n : Nat) : natLiteral (capitals (decimalText n)) = some n := by
  simp [natLiteral, intLiteral_decimal]

theorem natLiteral_negative {v : Int} (h : v < 0) : natLiteral (capitals (decimalText v)) = none := by
  simp [natLiteral, intLiteral_decimal, h]

theorem pinLiteral_decimal (p : Pin) : pinLiteral (capitals (decimalText p.toNat)) = some p := by
  simp [pinLiteral, natLiteral_decimal, p.isLt]

theorem maskLiteral_hex (m : BitVec 32) : maskLiteral (capitals (hexText m.toNat)) = some m := by
  simp [maskLiteral, intLiteral_hex]; omega

theorem dirKeyword_text (d : Dir) : dirKeyword (capitals d.text) = some d := by cases d <;> decide

theorem modelKeyword_text (m : Model) : modelKeyword (capitals m.text) = some m := by cases m <;> decide

theorem condKeyword_text (c : Cond) : condKeyword (capitals c.text) = some c := by cases c <;> decide

/-! Lines. -/

/-- A part of a line: not empty, without spaces and commas, in capitals. -/
def solid (o : List Char) : Prop := capitals o ≠ [] ∧ ∀ c ∈ capitals o, c ≠ ' ' ∧ c ≠ ','

theorem solid_of_all {o : List Char} (h : (capitals o).isEmpty = false)
    (h' : (capitals o).all (fun c => c != ' ' && c != ',') = true) : solid o :=
  ⟨fun e => by simp [e] at h, by simpa using h'⟩

theorem solid_toDigits {b : Nat} (h : 1 < b) (hb : b ≤ 16) (n : Nat) : solid (Nat.toDigits b n) := by
  refine ⟨by simp [capitals, Nat.toDigits_ne_nil], fun c hc => ?_⟩
  obtain ⟨a, ha, rfl⟩ := List.mem_map.1 hc
  obtain ⟨d, hd, rfl⟩ := mem_toDigits h n ha
  have := digitChar_ne d (by omega)
  exact ⟨this.1, this.2.1⟩

theorem solid_cons {c : Char} {o : List Char} (hc : c.toUpper ≠ ' ' ∧ c.toUpper ≠ ',') (h : solid o) :
    solid (c :: o) := by
  refine ⟨by simp [capitals], fun x hx => ?_⟩
  rcases List.mem_cons.1 hx with rfl | hx
  · exact hc
  · exact h.2 x hx

theorem solid_decimal (v : Int) : solid (decimalText v) := by
  unfold decimalText
  split
  · exact solid_cons (by decide) (solid_toDigits (by omega) (by omega) _)
  · exact solid_toDigits (by omega) (by omega) _

theorem solid_hex (n : Nat) : solid (hexText n) :=
  solid_cons (by decide) (solid_cons (by decide) (solid_toDigits (by omega) (by omega) n))

theorem solid_dir (d : Dir) : solid d.text := by cases d <;> exact solid_of_all rfl rfl

theorem solid_model (m : Model) : solid m.text := by cases m <;> exact solid_of_all rfl rfl

theorem solid_cond (c : Cond) : solid c.text := by cases c <;> exact solid_of_all rfl rfl

/-- Nothing is trimmed from a text that neither begins nor ends with a space. -/
theorem trimChars_of_ends {cs : List Char} (h : cs.head? ≠ some ' ') (h' : cs.getLast? ≠ some ' ') :
    trimChars cs = cs := by
  have key : ∀ l : List Char, l.head? ≠ some ' ' → l.dropWhile (· == ' ') = l := by
    intro l hl
    cases l with
    | nil => rfl
    | cons c l => simp at hl; simp [hl]
  rw [trimChars, key cs h, key _ (by simpa using h'), List.reverse_reverse]

theorem trimChars_solid {o : List Char} (h : solid o) : trimChars (capitals o) = capitals o :=
  trimChars_of_ends (fun e => (h.2 _ (List.mem_of_head? e)).1 rfl) (fun e => (h.2 _ (List.mem_of_getLast? e)).1 rfl)

theorem trimChars_space (cs : List Char) : trimChars (' ' :: cs) = trimChars cs := by
  simp [trimChars]

theorem splitChars_solid {o : List Char} (h : ∀ c ∈ o, c ≠ ',') : splitChars ',' o = [o] := by
  induction o with
  | nil => rfl
  | cons c o ih => simp [splitChars, h c (by simp), ih (fun x hx => h x (by simp [hx]))]

theorem splitChars_append {o : List Char} (h : ∀ c ∈ o, c ≠ ',') (rest : List Char) :
    splitChars ',' (o ++ ',' :: rest) = o :: splitChars ',' rest := by
  induction o with
  | nil => simp [splitChars]
  | cons c o ih => simp [splitChars, h c (by simp), ih (fun x hx => h x (by simp [hx]))]

theorem splitChars_ne_nil (sep : Char) (cs : List Char) : splitChars sep cs ≠ [] := by
  cases cs with
  | nil => simp [splitChars]
  | cons c cs => unfold splitChars; split <;> [simp; (split <;> simp)]

theorem trim_splitChars_space (cs : List Char) :
    (splitChars ',' (' ' :: cs)).map trimChars = (splitChars ',' cs).map trimChars := by
  have h := splitChars_ne_nil ',' cs
  rw [show splitChars ',' (' ' :: cs) = match splitChars ',' cs with
    | [] => [[' ']]
    | piece :: more => (' ' :: piece) :: more from rfl]
  split
  · contradiction
  · rename_i e
    simp [e, trimChars_space]

/-- The operands of a printed line are found again. -/
theorem splitChars_operandsText {o : List Char} {ops : List (List Char)} (h : ∀ x ∈ o :: ops, solid x) :
    (splitChars ',' (capitals (operandsText (o :: ops)))).map trimChars = (o :: ops).map capitals := by
  induction ops generalizing o with
  | nil =>
    have ho := h o (by simp)
    simp [operandsText, splitChars_solid (fun c hc => (ho.2 c hc).2), trimChars_solid ho]
  | cons p ops ih =>
    have ho := h o (by simp)
    rw [show capitals (operandsText (o :: p :: ops)) =
        capitals o ++ ',' :: ' ' :: capitals (operandsText (p :: ops)) by simp [operandsText],
      splitChars_append (fun c hc => (ho.2 c hc).2), List.map_cons, trim_splitChars_space,
      ih (fun x hx => h x (List.mem_cons_of_mem _ hx)), trimChars_solid ho]
    rfl

/-- What a printed line of operands ends with. -/
theorem operandsText_getLast {o : List Char} {ops : List (List Char)} (h : ∀ x ∈ o :: ops, solid x) :
    capitals (operandsText (o :: ops)) ≠ [] ∧ (capitals (operandsText (o :: ops))).getLast? ≠ some ' ' ∧
      (capitals (operandsText (o :: ops))).head? ≠ some ' ' := by
  induction ops generalizing o with
  | nil =>
    have ho := h o (by simp)
    exact ⟨ho.1, fun e => (ho.2 _ (List.mem_of_getLast? e)).1 rfl, fun e => (ho.2 _ (List.mem_of_head? e)).1 rfl⟩
  | cons p ops ih =>
    have ho := h o (by simp)
    obtain ⟨h1, h2, _⟩ := ih (fun x hx => h x (List.mem_cons_of_mem _ hx))
    rw [show capitals (operandsText (o :: p :: ops)) =
        capitals o ++ ',' :: ' ' :: capitals (operandsText (p :: ops)) by simp [operandsText]]
    refine ⟨by simp, ?_, ?_⟩
    · rw [List.getLast?_append_cons, List.getLast?_cons_of_ne_nil (by simp), List.getLast?_cons_of_ne_nil h1]
      exact h2
    · rw [List.head?_append_of_ne_nil _ ho.1]
      exact fun e => (ho.2 _ (List.mem_of_head? e)).1 rfl

/-- A printed line is read as its mnemonic and its operands, in capitals. -/
theorem lineParts_lineText {mn : List Char} {ops : List (List Char)} (hm : solid mn) (ho : ∀ x ∈ ops, solid x) :
    lineParts (lineText mn ops) = (capitals mn, ops.map capitals) := by
  have hsp : ∀ c ∈ capitals mn, (c != ' ') = true := fun c hc => by simp [(hm.2 c hc).1]
  have hhd : (capitals mn).head? ≠ some ' ' := fun e => (hm.2 _ (List.mem_of_head? e)).1 rfl
  cases ops with
  | nil =>
    simp [lineParts, lineText, trimChars_solid hm, List.takeWhile_eq_self_iff.2 hsp,
      List.dropWhile_eq_nil_iff.2 hsp, show trimChars [] = [] from rfl]
  | cons o ops =>
    obtain ⟨h1, h2, h3⟩ := operandsText_getLast ho
    have e : capitals (lineText mn (o :: ops)) = capitals mn ++ ' ' :: capitals (operandsText (o :: ops)) := by
      simp [lineText]
    have ht : trimChars (capitals (lineText mn (o :: ops))) = capitals (lineText mn (o :: ops)) := by
      rw [e]
      refine trimChars_of_ends ?_ ?_
      · rwa [List.head?_append_of_ne_nil _ hm.1]
      · rwa [List.getLast?_append_cons, List.getLast?_cons_of_ne_nil h1]
    have htw : (capitals (lineText mn (o :: ops))).takeWhile (· != ' ') = capitals mn := by
      rw [e, List.takeWhile_append_of_pos hsp]; simp
    have hdw : (capitals (lineText mn (o :: ops))).dropWhile (· != ' ') =
        ' ' :: capitals (operandsText (o :: ops)) := by
      rw [e, List.dropWhile_append_of_pos hsp]; simp
    have hr : trimChars (capitals (operandsText (o :: ops))) = capitals (operandsText (o :: ops)) :=
      trimChars_of_ends h3 h2
    simp only [lineParts, ht, htw, hdw, trimChars_space, hr, h1, if_false, splitChars_operandsText ho]

theorem parseLine_lineText {mn : List Char} {ops : List (List Char)} (hm : solid mn) (ho : ∀ x ∈ ops, solid x) :
    parseLine (lineText mn ops) = parseParts (capitals mn) (ops.map capitals) := by
  rw [parseLine, lineParts_lineText hm ho]

end Sys2Proof
end

