-- ==== Sys2Proof/Laws/Encoding.lean ====
section
/-! SUPPORT. The laws of the field layout (R91): each bit and each field of a word made of fields, and such a word
under a mask. -/

namespace Sys2Proof

/-- Every bit of a word made of fields. -/
theorem fieldsWord_getLsbD (op : BitVec 4) (idx : BitVec 8) (dir model cond : Bool) (val : BitVec 32) (j : Nat) :
    (fieldsWord op idx dir model cond val).getLsbD j =
      if j < 32 then val.getLsbD j else if j < 49 then false else if j = 49 then cond else if j = 50 then model
      else if j = 51 then dir else if j < 60 then idx.getLsbD (j - 52) else op.getLsbD (j - 60) := by
  unfold fieldsWord
  simp only [BitVec.getLsbD_append, BitVec.getLsbD_ofBool, BitVec.getLsbD_zero]
  by_cases h : j < 32
  · simp [h]
  by_cases h1 : j < 49
  · simp [h, h1]; omega
  by_cases h2 : j = 49
  · subst h2; simp
  by_cases h3 : j = 50
  · subst h3; simp
  by_cases h4 : j = 51
  · subst h4; simp
  have a : ¬ (j - 32 < 17) := by omega
  have b : ¬ (j - 32 - 17 < 1) := by omega
  have c : ¬ (j - 32 - 17 - 1 < 1) := by omega
  have d : ¬ (j - 32 - 17 - 1 - 1 < 1) := by omega
  have e : j - 32 - 17 - 1 - 1 - 1 = j - 52 := by omega
  have f : j - 52 - 8 = j - 60 := by omega
  have g : (j - 52 < 8) ↔ j < 60 := by omega
  rw [if_neg h, if_neg a, if_neg b, if_neg c, if_neg d, e, f, if_neg h, if_neg h1, if_neg h2, if_neg h3, if_neg h4]
  simp only [g]

@[simp] theorem fieldsWord_opField (op : BitVec 4) (idx : BitVec 8) (dir model cond : Bool) (val : BitVec 32) :
    opField (fieldsWord op idx dir model cond val) = op := by
  refine BitVec.eq_of_getLsbD_eq fun j hj => ?_
  have : j < 4 := hj
  simp only [opField, BitVec.getLsbD_extractLsb', fieldsWord_getLsbD]
  split_ifs <;> first | omega | simp [this]

@[simp] theorem fieldsWord_idxField (op : BitVec 4) (idx : BitVec 8) (dir model cond : Bool) (val : BitVec 32) :
    idxField (fieldsWord op idx dir model cond val) = idx := by
  refine BitVec.eq_of_getLsbD_eq fun j hj => ?_
  have : j < 8 := hj
  simp only [idxField, BitVec.getLsbD_extractLsb', fieldsWord_getLsbD]
  split_ifs <;> first | omega | simp [this]

@[simp] theorem fieldsWord_valField (op : BitVec 4) (idx : BitVec 8) (dir model cond : Bool) (val : BitVec 32) :
    valField (fieldsWord op idx dir model cond val) = val := by
  refine BitVec.eq_of_getLsbD_eq fun j hj => ?_
  have : j < 32 := hj
  simp only [valField, BitVec.getLsbD_extractLsb', fieldsWord_getLsbD]
  simp [this]

@[simp] theorem fieldsWord_dirField (op : BitVec 4) (idx : BitVec 8) (dir : Dir) (model cond : Bool) (val : BitVec 32) :
    dirField (fieldsWord op idx dir.bit model cond val) = dir := by
  rw [dirField, fieldsWord_getLsbD]; cases dir <;> simp [Dir.bit]

@[simp] theorem fieldsWord_modelField (op : BitVec 4) (idx : BitVec 8) (dir : Bool) (model : Model) (cond : Bool)
    (val : BitVec 32) : modelField (fieldsWord op idx dir model.bit cond val) = model := by
  rw [modelField, fieldsWord_getLsbD]; cases model <;> simp [Model.bit]

@[simp] theorem fieldsWord_condField (op : BitVec 4) (idx : BitVec 8) (dir model : Bool) (cond : Cond)
    (val : BitVec 32) : condField (fieldsWord op idx dir model cond.bit val) = cond := by
  rw [condField, fieldsWord_getLsbD]; cases cond <;> simp [Cond.bit]

@[simp] theorem fieldsWord_onField (op : BitVec 4) (idx : BitVec 8) (dir model cond : Bool) (off on : BitVec 16) :
    onField (fieldsWord op idx dir model cond (off ++ on)) = on.toNat := by
  refine congrArg BitVec.toNat (BitVec.eq_of_getLsbD_eq fun j hj => ?_)
  have h : j < 32 := by omega
  simp only [BitVec.getLsbD_extractLsb', fieldsWord_getLsbD, BitVec.getLsbD_append]
  simp [hj, h]

@[simp] theorem fieldsWord_offField (op : BitVec 4) (idx : BitVec 8) (dir model cond : Bool) (off on : BitVec 16) :
    offField (fieldsWord op idx dir model cond (off ++ on)) = off.toNat := by
  refine congrArg BitVec.toNat (BitVec.eq_of_getLsbD_eq fun j hj => ?_)
  have h : 16 + j < 32 := by omega
  simp only [BitVec.getLsbD_extractLsb', fieldsWord_getLsbD, BitVec.getLsbD_append]
  simp [hj, h]

/-- Bits 59:0 do not matter to the reserved opcode. -/
theorem reserved_and_mask (rest : BitVec 60) :
    encode (.reservedF rest) &&& 0xF000000000000000 = 0xF000000000000000 := by
  refine BitVec.eq_of_getLsbD_eq fun j hj => ?_
  show ((0xF#4 ++ rest : BitVec (4 + 60)) &&& (0xF#4 ++ 0#60 : BitVec (4 + 60))).getLsbD j =
    (0xF#4 ++ 0#60 : BitVec (4 + 60)).getLsbD j
  simp only [BitVec.getLsbD_and, BitVec.getLsbD_append]
  split <;> simp
/-- A word made of fields under a mask: each field under the mask's field; RSV is zero already. -/
theorem fieldsWord_and (op : BitVec 4) (idx : BitVec 8) (dir model cond : Bool) (val : BitVec 32) (m : Command) :
    fieldsWord op idx dir model cond val &&& m =
      fieldsWord (op &&& opField m) (idx &&& idxField m) (dir && m.getLsbD 51) (model && m.getLsbD 50)
        (cond && m.getLsbD 49) (val &&& valField m) := by
  refine BitVec.eq_of_getLsbD_eq fun j hj => ?_
  simp only [BitVec.getLsbD_and, fieldsWord_getLsbD, opField, idxField, valField, BitVec.getLsbD_extractLsb']
  split_ifs with h h1 h2 h3 h4 h5
  · simp [h]
  · simp
  · subst h2; rfl
  · subst h3; rfl
  · subst h4; rfl
  · have a : j - 52 < 8 := by omega
    have b : 52 + (j - 52) = j := by omega
    simp [a, b]
  · have a : j - 60 < 4 := by omega
    have b : 60 + (j - 60) = j := by omega
    simp [a, b]

/-- A word with RSV zero is the word of its fields. -/
theorem fieldsWord_of_fields {w : Command} (h : w.extractLsb' 32 17 = 0) :
    fieldsWord (opField w) (idxField w) (w.getLsbD 51) (w.getLsbD 50) (w.getLsbD 49) (valField w) = w := by
  refine BitVec.eq_of_getLsbD_eq fun j hj => ?_
  simp only [fieldsWord_getLsbD, opField, idxField, valField, BitVec.getLsbD_extractLsb']
  split_ifs with h0 h1 h2 h3 h4 h5
  · simp [h0]
  · have := congrArg (fun v : BitVec 17 => v.getLsbD (j - 32)) h
    simp only [BitVec.getLsbD_extractLsb'] at this
    have a : j - 32 < 17 := by omega
    have b : 32 + (j - 32) = j := by omega
    simpa [a, b] using this.symm
  · subst h2; rfl
  · subst h3; rfl
  · subst h4; rfl
  · have a : j - 52 < 8 := by omega
    have b : 52 + (j - 52) = j := by omega
    simp [a, b]
  · have a : j - 60 < 4 := by omega
    have b : 60 + (j - 60) = j := by omega
    simp [a, b]

end Sys2Proof
end

