-- ==== Sys2Proof/Laws/Memory.lean ====
section
/-! SUPPORT. The laws of the expander's registers: read after write, every operation keeps the canonical form. -/

namespace Sys2Proof.Machine

@[simp] theorem memRead_memWrite_same (m : Mem) (a : Nat) (b : Byte) : memRead (memWrite m a b) a = some b := by
  induction m with
  | nil => simp [memWrite, memRead]
  | cons c rest ih =>
    obtain ⟨x, v⟩ := c
    unfold memWrite
    split
    · simp [memRead]
    · split
      · simp [memRead]
      · rename_i h; simp [memRead, ih, Ne.symm h]

theorem memRead_memWrite_other (m : Mem) {a a' : Nat} (b : Byte) (h : a' ≠ a) :
    memRead (memWrite m a b) a' = memRead m a' := by
  induction m with
  | nil => simp [memWrite, memRead, Ne.symm h]
  | cons c rest ih =>
    obtain ⟨x, v⟩ := c
    unfold memWrite
    split
    · simp [memRead, Ne.symm h]
    · split
      · rename_i hx; subst hx; simp [memRead, Ne.symm h]
      · simp [memRead, ih]

theorem memWrite_mem {m : Mem} {a : Nat} {b : Byte} {c : Host.Cell} (h : c ∈ memWrite m a b) :
    c = (a, b) ∨ c ∈ m := by
  induction m with
  | nil => simpa [memWrite] using h
  | cons d rest ih =>
    obtain ⟨x, v⟩ := d
    unfold memWrite at h
    split at h
    · simpa using h
    · split at h
      · simp only [List.mem_cons] at h ⊢; tauto
      · simp only [List.mem_cons] at h ⊢
        rcases h with h | h
        · tauto
        · have := ih h; tauto

theorem memWf_memWrite {m : Mem} (hm : memWf m) {a : Nat} (ha : a < 256) (b : Byte) : memWf (memWrite m a b) := by
  refine ⟨?_, fun c hc => ?_⟩
  · obtain ⟨hs, -⟩ := hm
    induction m with
    | nil => simp [memWrite]
    | cons d rest ih =>
      obtain ⟨x, v⟩ := d
      simp only [List.map_cons, List.pairwise_cons] at hs
      unfold memWrite
      split
      · rename_i h
        simp only [List.map_cons, List.pairwise_cons, List.mem_cons]
        refine ⟨?_, hs.1, hs.2⟩
        rintro y (rfl | hy)
        · exact h
        · exact h.trans (hs.1 y hy)
      · split
        · rename_i h; subst h
          simpa only [List.map_cons, List.pairwise_cons] using hs
        · rename_i h₁ h₂
          simp only [List.map_cons, List.pairwise_cons]
          refine ⟨fun y hy => ?_, ih hs.2⟩
          obtain ⟨c, hc, rfl⟩ := List.mem_map.1 hy
          rcases memWrite_mem hc with rfl | hc'
          · show x < a
            omega
          · exact hs.1 _ (List.mem_map.2 ⟨c, hc', rfl⟩)
  · rcases memWrite_mem hc with rfl | h
    · exact ha
    · exact hm.2 c h

theorem memWf_memWriteBytes {m : Mem} (hm : memWf m) (r : Byte) (bs : List Byte) : memWf (memWriteBytes m r bs) := by
  induction bs generalizing m r with
  | nil => exact hm
  | cons b rest ih => exact ih (memWf_memWrite hm r.isLt b) (r + 1)

/-- A byte outside the burst reads as before. -/
theorem memRead_memWriteBytes_other (m : Mem) (r : Byte) (bs : List Byte) {a : Nat}
    (h : ∀ k < bs.length, a ≠ (r + BitVec.ofNat 8 k).toNat) :
    memRead (memWriteBytes m r bs) a = memRead m a := by
  induction bs generalizing m r with
  | nil => rfl
  | cons b rest ih =>
    have h0 : a ≠ r.toNat := by simpa using h 0 (by simp)
    rw [memWriteBytes, ih, memRead_memWrite_other m b h0]
    intro k hk
    have := h (k + 1) (by simp [hk])
    have e : r + 1 + BitVec.ofNat 8 k = r + BitVec.ofNat 8 (k + 1) := by
      rw [BitVec.add_assoc]; congr 1
      apply BitVec.eq_of_toNat_eq; simp [Nat.add_comm]
    rwa [e]

/-- A register listed after a burst was listed before it or is one of its own. -/
theorem memWriteBytes_mem {m : Mem} {r : Byte} {bs : List Byte} {c : Host.Cell} (h : c ∈ memWriteBytes m r bs) :
    c ∈ m ∨ ∃ k < bs.length, c.1 = (r + BitVec.ofNat 8 k).toNat := by
  induction bs generalizing m r with
  | nil => exact .inl h
  | cons b rest ih =>
    rcases ih h with h | ⟨k, hk, e⟩
    · rcases memWrite_mem h with rfl | h
      · exact .inr ⟨0, by simp, by simp⟩
      · exact .inl h
    · refine .inr ⟨k + 1, by simp [hk], ?_⟩
      rw [e]; congr 1
      rw [BitVec.add_assoc]; congr 1
      apply BitVec.eq_of_toNat_eq; simp [Nat.add_comm]

end Sys2Proof.Machine
end

