-- ==== Sys2Proof/Laws/State.lean ====
section
/-! SUPPORT. What each field reads as after each named update of the state, one lemma a field, true by rfl; and the
BUSY bit after each. -/

namespace Sys2Proof.Machine

open Sys2Proof.Config

/-! record -/

@[simp] theorem record_cfg (e : PortEvent) (s : State) : (record e s).cfg = s.cfg := rfl

@[simp] theorem record_init (e : PortEvent) (s : State) : (record e s).init = s.init := rfl

@[simp] theorem record_freq (e : PortEvent) (s : State) : (record e s).freq = s.freq := rfl

@[simp] theorem record_thresh (e : PortEvent) (s : State) : (record e s).thresh = s.thresh := rfl

@[simp] theorem record_lastLevel (e : PortEvent) (s : State) : (record e s).lastLevel = s.lastLevel := rfl

@[simp] theorem record_lastValid (e : PortEvent) (s : State) : (record e s).lastValid = s.lastValid := rfl

@[simp] theorem record_result (e : PortEvent) (s : State) : (record e s).result = s.result := rfl

@[simp] theorem record_sticky (e : PortEvent) (s : State) : (record e s).sticky = s.sticky := rfl

@[simp] theorem record_seq (e : PortEvent) (s : State) : (record e s).seq = s.seq := rfl

@[simp] theorem record_holdMs (e : PortEvent) (s : State) : (record e s).holdMs = s.holdMs := rfl

@[simp] theorem record_mon (e : PortEvent) (s : State) : (record e s).mon = s.mon := rfl

@[simp] theorem record_cmdLo (e : PortEvent) (s : State) : (record e s).cmdLo = s.cmdLo := rfl

@[simp] theorem record_expander (e : PortEvent) (s : State) : (record e s).expander = s.expander := rfl

@[simp] theorem record_trace (e : PortEvent) (s : State) : (record e s).trace = s.trace ++ [e] := rfl

@[simp] theorem record_moves (e : PortEvent) (s : State) : (record e s).moves = s.moves := rfl

@[simp] theorem record_levels (e : PortEvent) (s : State) : (record e s).levels = s.levels := rfl

@[simp] theorem record_draws (e : PortEvent) (s : State) : (record e s).draws = s.draws := rfl

@[simp] theorem record_readData (e : PortEvent) (s : State) : (record e s).readData = s.readData := rfl

@[simp] theorem record_turn (e : PortEvent) (s : State) : (record e s).turn = s.turn := rfl

/-! setFlag -/

@[simp] theorem setFlag_cfg (f : Flag) (s : State) : (setFlag f s).cfg = s.cfg := rfl

@[simp] theorem setFlag_init (f : Flag) (s : State) : (setFlag f s).init = s.init := rfl

@[simp] theorem setFlag_freq (f : Flag) (s : State) : (setFlag f s).freq = s.freq := rfl

@[simp] theorem setFlag_thresh (f : Flag) (s : State) : (setFlag f s).thresh = s.thresh := rfl

@[simp] theorem setFlag_lastLevel (f : Flag) (s : State) : (setFlag f s).lastLevel = s.lastLevel := rfl

@[simp] theorem setFlag_lastValid (f : Flag) (s : State) : (setFlag f s).lastValid = s.lastValid := rfl

@[simp] theorem setFlag_result (f : Flag) (s : State) : (setFlag f s).result = s.result := rfl

@[simp] theorem setFlag_sticky (f : Flag) (s : State) : (setFlag f s).sticky = stickySet f s.sticky := rfl

@[simp] theorem setFlag_seq (f : Flag) (s : State) : (setFlag f s).seq = s.seq := rfl

@[simp] theorem setFlag_holdMs (f : Flag) (s : State) : (setFlag f s).holdMs = s.holdMs := rfl

@[simp] theorem setFlag_mon (f : Flag) (s : State) : (setFlag f s).mon = s.mon := rfl

@[simp] theorem setFlag_cmdLo (f : Flag) (s : State) : (setFlag f s).cmdLo = s.cmdLo := rfl

@[simp] theorem setFlag_expander (f : Flag) (s : State) : (setFlag f s).expander = s.expander := rfl

@[simp] theorem setFlag_trace (f : Flag) (s : State) : (setFlag f s).trace = s.trace := rfl

@[simp] theorem setFlag_moves (f : Flag) (s : State) : (setFlag f s).moves = s.moves := rfl

@[simp] theorem setFlag_levels (f : Flag) (s : State) : (setFlag f s).levels = s.levels := rfl

@[simp] theorem setFlag_draws (f : Flag) (s : State) : (setFlag f s).draws = s.draws := rfl

@[simp] theorem setFlag_readData (f : Flag) (s : State) : (setFlag f s).readData = s.readData := rfl

@[simp] theorem setFlag_turn (f : Flag) (s : State) : (setFlag f s).turn = s.turn := rfl

/-! suspend -/

@[simp] theorem suspend_cfg (k : List Op) (s : State) : (suspend k s).cfg = s.cfg := rfl

@[simp] theorem suspend_init (k : List Op) (s : State) : (suspend k s).init = s.init := rfl

@[simp] theorem suspend_freq (k : List Op) (s : State) : (suspend k s).freq = s.freq := rfl

@[simp] theorem suspend_thresh (k : List Op) (s : State) : (suspend k s).thresh = s.thresh := rfl

@[simp] theorem suspend_lastLevel (k : List Op) (s : State) : (suspend k s).lastLevel = s.lastLevel := rfl

@[simp] theorem suspend_lastValid (k : List Op) (s : State) : (suspend k s).lastValid = s.lastValid := rfl

@[simp] theorem suspend_result (k : List Op) (s : State) : (suspend k s).result = s.result := rfl

@[simp] theorem suspend_sticky (k : List Op) (s : State) : (suspend k s).sticky = s.sticky := rfl

@[simp] theorem suspend_seq (k : List Op) (s : State) : (suspend k s).seq = .running k false := rfl

@[simp] theorem suspend_holdMs (k : List Op) (s : State) : (suspend k s).holdMs = s.holdMs := rfl

@[simp] theorem suspend_mon (k : List Op) (s : State) : (suspend k s).mon = s.mon := rfl

@[simp] theorem suspend_cmdLo (k : List Op) (s : State) : (suspend k s).cmdLo = s.cmdLo := rfl

@[simp] theorem suspend_expander (k : List Op) (s : State) : (suspend k s).expander = s.expander := rfl

@[simp] theorem suspend_trace (k : List Op) (s : State) : (suspend k s).trace = s.trace := rfl

@[simp] theorem suspend_moves (k : List Op) (s : State) : (suspend k s).moves = s.moves := rfl

@[simp] theorem suspend_levels (k : List Op) (s : State) : (suspend k s).levels = s.levels := rfl

@[simp] theorem suspend_draws (k : List Op) (s : State) : (suspend k s).draws = s.draws := rfl

@[simp] theorem suspend_readData (k : List Op) (s : State) : (suspend k s).readData = s.readData := rfl

@[simp] theorem suspend_turn (k : List Op) (s : State) : (suspend k s).turn = s.turn := rfl

/-! busWrite -/

@[simp] theorem busWrite_cfg (r : Byte) (bs : List Byte) (s : State) : (busWrite r bs s).cfg = s.cfg := rfl

@[simp] theorem busWrite_init (r : Byte) (bs : List Byte) (s : State) : (busWrite r bs s).init = s.init := rfl

@[simp] theorem busWrite_freq (r : Byte) (bs : List Byte) (s : State) : (busWrite r bs s).freq = s.freq := rfl

@[simp] theorem busWrite_thresh (r : Byte) (bs : List Byte) (s : State) : (busWrite r bs s).thresh = s.thresh := rfl

@[simp] theorem busWrite_lastLevel (r : Byte) (bs : List Byte) (s : State) : (busWrite r bs s).lastLevel = s.lastLevel := rfl

@[simp] theorem busWrite_lastValid (r : Byte) (bs : List Byte) (s : State) : (busWrite r bs s).lastValid = s.lastValid := rfl

@[simp] theorem busWrite_result (r : Byte) (bs : List Byte) (s : State) : (busWrite r bs s).result = s.result := rfl

@[simp] theorem busWrite_sticky (r : Byte) (bs : List Byte) (s : State) : (busWrite r bs s).sticky = s.sticky := rfl

@[simp] theorem busWrite_seq (r : Byte) (bs : List Byte) (s : State) : (busWrite r bs s).seq = s.seq := rfl

@[simp] theorem busWrite_holdMs (r : Byte) (bs : List Byte) (s : State) : (busWrite r bs s).holdMs = s.holdMs := rfl

@[simp] theorem busWrite_mon (r : Byte) (bs : List Byte) (s : State) : (busWrite r bs s).mon = s.mon := rfl

@[simp] theorem busWrite_cmdLo (r : Byte) (bs : List Byte) (s : State) : (busWrite r bs s).cmdLo = s.cmdLo := rfl

@[simp] theorem busWrite_expander (r : Byte) (bs : List Byte) (s : State) : (busWrite r bs s).expander = memWriteBytes s.expander r bs := rfl

@[simp] theorem busWrite_trace (r : Byte) (bs : List Byte) (s : State) : (busWrite r bs s).trace = s.trace ++ [.busWrite expAddr (r :: bs)] := rfl

@[simp] theorem busWrite_moves (r : Byte) (bs : List Byte) (s : State) : (busWrite r bs s).moves = s.moves := rfl

@[simp] theorem busWrite_levels (r : Byte) (bs : List Byte) (s : State) : (busWrite r bs s).levels = s.levels := rfl

@[simp] theorem busWrite_draws (r : Byte) (bs : List Byte) (s : State) : (busWrite r bs s).draws = s.draws := rfl

@[simp] theorem busWrite_readData (r : Byte) (bs : List Byte) (s : State) : (busWrite r bs s).readData = s.readData := rfl

@[simp] theorem busWrite_turn (r : Byte) (bs : List Byte) (s : State) : (busWrite r bs s).turn = s.turn := rfl

/-! busReadMode1 -/

@[simp] theorem busReadMode1_cfg (s : State) : (busReadMode1 s).cfg = s.cfg := rfl

@[simp] theorem busReadMode1_init (s : State) : (busReadMode1 s).init = s.init := rfl

@[simp] theorem busReadMode1_freq (s : State) : (busReadMode1 s).freq = s.freq := rfl

@[simp] theorem busReadMode1_thresh (s : State) : (busReadMode1 s).thresh = s.thresh := rfl

@[simp] theorem busReadMode1_lastLevel (s : State) : (busReadMode1 s).lastLevel = s.lastLevel := rfl

@[simp] theorem busReadMode1_lastValid (s : State) : (busReadMode1 s).lastValid = s.lastValid := rfl

@[simp] theorem busReadMode1_result (s : State) : (busReadMode1 s).result = s.result := rfl

@[simp] theorem busReadMode1_sticky (s : State) : (busReadMode1 s).sticky = s.sticky := rfl

@[simp] theorem busReadMode1_seq (s : State) : (busReadMode1 s).seq = s.seq := rfl

@[simp] theorem busReadMode1_holdMs (s : State) : (busReadMode1 s).holdMs = s.holdMs := rfl

@[simp] theorem busReadMode1_mon (s : State) : (busReadMode1 s).mon = s.mon := rfl

@[simp] theorem busReadMode1_cmdLo (s : State) : (busReadMode1 s).cmdLo = s.cmdLo := rfl

@[simp] theorem busReadMode1_expander (s : State) : (busReadMode1 s).expander = s.expander := rfl

@[simp] theorem busReadMode1_trace (s : State) : (busReadMode1 s).trace = s.trace ++ [.busRead expAddr regMode1 (mode1Answer s)] := rfl

@[simp] theorem busReadMode1_moves (s : State) : (busReadMode1 s).moves = s.moves := rfl

@[simp] theorem busReadMode1_levels (s : State) : (busReadMode1 s).levels = s.levels := rfl

@[simp] theorem busReadMode1_draws (s : State) : (busReadMode1 s).draws = s.draws + 1 := rfl

@[simp] theorem busReadMode1_readData (s : State) : (busReadMode1 s).readData = s.readData := rfl

@[simp] theorem busReadMode1_turn (s : State) : (busReadMode1 s).turn = s.turn := rfl

/-! analogRead -/

@[simp] theorem analogRead_cfg (pin : Pin) (s : State) : (analogRead pin s).cfg = s.cfg := rfl

@[simp] theorem analogRead_init (pin : Pin) (s : State) : (analogRead pin s).init = s.init := rfl

@[simp] theorem analogRead_freq (pin : Pin) (s : State) : (analogRead pin s).freq = s.freq := rfl

@[simp] theorem analogRead_thresh (pin : Pin) (s : State) : (analogRead pin s).thresh = s.thresh := rfl

@[simp] theorem analogRead_lastLevel (pin : Pin) (s : State) : (analogRead pin s).lastLevel = s.lastLevel := rfl

@[simp] theorem analogRead_lastValid (pin : Pin) (s : State) : (analogRead pin s).lastValid = s.lastValid := rfl

@[simp] theorem analogRead_result (pin : Pin) (s : State) : (analogRead pin s).result = s.result := rfl

@[simp] theorem analogRead_sticky (pin : Pin) (s : State) : (analogRead pin s).sticky = s.sticky := rfl

@[simp] theorem analogRead_seq (pin : Pin) (s : State) : (analogRead pin s).seq = s.seq := rfl

@[simp] theorem analogRead_holdMs (pin : Pin) (s : State) : (analogRead pin s).holdMs = s.holdMs := rfl

@[simp] theorem analogRead_mon (pin : Pin) (s : State) : (analogRead pin s).mon = s.mon := rfl

@[simp] theorem analogRead_cmdLo (pin : Pin) (s : State) : (analogRead pin s).cmdLo = s.cmdLo := rfl

@[simp] theorem analogRead_expander (pin : Pin) (s : State) : (analogRead pin s).expander = s.expander := rfl

@[simp] theorem analogRead_trace (pin : Pin) (s : State) : (analogRead pin s).trace = s.trace ++ [.analogRead pin (analogAnswer pin s)] := rfl

@[simp] theorem analogRead_moves (pin : Pin) (s : State) : (analogRead pin s).moves = s.moves := rfl

@[simp] theorem analogRead_levels (pin : Pin) (s : State) : (analogRead pin s).levels = s.levels.tail := rfl

@[simp] theorem analogRead_draws (pin : Pin) (s : State) : (analogRead pin s).draws = s.draws + 1 := rfl

@[simp] theorem analogRead_readData (pin : Pin) (s : State) : (analogRead pin s).readData = s.readData := rfl

@[simp] theorem analogRead_turn (pin : Pin) (s : State) : (analogRead pin s).turn = s.turn := rfl

/-! raiseEvent -/

@[simp] theorem raiseEvent_cfg (pin : Pin) (cond : Cond) (l : Level) (s : State) : (raiseEvent pin cond l s).cfg = s.cfg := rfl

@[simp] theorem raiseEvent_init (pin : Pin) (cond : Cond) (l : Level) (s : State) : (raiseEvent pin cond l s).init = s.init := rfl

@[simp] theorem raiseEvent_freq (pin : Pin) (cond : Cond) (l : Level) (s : State) : (raiseEvent pin cond l s).freq = s.freq := rfl

@[simp] theorem raiseEvent_thresh (pin : Pin) (cond : Cond) (l : Level) (s : State) : (raiseEvent pin cond l s).thresh = s.thresh := rfl

@[simp] theorem raiseEvent_lastLevel (pin : Pin) (cond : Cond) (l : Level) (s : State) : (raiseEvent pin cond l s).lastLevel = s.lastLevel := rfl

@[simp] theorem raiseEvent_lastValid (pin : Pin) (cond : Cond) (l : Level) (s : State) : (raiseEvent pin cond l s).lastValid = s.lastValid := rfl

@[simp] theorem raiseEvent_result (pin : Pin) (cond : Cond) (l : Level) (s : State) : (raiseEvent pin cond l s).result = s.result := rfl

@[simp] theorem raiseEvent_sticky (pin : Pin) (cond : Cond) (l : Level) (s : State) : (raiseEvent pin cond l s).sticky = s.sticky := rfl

@[simp] theorem raiseEvent_seq (pin : Pin) (cond : Cond) (l : Level) (s : State) : (raiseEvent pin cond l s).seq = s.seq := rfl

@[simp] theorem raiseEvent_holdMs (pin : Pin) (cond : Cond) (l : Level) (s : State) : (raiseEvent pin cond l s).holdMs = s.holdMs := rfl

@[simp] theorem raiseEvent_mon (pin : Pin) (cond : Cond) (l : Level) (s : State) : (raiseEvent pin cond l s).mon = s.mon := rfl

@[simp] theorem raiseEvent_cmdLo (pin : Pin) (cond : Cond) (l : Level) (s : State) : (raiseEvent pin cond l s).cmdLo = s.cmdLo := rfl

@[simp] theorem raiseEvent_expander (pin : Pin) (cond : Cond) (l : Level) (s : State) : (raiseEvent pin cond l s).expander = s.expander := rfl

@[simp] theorem raiseEvent_trace (pin : Pin) (cond : Cond) (l : Level) (s : State) : (raiseEvent pin cond l s).trace = s.trace ++ [.raise (eventId pin cond) (eventPayload pin cond l)] := rfl

@[simp] theorem raiseEvent_moves (pin : Pin) (cond : Cond) (l : Level) (s : State) : (raiseEvent pin cond l s).moves = s.moves := rfl

@[simp] theorem raiseEvent_levels (pin : Pin) (cond : Cond) (l : Level) (s : State) : (raiseEvent pin cond l s).levels = s.levels := rfl

@[simp] theorem raiseEvent_draws (pin : Pin) (cond : Cond) (l : Level) (s : State) : (raiseEvent pin cond l s).draws = s.draws := rfl

@[simp] theorem raiseEvent_readData (pin : Pin) (cond : Cond) (l : Level) (s : State) : (raiseEvent pin cond l s).readData = s.readData := rfl

@[simp] theorem raiseEvent_turn (pin : Pin) (cond : Cond) (l : Level) (s : State) : (raiseEvent pin cond l s).turn = s.turn := rfl

/-! BUSY -/

theorem busy_of_idle {s : State} (h : s.seq = .idle) : s.busy = false := by simp [State.busy, h]

theorem busy_of_running {s : State} {k : List Op} {b : Bool} (h : s.seq = .running k b) : s.busy = true := by
  simp [State.busy, h]

theorem busy_iff (s : State) : s.busy = true ↔ s.seq ≠ .idle := by simp [State.busy]

end Sys2Proof.Machine
end

