-- ==== Sys2Proof/Laws/Ops.lean ====
section
/-! SUPPORT. One lemma per shared operation: what `setChannel`, `setFrequency`, one procedure call and a run of
procedure calls can do. Later proofs cite these and unfold none of them. -/

namespace Sys2Proof.Machine

open Sys2Proof.Config

/-! Values. -/

theorem channelOk_iff (c : Int) : channelOk c = true ↔ 0 ≤ c ∧ c ≤ 15 := by
  unfold channelOk; rw [decide_eq_true_eq]; unfold nChannels; omega

theorem tickInRange_iff (v : Int) : tickInRange v = true ↔ 0 ≤ v ∧ v ≤ 4095 := by
  unfold tickInRange; rw [decide_eq_true_eq]; rfl

theorem prescaleInRange_iff (p : Int) : prescaleInRange p = true ↔ 0 ≤ p ∧ p ≤ 255 := by
  simp only [prescaleInRange, decide_eq_true_eq]

theorem motorOk_iff (i : Int) : motorOk i = true ↔ 1 ≤ i ∧ i ≤ 4 := by
  simp only [motorOk, decide_eq_true_eq]

/-- A channel's four registers stand at 6 + 4c and the three addresses after it, without wrapping (R62, R69). -/
theorem channelBase_add_toNat {c : Int} (h₀ : 0 ≤ c) (h₁ : c ≤ 15) {k : Nat} (hk : k < 4) :
    (channelBase c + BitVec.ofNat 8 k).toNat = 6 + 4 * c.toNat + k := by
  obtain ⟨n, rfl⟩ := Int.eq_ofNat_of_zero_le h₀
  have hn : n ≤ 15 := by omega
  interval_cases n <;> interval_cases k <;> decide

theorem channelBase_toNat {c : Int} (h₀ : 0 ≤ c) (h₁ : c ≤ 15) : (channelBase c).toNat = 6 + 4 * c.toNat := by
  simpa using channelBase_add_toNat h₀ h₁ (k := 0) (by omega)

/-! `setChannel` (R121). -/

theorem setChannel_dropped {c : Int} (h : ¬(0 ≤ c ∧ c ≤ 15)) (on off : Int) (s : State) :
    setChannel c on off s = setFlag .dropped s := by
  rw [← channelOk_iff] at h; simp [setChannel, h]

theorem setChannel_masked {c : Int} (h : 0 ≤ c ∧ c ≤ 15) {on off : Int}
    (ht : ¬(0 ≤ on ∧ on ≤ 4095 ∧ 0 ≤ off ∧ off ≤ 4095)) (s : State) :
    setChannel c on off s =
      busWrite (channelBase c)
        [tickLo on, tickHi s.cfg.tickHighMask on, tickLo off, tickHi s.cfg.tickHighMask off]
        (setFlag .masked s) := by
  have h' : ¬(tickInRange on = true ∧ tickInRange off = true) := by
    rw [tickInRange_iff, tickInRange_iff]; tauto
  rw [← channelOk_iff] at h
  rw [← Bool.and_eq_true] at h'
  rw [setChannel, if_pos h, if_neg h']

theorem setChannel_written {c : Int} (h : 0 ≤ c ∧ c ≤ 15) {on off : Int}
    (ht : 0 ≤ on ∧ on ≤ 4095 ∧ 0 ≤ off ∧ off ≤ 4095) (s : State) :
    setChannel c on off s =
      busWrite (channelBase c)
        [tickLo on, tickHi s.cfg.tickHighMask on, tickLo off, tickHi s.cfg.tickHighMask off] s := by
  have h' : tickInRange on = true ∧ tickInRange off = true := by
    rw [tickInRange_iff, tickInRange_iff]; tauto
  rw [← channelOk_iff] at h
  rw [← Bool.and_eq_true] at h'
  rw [setChannel, if_pos h, if_pos h']

/-- Everything `setChannel` can change: the DROPPED or MASKED flag, and one burst on the bus. -/
theorem setChannel_shape (c on off : Int) (s : State) :
    ∃ k tr ex, setChannel c on off s = { s with sticky := k, trace := tr, expander := ex } := by
  unfold setChannel; split
  · split <;> exact ⟨_, _, _, rfl⟩
  · exact ⟨_, s.trace, s.expander, rfl⟩

/-- Everything `setChannel` can do: DROPPED alone, or one burst with MASKED or without. -/
theorem setChannel_cases (c on off : Int) (s : State) :
    setChannel c on off s = setFlag .dropped s ∨
    (0 ≤ c ∧ c ≤ 15 ∧ ∃ k, (k = s.sticky ∨ k = stickySet .masked s.sticky) ∧
      setChannel c on off s =
        busWrite (channelBase c)
          [tickLo on, tickHi s.cfg.tickHighMask on, tickLo off, tickHi s.cfg.tickHighMask off]
          { s with sticky := k }) := by
  unfold setChannel
  split
  · rename_i h; rw [channelOk_iff] at h
    refine .inr ⟨h.1, h.2, ?_⟩
    split
    · exact ⟨s.sticky, .inl rfl, rfl⟩
    · exact ⟨_, .inr rfl, rfl⟩
  · exact .inl rfl

/-! `setFrequency` (R125). -/

@[simp] theorem mode1Answer_setFlag (f : Flag) (s : State) : mode1Answer (setFlag f s) = mode1Answer s := rfl

theorem frequencyOld_eq (hz : Int) (s : State) : frequencyOld hz s = mode1Answer s := by
  unfold frequencyOld; split <;> rfl

/-- The first atomic step of `setFrequency(hz)`: the flag, the read, three writes, the settle wait. -/
theorem frequencyStart_eq (hz : Int) (s : State) :
    frequencyStart hz s =
      { s with
        sticky := if prescaleInRange (prescale hz) then s.sticky else stickySet .masked s.sticky
        draws := s.draws + 1
        trace := s.trace ++
          [.busRead expAddr regMode1 (mode1Answer s),
            .busWrite expAddr [regMode1, sleepByte s.cfg (mode1Answer s)],
            .busWrite expAddr [regPrescale, byteAt (prescale hz) 0],
            .busWrite expAddr [regMode1, mode1Answer s],
            .sleepMicros settleUs]
        expander :=
          memWrite (memWrite (memWrite s.expander regMode1.toNat (sleepByte s.cfg (mode1Answer s)))
            regPrescale.toNat (byteAt (prescale hz) 0)) regMode1.toNat (mode1Answer s) } := by
  unfold frequencyStart
  split <;> simp [busWrite, busReadMode1, record, memWriteBytes, setFlag, mode1Answer]

/-- The second atomic step: the wake write and FREQ. -/
theorem frequencyFinish_eq (old : Byte) (hz : Int) (s : State) :
    frequencyFinish old hz s =
      { s with
        freq := BitVec.ofInt 32 hz
        trace := s.trace ++ [.busWrite expAddr [regMode1, wakeByte s.cfg old]]
        expander := memWrite s.expander regMode1.toNat (wakeByte s.cfg old) } := rfl

/-! Runs of procedure calls. -/

@[simp] theorem runOps_nil (s : State) : runOps [] s = s := rfl

@[simp] theorem runOps_setInit (rest : List Op) (s : State) :
    runOps (.setInit :: rest) s = runOps rest { s with init := true } := rfl

@[simp] theorem runOps_setChannel (c on off : Int) (rest : List Op) (s : State) :
    runOps (.setChannel c on off :: rest) s = runOps rest (setChannel c on off s) := rfl

@[simp] theorem runOps_flag (f : Flag) (rest : List Op) (s : State) :
    runOps (.flag f :: rest) s = runOps rest (setFlag f s) := rfl

@[simp] theorem runOps_settled (old : Byte) (hz : Int) (rest : List Op) (s : State) :
    runOps (.settled old hz :: rest) s = runOps rest (frequencyFinish old hz s) := rfl

@[simp] theorem runOps_hold (h : Nat) (rest : List Op) (s : State) :
    runOps (.hold h :: rest) s =
      suspend rest (record (.sleepMillis h) { s with holdMs := BitVec.ofNat 64 h }) := rfl

theorem runOps_setFrequency (hz : Int) (rest : List Op) (s : State) :
    runOps (.setFrequency hz :: rest) s = suspend (.settled (mode1Answer s) hz :: rest) (frequencyStart hz s) := by
  simp [runOps, runOp, frequencyOld_eq]

theorem runOps_ensureInit_done {s : State} (h : s.init = true) (rest : List Op) :
    runOps (.ensureInit :: rest) s = runOps rest s := by
  simp [runOps, runOp, h]

theorem runOps_ensureInit_start {s : State} (h : s.init = false) (rest : List Op) :
    runOps (.ensureInit :: rest) s = suspend (initRest s ++ rest) (initStart s) := by
  simp [runOps, runOp, h]

/-- A run of calls keeps what every single call and every suspension keeps. -/
theorem runOps_keeps {P : State → Prop} (hop : ∀ op s, P s → P (runOp op s).1) (hs : ∀ k s, P s → P (suspend k s))
    (ops : List Op) (s : State) (h : P s) : P (runOps ops s) := by
  induction ops generalizing s with
  | nil => exact h
  | cons op rest ih =>
    have h' := hop op s h
    simp only [runOps]
    split
    · rename_i s' e; rw [e] at h'; exact ih s' h'
    · rename_i s' k e; rw [e] at h'; exact hs _ _ h'

/-- Everything one procedure call can change: INIT set, FREQ, the flags, HOLD_MS, the bus history and registers. -/
theorem runOp_shape (op : Op) (s : State) :
    ∃ i f k h tr ex d, (s.init = true → i = true) ∧
      (runOp op s).1 =
        { s with init := i, freq := f, sticky := k, holdMs := h, trace := tr, expander := ex, draws := d } := by
  cases op with
  | ensureInit =>
    simp only [runOp]; split
    · exact ⟨s.init, s.freq, s.sticky, s.holdMs, s.trace, s.expander, s.draws, id, rfl⟩
    · simp only [initStart, frequencyStart_eq]; exact ⟨_, _, _, _, _, _, _, id, rfl⟩
  | setFrequency hz => simp only [runOp, frequencyStart_eq]; exact ⟨_, _, _, _, _, _, _, id, rfl⟩
  | settled old hz => exact ⟨_, _, _, _, _, _, _, id, rfl⟩
  | setInit => exact ⟨_, _, _, _, _, _, _, fun _ => rfl, rfl⟩
  | setChannel c on off =>
    obtain ⟨k, tr, ex, e⟩ := setChannel_shape c on off s
    exact ⟨_, _, _, _, _, _, _, id, e⟩
  | flag f => exact ⟨_, _, _, _, _, _, _, id, rfl⟩
  | hold h => exact ⟨_, _, _, _, _, _, _, id, rfl⟩

/-- Everything a run of calls can change: what single calls change, and SEQ where it suspends. -/
theorem runOps_shape (ops : List Op) (s : State) :
    ∃ i f k h tr ex d q, (s.init = true → i = true) ∧
      runOps ops s =
        { s with
          init := i, freq := f, sticky := k, holdMs := h, trace := tr, expander := ex, draws := d, seq := q } := by
  refine runOps_keeps (P := fun t => ∃ i f k h tr ex d q, (s.init = true → i = true) ∧ t =
        { s with
          init := i, freq := f, sticky := k, holdMs := h, trace := tr, expander := ex, draws := d, seq := q })
    ?_ ?_ ops s ⟨s.init, s.freq, s.sticky, s.holdMs, s.trace, s.expander, s.draws, s.seq, id, rfl⟩
  · rintro op t ⟨i, f, k, h, tr, ex, d, q, hi, rfl⟩
    obtain ⟨i', f', k', h', tr', ex', d', hi', e⟩ := runOp_shape op
      { s with
        init := i, freq := f, sticky := k, holdMs := h, trace := tr, expander := ex, draws := d, seq := q }
    exact ⟨i', f', k', h', tr', ex', d', q, fun h => hi' (hi h), e⟩
  · rintro k' t ⟨i, f, k, h, tr, ex, d, q, hi, rfl⟩
    exact ⟨i, f, k, h, tr, ex, d, _, hi, rfl⟩

/-- No procedure call reads the moves still to come. -/
theorem runOp_moves (op : Op) (s : State) (ms : List Move) :
    runOp op { s with moves := ms } = ({ (runOp op s).1 with moves := ms }, (runOp op s).2) := by
  cases op with
  | ensureInit =>
    simp only [runOp]; split
    · rfl
    · simp only [initStart, initRest, frequencyStart_eq, frequencyOld_eq]; rfl
  | setFrequency hz => simp only [runOp, frequencyStart_eq, frequencyOld_eq]; rfl
  | settled old hz => rfl
  | setInit => rfl
  | setChannel c on off =>
    simp only [runOp, setChannel]; split
    · split <;> rfl
    · rfl
  | flag g => rfl
  | hold h => rfl

/-- No run of calls reads the moves still to come. -/
theorem runOps_moves (ops : List Op) (s : State) (ms : List Move) :
    runOps ops { s with moves := ms } = { runOps ops s with moves := ms } := by
  induction ops generalizing s with
  | nil => rfl
  | cons op rest ih =>
    simp only [runOps, runOp_moves]
    rcases runOp op s with ⟨u, _ | k⟩
    · exact ih u
    · rfl

end Sys2Proof.Machine
end

