-- ==== Sys2Proof/Laws/PerInstr.lean ====
section
/-! SUPPORT. Statements made per command, one lemma a constructor. Family `OpcodeField`: the encoding of a command
carries the command's opcode in bits 63:60 (R91, R94, R96). -/

namespace Sys2Proof.Laws.OpcodeField

/-- The encoding carries the opcode in bits 63:60. -/
def Statement (i : Instr) : Prop := opField (encode i) = i.opcode

theorem nop : Statement .nop := fieldsWord_opField _ _ _ _ _ _

theorem init : Statement .init := fieldsWord_opField _ _ _ _ _ _

theorem setfreq (hz : Int) : Statement (.setfreq hz) :=
  fieldsWord_opField _ _ _ _ _ _

theorem setch (ch : Int) (on off : Nat) : Statement (.setch ch on off) :=
  fieldsWord_opField _ _ _ _ _ _

theorem choff (ch : Int) : Statement (.choff ch) :=
  fieldsWord_opField _ _ _ _ _ _

theorem servo (idx deg : Int) : Statement (.servo idx deg) :=
  fieldsWord_opField _ _ _ _ _ _

theorem dcmotor (idx : Int) (dir : Dir) (speed : Int) : Statement (.dcmotor idx dir speed) :=
  fieldsWord_opField _ _ _ _ _ _

theorem mstop (idx : Int) : Statement (.mstop idx) :=
  fieldsWord_opField _ _ _ _ _ _

theorem mstopall : Statement .mstopall := fieldsWord_opField _ _ _ _ _ _

theorem stepdeg (pair : Int) (dir : Dir) (model : Model) (deg : Int) : Statement (.stepdeg pair dir model deg) :=
  fieldsWord_opField _ _ _ _ _ _

theorem stepturn (pair : Int) (dir : Dir) (model : Model) (turns : Int) : Statement (.stepturn pair dir model turns) :=
  fieldsWord_opField _ _ _ _ _ _

theorem lread (pin : Pin) (cond : Cond) : Statement (.lread pin cond) :=
  fieldsWord_opField _ _ _ _ _ _

theorem lsens (value : Int) : Statement (.lsens value) :=
  fieldsWord_opField _ _ _ _ _ _

theorem lwatch (pin : Pin) (cond : Cond) : Statement (.lwatch pin cond) :=
  fieldsWord_opField _ _ _ _ _ _

theorem sclr (mask : BitVec 32) : Statement (.sclr mask) :=
  fieldsWord_opField _ _ _ _ _ _

theorem reservedF (rest : BitVec 60) : Statement (.reservedF rest) := BitVec.extractLsb'_append_eq_left

end Sys2Proof.Laws.OpcodeField
end

