-- ==== Sys2Proof/Laws/Step.lean ====
section
/-! SUPPORT. What a step can do, said once: the inversion of `exec`, of one move and of a step. Invariants of the
whole machine are case analyses over these. -/

namespace Sys2Proof.Machine

open Sys2Proof.Config

/-- The procedure calls of a command that is nothing but a run of calls (R120); no command's calls begin inside a
procedure. -/
def commandOps (p : Params) (i : Instr) : Option (List Op) :=
  match i with
  | .init => some [.ensureInit]
  | .setfreq hz => some (if hz ≤ 0 then [.flag .dropped] else [.setFrequency hz])
  | .setch ch on off => some [.ensureInit, .setChannel ch on off]
  | .choff ch => some [.ensureInit, .setChannel ch 0 0]
  | .servo idx deg => some [.ensureInit, .setChannel (servoChannel idx) 0 (servoTicks deg)]
  | .dcmotor idx dir speed => some (dcmotorOps idx dir speed)
  | .mstop idx => some (motorStopOps idx)
  | .mstopall => some (.ensureInit :: (motorStopOps 1 ++ motorStopOps 2 ++ motorStopOps 3 ++ motorStopOps 4))
  | .stepdeg pair dir model deg => some (if deg = 0 then [.flag .noopZero] else stepperOps p pair dir model deg)
  | .stepturn pair dir model turns =>
    some (if turns = 0 then [.flag .noopZero] else stepperOps p pair dir model (turnDegrees turns))
  | _ => none

theorem exec_of_commandOps {i : Instr} {s : State} {ops : List Op} (h : commandOps s.cfg i = some ops) :
    exec i s = .next (runOps ops s) := by
  cases i <;> simp only [commandOps, Option.some.injEq, reduceCtorEq] at h <;> subst h <;> rfl

/-! Taking a move changes the list of moves and whose turn it is. -/

@[simp] theorem takeMove_moves (s : State) : (takeMove s).moves = s.moves.tail := rfl
@[simp] theorem takeMove_turn (s : State) : (takeMove s).turn = s.turn + 1 := rfl
@[simp] theorem takeMove_cfg (s : State) : (takeMove s).cfg = s.cfg := rfl
@[simp] theorem takeMove_init (s : State) : (takeMove s).init = s.init := rfl
@[simp] theorem takeMove_freq (s : State) : (takeMove s).freq = s.freq := rfl
@[simp] theorem takeMove_thresh (s : State) : (takeMove s).thresh = s.thresh := rfl
@[simp] theorem takeMove_lastLevel (s : State) : (takeMove s).lastLevel = s.lastLevel := rfl
@[simp] theorem takeMove_lastValid (s : State) : (takeMove s).lastValid = s.lastValid := rfl
@[simp] theorem takeMove_result (s : State) : (takeMove s).result = s.result := rfl
@[simp] theorem takeMove_sticky (s : State) : (takeMove s).sticky = s.sticky := rfl
@[simp] theorem takeMove_seq (s : State) : (takeMove s).seq = s.seq := rfl
@[simp] theorem takeMove_holdMs (s : State) : (takeMove s).holdMs = s.holdMs := rfl
@[simp] theorem takeMove_mon (s : State) : (takeMove s).mon = s.mon := rfl
@[simp] theorem takeMove_cmdLo (s : State) : (takeMove s).cmdLo = s.cmdLo := rfl
@[simp] theorem takeMove_expander (s : State) : (takeMove s).expander = s.expander := rfl
@[simp] theorem takeMove_trace (s : State) : (takeMove s).trace = s.trace := rfl
@[simp] theorem takeMove_levels (s : State) : (takeMove s).levels = s.levels := rfl
@[simp] theorem takeMove_draws (s : State) : (takeMove s).draws = s.draws := rfl
@[simp] theorem takeMove_readData (s : State) : (takeMove s).readData = s.readData := rfl

/-- Everything a command's meaning can do: a run of its procedure calls, or the one effect of a command without
any. -/
theorem exec_cases {i : Instr} {s t : State} (h : exec i s = .next t) :
    (∃ ops, commandOps s.cfg i = some ops ∧ t = runOps ops s) ∨
    (i = .nop ∧ t = s) ∨
    (∃ pin cond, i = .lread pin cond ∧
      t = { analogRead pin s with result := condHolds cond (analogAnswer pin s).toNat s.thresh }) ∨
    (∃ v, i = .lsens v ∧ t = { s with thresh := BitVec.ofInt 32 v }) ∨
    (∃ pin cond, i = .lwatch pin cond ∧
      t = if monFull s then setFlag .dropped s else { s with mon := s.mon ++ [⟨pin, cond, .sample⟩] }) ∨
    (∃ mask, i = .sclr mask ∧ t = { s with sticky := stickyClear mask s.sticky }) ∨
    (∃ rest, i = .reservedF rest ∧ t = setFlag .illegal s) := by
  cases hc : commandOps s.cfg i with
  | some ops =>
    rw [exec_of_commandOps hc] at h
    exact .inl ⟨ops, rfl, (Host.Outcome.next.inj h).symm⟩
  | none =>
    cases i <;> simp only [commandOps, reduceCtorEq] at hc
    all_goals have h := (Host.Outcome.next.inj h).symm
    · exact .inr (.inl ⟨rfl, h⟩)
    · exact .inr (.inr (.inl ⟨_, _, rfl, h⟩))
    · exact .inr (.inr (.inr (.inl ⟨_, rfl, h⟩)))
    · exact .inr (.inr (.inr (.inr (.inl ⟨_, _, rfl, h⟩))))
    · exact .inr (.inr (.inr (.inr (.inr (.inl ⟨_, rfl, h⟩)))))
    · exact .inr (.inr (.inr (.inr (.inr (.inr ⟨_, rfl, h⟩)))))

/-- Everything the issue of a word can do (R99). -/
theorem issue_cases {w : Command} {s t : State} (h : issue w s = .next t) :
    (s.seq ≠ .idle ∧ t = setFlag .overrun s) ∨
    (s.seq = .idle ∧ (∃ e, decode w = .error e) ∧ t = setFlag .illegal s) ∨
    (s.seq = .idle ∧ ∃ i, decode w = .ok i ∧ exec i s = .next t) := by
  unfold issue at h
  split at h
  · rename_i hb
    exact .inl ⟨(busy_iff s).1 hb, (Host.Outcome.next.inj h).symm⟩
  · rename_i hb
    have hi : s.seq = .idle := by rw [busy_iff] at hb; exact not_not.1 hb
    split at h
    · rename_i e he
      exact .inr (.inl ⟨hi, ⟨e, he⟩, (Host.Outcome.next.inj h).symm⟩)
    · rename_i i he
      exact .inr (.inr ⟨hi, i, he, h⟩)

/-- An admitted host access lies at an aligned offset below 0x40 from the base. -/
theorem hostOffset_eq_some {p : Params} {address size off : Nat} (h : hostOffset p address size = some off) :
    size = 4 ∧ address = p.hostBase + off ∧ off % 4 = 0 ∧ off < 0x40 := by
  unfold hostOffset at h
  split at h
  · rename_i hc
    have := Option.some.inj h
    omega
  · cases h

/-- An aligned 32-bit access below 0x40 from the base is admitted. -/
theorem hostOffset_of_offset (p : Params) {off : Nat} (h : off % 4 = 0) (h' : off < 0x40) :
    hostOffset p (p.hostBase + off) 4 = some off := by
  simp [hostOffset, h, h']

/-- Everything one move can do. -/
theorem doMove_cases {m : Move} {s t : State} (h : doMove m s = .next t) :
    (∃ off v, m = .hostWrite (s.cfg.hostBase + off) 4 v ∧ off ≠ 0x04 ∧
      (t = s ∨ (off = 0 ∧ t = { s with cmdLo := v }))) ∨
    (∃ v, m = .hostWrite (s.cfg.hostBase + 0x04) 4 v ∧ issue (v ++ s.cmdLo) s = .next t) ∨
    (∃ off, m = .hostRead (s.cfg.hostBase + off) 4 ∧ t = { s with readData := hostRegister off s }) ∨
    (∃ k, m = .timerSeq ∧ s.seq = .running k false ∧ t = { s with seq := .running k true }) ∨
    (∃ k, m = .sequencer ∧ s.seq = .running k true ∧ t = runOps k { s with seq := .idle }) ∨
    (∃ i pin cond, m = .timerMon i ∧ s.mon[i]? = some ⟨pin, cond, .sleeping⟩ ∧
      t = { s with mon := s.mon.set i ⟨pin, cond, .sample⟩ }) ∨
    (∃ i pin cond, m = .tick i ∧ s.mon[i]? = some ⟨pin, cond, .sample⟩ ∧
      t = monitorTick i ⟨pin, cond, .sample⟩ s) ∨
    (m = .powerOn ∧ t = powerOn s) := by
  cases m with
  | hostWrite address size v =>
    simp only [doMove, hostWrite] at h
    split at h
    · rename_i off ha
      obtain ⟨rfl, rfl, -, -⟩ := hostOffset_eq_some ha
      unfold writeRegister at h
      split at h
      · exact .inl ⟨_, _, rfl, by decide, .inr ⟨rfl, (Host.Outcome.next.inj h).symm⟩⟩
      · exact .inr (.inl ⟨v, rfl, h⟩)
      · rename_i h₀ h₁
        exact .inl ⟨_, _, rfl, h₁, .inl (Host.Outcome.next.inj h).symm⟩
    · cases h
  | hostRead address size =>
    simp only [doMove, hostRead] at h
    split at h
    · rename_i off ha
      obtain ⟨rfl, rfl, -, -⟩ := hostOffset_eq_some ha
      exact .inr (.inr (.inl ⟨off, rfl, (Host.Outcome.next.inj h).symm⟩))
    · cases h
  | timerSeq =>
    simp only [doMove, timerSeq] at h
    split at h
    · rename_i k e
      exact .inr (.inr (.inr (.inl ⟨k, rfl, e, (Host.Outcome.next.inj h).symm⟩)))
    · cases h
  | sequencer =>
    simp only [doMove, resume] at h
    split at h
    · rename_i k e
      exact .inr (.inr (.inr (.inr (.inl ⟨k, rfl, e, (Host.Outcome.next.inj h).symm⟩))))
    · cases h
  | timerMon i =>
    simp only [doMove, timerMon] at h
    split at h
    · rename_i pin cond e
      exact .inr (.inr (.inr (.inr (.inr (.inl ⟨i, pin, cond, rfl, e, (Host.Outcome.next.inj h).symm⟩)))))
    · cases h
  | tick i =>
    simp only [doMove, tick] at h
    split at h
    · rename_i pin cond e
      exact .inr (.inr (.inr (.inr (.inr (.inr (.inl ⟨i, pin, cond, rfl, e, (Host.Outcome.next.inj h).symm⟩))))))
    · cases h
  | powerOn => exact .inr (.inr (.inr (.inr (.inr (.inr (.inr ⟨rfl, (Host.Outcome.next.inj h).symm⟩))))))

/-- A step is the next move, or waits where there is none. -/
theorem step_cases {s t : State} (h : step s = .next t) :
    coilMapOk s.cfg.coilMap = true ∧
      ((nextMove s = none ∧ t = s) ∨
        ∃ m, nextMove s = some m ∧ doMove m (takeMove s) = .next t) := by
  simp only [step, stepMove] at h
  split at h
  · rename_i hc
    refine ⟨hc, ?_⟩
    split at h
    · rename_i e; exact .inl ⟨e, (Host.Outcome.next.inj h).symm⟩
    · rename_i m e; exact .inr ⟨m, e, h⟩
  · cases h

/-- A scheduled step is its move on the state without it. -/
theorem step_of_scheduled {s u : State} {m : Move} (h : scheduled s m u) : step s = doMove m u := by
  obtain ⟨hc, hm, rfl⟩ := h
  simp [step, stepMove, hc, hm, takeMove]

/-- What is listed first is taken first. -/
theorem nextMove_cons {s : State} {m : Move} {ms : List Move} (h : s.moves = m :: ms) : nextMove s = some m := by
  simp [nextMove, h]

/-- A listed move is scheduled. -/
theorem scheduled_of_moves {s : State} {m : Move} {ms : List Move} (hc : coilMapOk s.cfg.coilMap = true)
    (hm : s.moves = m :: ms) : scheduled s m (takeMove s) := ⟨hc, nextMove_cons hm, rfl⟩

/-- With nothing listed, an agent whose turn it is takes its step if it has one. -/
theorem nextMove_turn {s : State} {m : Move} (hm : s.moves = []) (h : agentMove s (s.turn % agentCount s) = some m) :
    nextMove s = some m := by
  simp only [nextMove, hm]
  rw [show agentCount s = s.mon.length + 1 from rfl] at h ⊢
  simp [List.range_succ_eq_map, h]

/-- With nothing listed, the next move is some agent's step. -/
theorem nextMove_agent {s : State} {m : Move} (hm : s.moves = []) (h : nextMove s = some m) :
    ∃ agent, agentMove s agent = some m := by
  simp only [nextMove, hm] at h
  obtain ⟨_, _, hj⟩ := List.exists_of_findSome?_eq_some h
  exact ⟨_, hj⟩

/-- Within one round every agent's turn comes. -/
theorem turn_comes (turn count agent : Nat) (h : agent < count) : ∃ j < count, (turn + j) % count = agent := by
  refine ⟨(agent + (count - turn % count)) % count, Nat.mod_lt _ (by omega), ?_⟩
  have hlt := Nat.mod_lt turn (show 0 < count by omega)
  have hd : turn = turn % count + count * (turn / count) := (Nat.mod_add_div _ _).symm
  rw [Nat.add_mod_mod, show turn + (agent + (count - turn % count)) = agent + count * (turn / count + 1) by
    rw [Nat.mul_add]; omega, Nat.add_mul_mod_self_left, Nat.mod_eq_of_lt h]

/-- With nothing listed, there is a next move as soon as one agent has a step. -/
theorem nextMove_ne_none {s : State} {agent : Nat} (hm : s.moves = []) (ha : agent < agentCount s)
    (h : agentMove s agent ≠ none) : nextMove s ≠ none := by
  simp only [nextMove, hm]
  intro hn
  rw [List.findSome?_eq_none_iff] at hn
  obtain ⟨j, hj, e⟩ := turn_comes s.turn (agentCount s) agent ha
  exact h (e ▸ hn j (List.mem_range.2 hj))

/-- A registered monitor always has a step (R216). -/
theorem agentMove_monitor {s : State} {i : Nat} (h : i < s.mon.length) :
    agentMove s (i + 1) = some (.timerMon i) ∨ agentMove s (i + 1) = some (.tick i) := by
  simp only [agentMove, List.getElem?_eq_getElem h]
  rcases s.mon[i] with ⟨p, c, _ | _⟩
  · exact .inr rfl
  · exact .inl rfl

/-- A run of the machine begins with a step. -/
theorem core_run_next (n : Nat) {s t : State} (h : step s = .next t) :
    Host.Core.run Sys2Proof.core (n + 1) s = Host.Core.run Sys2Proof.core n t := by
  have h' : Sys2Proof.core.step s = .next t := h
  simp [Host.Core.run, h']

/-- A run of m + n steps is a run of n steps from where m steps lead. -/
theorem core_run_add (m n : Nat) {s t : State} (h : Host.Core.run Sys2Proof.core m s = .next t) :
    Host.Core.run Sys2Proof.core (m + n) s = Host.Core.run Sys2Proof.core n t := by
  induction m generalizing s with
  | zero =>
    have e : s = t := Host.Outcome.next.inj h
    rw [e, Nat.zero_add]
  | succ m ih =>
    cases e : step s with
    | next u => rw [core_run_next _ e] at h; rw [Nat.add_right_comm, core_run_next _ e, ih h]
    | fault f =>
      have e' : Sys2Proof.core.step s = .fault f := e
      simp [Host.Core.run, e'] at h
    | refused f =>
      have e' : Sys2Proof.core.step s = .refused f := e
      simp [Host.Core.run, e'] at h

/-- Everything a monitor tick can change. -/
theorem monitorTick_shape (i : Nat) (m : Monitor) (s : State) :
    ∃ new, (new = [] ∨ new = [.raise (eventId m.pin m.cond) (eventPayload m.pin m.cond (analogAnswer m.pin s))]) ∧
      monitorTick i m s =
        { s with
          lastLevel := BitVec.ofNat 32 (analogAnswer m.pin s).val
          lastValid := true
          mon := s.mon.set i { m with phase := .sleeping }
          levels := s.levels.tail
          draws := s.draws + 1
          trace := s.trace ++ [.analogRead m.pin (analogAnswer m.pin s)] ++ new ++ [.sleepMillis sampleMs] } := by
  unfold monitorTick
  dsimp only
  split
  · exact ⟨_, .inr rfl, by simp [record, raiseEvent, analogRead]⟩
  · exact ⟨[], .inl rfl, by simp [record, analogRead]⟩

/-- A command keeps what every single procedure call and every register update of a command keeps. -/
theorem exec_keeps {P : State → Prop}
    (hop : ∀ op s, P s → P (runOp op s).1) (hs : ∀ k s, P s → P (suspend k s))
    (hread : ∀ pin (r : Bool) s, P s → P { analogRead pin s with result := r })
    (hth : ∀ v s, P s → P { s with thresh := v })
    (hmon : ∀ m s, P s → P { s with mon := m })
    (hst : ∀ k s, P s → P { s with sticky := k })
    {i : Instr} {s t : State} (h : exec i s = .next t) (hp : P s) : P t := by
  rcases exec_cases h with ⟨ops, _, rfl⟩ | ⟨_, rfl⟩ | ⟨pin, c, _, rfl⟩ | ⟨v, _, rfl⟩ | ⟨pin, c, _, rfl⟩ | ⟨m, _, rfl⟩ |
    ⟨r, _, rfl⟩
  · exact runOps_keeps hop hs ops s hp
  · exact hp
  · exact hread _ _ _ hp
  · exact hth _ _ hp
  · split
    · exact hst _ _ hp
    · exact hmon _ _ hp
  · exact hst _ _ hp
  · exact hst _ _ hp

/-- A step keeps what every procedure call, every register update, a monitor's tick and power-on reset keep: the one
induction behind the invariants of the machine. -/
theorem step_keeps {P : State → Prop}
    (hop : ∀ op s, P s → P (runOp op s).1) (hseq : ∀ k s, P s → P { s with seq := k })
    (hread : ∀ pin (r : Bool) s, P s → P { analogRead pin s with result := r })
    (hth : ∀ v s, P s → P { s with thresh := v })
    (hmon : ∀ m s, P s → P { s with mon := m })
    (hst : ∀ k s, P s → P { s with sticky := k })
    (hmv : ∀ s, P s → P (takeMove s))
    (hlo : ∀ k s, P s → P { s with cmdLo := k })
    (hrd : ∀ k s, P s → P { s with readData := k })
    (htick : ∀ i m s, P s → P (monitorTick i m s))
    (hpow : ∀ s, P s → P (powerOn s))
    {s t : State} (h : step s = .next t) (hp : P s) : P t := by
  obtain ⟨_, ⟨_, rfl⟩ | ⟨m, _, h⟩⟩ := step_cases h
  · exact hp
  have hp := hmv s hp
  rcases doMove_cases h with ⟨_, v, _, _, rfl | ⟨_, rfl⟩⟩ | ⟨v, _, h⟩ | ⟨o, _, rfl⟩ | ⟨k, _, _, rfl⟩ |
    ⟨k, _, _, rfl⟩ | ⟨i, p, c, _, _, rfl⟩ | ⟨i, p, c, _, _, rfl⟩ | ⟨_, rfl⟩
  · exact hp
  · exact hlo _ _ hp
  · rcases issue_cases h with ⟨_, rfl⟩ | ⟨_, _, rfl⟩ | ⟨_, i, _, h⟩
    · exact hst _ _ hp
    · exact hst _ _ hp
    · exact exec_keeps hop (fun k s => hseq _ s) hread hth hmon hst h hp
  · exact hrd _ _ hp
  · exact hseq _ _ hp
  · exact runOps_keeps hop (fun k s => hseq _ s) k _ (hseq _ _ hp)
  · exact hmon _ _ hp
  · exact htick _ _ _ hp
  · exact hpow _ hp

end Sys2Proof.Machine
end

