-- ==== Sys2Proof/Tests/Slice0.lean ====
section
/-! SUPPORT. Tests of the model's own work, one step each: ill-formed operands, words written out from the encoding,
vectors of spec/95_test_vectors.md, and a witness for the hypotheses of every obligation that has some. -/

namespace Sys2Proof.Tests

open Sys2Proof Machine Config

/-! Helpers. -/

/-- POR of 95_test_vectors.md section 0: reset on a freshly powered reference expander. -/
def por : State := { State.resetWith referenceParams with expander := [(0x00, 0x11)] }

/-- READY of 95_test_vectors.md section 0, the history left out. -/
def ready : State := { por with init := true, freq := 50, expander := [(0x00, 0xA1), (0xFE, 0x79)] }

/-- A state in the middle of the hold of V-ST-1, answered or not. -/
def holding (answered : Bool) : State :=
  { ready with seq := .running (pairStopOps .one) answered, holdMs := 125 }

/-- A state whose next step takes the move `m`. -/
def next (m : Move) (s : State) : State := { s with moves := [m] }

/-- `W` of the vectors. -/
def wr (bytes : List Byte) : PortEvent := .busWrite 0x40 bytes

/-- The next state of an outcome. -/
def after (o : Host.Outcome State Fault Refusal) : Option State :=
  match o with
  | .next t => some t
  | _ => none

/-- What a command records and the STATUS word it leaves. -/
def seen (i : Instr) (s : State) : Option (List PortEvent × Word32) :=
  (after (exec i s)).map (fun t => (t.trace, statusWord t))

/-- A state whose next step takes the host's write of `v` at a register offset. -/
def nextWrite (offset size : Nat) (v : Word32) (s : State) : State :=
  next (.hostWrite (s.cfg.hostBase + offset) size v) s

/-- A state whose next step takes the host's read at a register offset. -/
def nextRead (offset size : Nat) (s : State) : State := next (.hostRead (s.cfg.hostBase + offset) size) s

theorem scheduled_next {m : Move} {s : State} (h : coilMapOk s.cfg.coilMap = true) :
    ∃ u, scheduled (next m s) m u := ⟨_, h, rfl, rfl⟩

theorem hostWrites_next {off size : Nat} {v : Word32} {s : State} (h : coilMapOk s.cfg.coilMap = true) :
    ∃ u, hostWrites (nextWrite off size v s) off size v u := ⟨_, h, rfl, rfl⟩

theorem hostReads_next {off size : Nat} {s : State} (h : coilMapOk s.cfg.coilMap = true) :
    ∃ u, hostReads (nextRead off size s) off size u := ⟨_, h, rfl, rfl⟩

/-- The block at another `P_HOST_BASE`. -/
def moved : State := { ready with cfg := { ready.cfg with hostBase := 0x40001000 } }

theorem ready_ok : coilMapOk ready.cfg.coilMap = true := by decide

theorem reset_ok : coilMapOk State.reset.cfg.coilMap = true := by decide

/-! Well-formedness refuses one ill-formed term for each check (R92, R104). -/

theorem test_wf_setfreq : (Instr.setfreq 2147483648).wellFormed = false := by decide
theorem test_wf_setch_ch : (Instr.setch 128 0 0).wellFormed = false := by decide
theorem test_wf_setch_on : (Instr.setch 0 65536 0).wellFormed = false := by decide
theorem test_wf_setch_off : (Instr.setch 0 0 65536).wellFormed = false := by decide
theorem test_wf_choff : (Instr.choff (-129)).wellFormed = false := by decide
theorem test_wf_servo_idx : (Instr.servo 128 0).wellFormed = false := by decide
theorem test_wf_servo_deg : (Instr.servo 1 (-2147483649)).wellFormed = false := by decide
theorem test_wf_dcmotor_idx : (Instr.dcmotor (-129) .fwd 0).wellFormed = false := by decide
theorem test_wf_dcmotor_speed : (Instr.dcmotor 1 .rev 2147483648).wellFormed = false := by decide
theorem test_wf_mstop : (Instr.mstop 128).wellFormed = false := by decide
theorem test_wf_stepdeg_pair : (Instr.stepdeg 200 .fwd .a 1).wellFormed = false := by decide
theorem test_wf_stepdeg_deg : (Instr.stepdeg 1 .fwd .a 2147483648).wellFormed = false := by decide
theorem test_wf_stepturn_pair : (Instr.stepturn (-200) .fwd .b 1).wellFormed = false := by decide
theorem test_wf_stepturn_turns : (Instr.stepturn 1 .fwd .b (-2147483649)).wellFormed = false := by decide
theorem test_wf_lsens : (Instr.lsens 4294967295).wellFormed = false := by decide

/-! Words written out from the encoding (R91, R94; V-E-1 to V-E-26). -/

theorem test_decode_nop : decode 0x0000000000000000 = .ok .nop := by decide
theorem test_decode_init : decode 0x1000000000000000 = .ok .init := by decide
theorem test_decode_setfreq : decode 0x2000000000000064 = .ok (.setfreq 100) := by decide
theorem test_decode_setch : decode 0x303000000BB80064 = .ok (.setch 3 100 3000) := by decide
theorem test_decode_choff : decode 0x4FF0000000000000 = .ok (.choff (-1)) := by decide
theorem test_decode_servo : decode 0x5F9000000000005A = .ok (.servo (-7) 90) := by decide
theorem test_decode_dcmotor : decode 0x60100000FFFFFFCE = .ok (.dcmotor 1 .fwd (-50)) := by decide
theorem test_decode_mstop : decode 0x7020000000000000 = .ok (.mstop 2) := by decide
theorem test_decode_mstopall : decode 0x8000000000000000 = .ok .mstopall := by decide
theorem test_decode_stepdeg : decode 0x90280000FFFFFFA6 = .ok (.stepdeg 2 .rev .a (-90)) := by decide
theorem test_decode_stepturn : decode 0xA014000000000001 = .ok (.stepturn 1 .fwd .b 1) := by decide
theorem test_decode_lread : decode 0xB032000000000000 = .ok (.lread 3 .notInt) := by decide
theorem test_decode_lsens : decode 0xC0000000000001F4 = .ok (.lsens 500) := by decide
theorem test_decode_lwatch : decode 0xDC80000000000000 = .ok (.lwatch 200 .int) := by decide
theorem test_decode_sclr : decode 0xE000000000003F00 = .ok (.sclr 0x3F00) := by decide
theorem test_decode_reserved : decode 0xF000000000000000 = .ok (.reservedF 0) := by decide
theorem test_refuse_nop : decode 0x0000000100000000 = .error (.mustBeZero "NOP") := by decide
theorem test_refuse_init : decode 0x1000000000000001 = .error (.mustBeZero "INIT") := by decide
theorem test_refuse_choff : decode 0x4000000000000001 = .error (.mustBeZero "CHOFF") := by decide
theorem test_refuse_servo : decode 0x5008000000000000 = .error (.mustBeZero "SERVO") := by decide
theorem test_refuse_dcmotor : decode 0x6004000000000000 = .error (.mustBeZero "DCMOTOR") := by decide
theorem test_refuse_stepdeg : decode 0x9002000000000001 = .error (.mustBeZero "STEPDEG") := by decide
theorem test_refuse_lread : decode 0xB008000000000000 = .error (.mustBeZero "LREAD") := by decide
theorem test_refuse_lsens : decode 0xC010000000000000 = .error (.mustBeZero "LSENS") := by decide

/-- R95: no two rows match one word; every mask covers bits 63:60, every pattern differs there. -/
theorem test_rows_disjoint :
    ∀ a b : BitVec 4, a ≠ b →
      (opRow a).mask &&& (opRow b).mask &&& ((opRow a).pattern ^^^ (opRow b).pattern) ≠ 0 := by
  decide

/-- The fixed names place and read one word alike. -/
theorem test_table_word : decodeTableWord 64 0xE000000000003F00 = some (.sclr 0x3F00) := by decide

/-! One step each (95_test_vectors.md). -/

/-- V-B-1 -/
theorem test_nop : seen .nop ready = some ([], 0x0002) := by decide

/-- V-INIT-1 up to the suspension: STATUS is 0x0001. -/
theorem test_init :
    seen .init por =
      some ([wr [0x00, 0x00], .busRead 0x40 0x00 0x00, wr [0x00, 0x10], wr [0xFE, 0x79], wr [0x00, 0x00],
        .sleepMicros 5000], 0x0001) := by
  decide

/-- V-INIT-1 after it: the wake write, INIT, STATUS 0x0002. -/
theorem test_init_ends :
    ((after (exec .init por)).bind (fun s =>
      after (step (next .sequencer { s with seq := .running [.settled 0x00 50, .setInit] true })))).map
        (fun t => (t.trace.drop 6, t.freq, statusWord t)) =
      some ([wr [0x00, 0xA1]], 50, 0x0002) := by
  decide

/-- R126: `SETFREQ 100` on a device whose MODE1 reads 0xA1. -/
theorem test_setfreq :
    seen (.setfreq 100) ready =
      some ([.busRead 0x40 0x00 0xA1, wr [0x00, 0x31], wr [0xFE, 0x3C], wr [0x00, 0xA1], .sleepMicros 5000],
        0x0003) := by
  decide

/-- R126: hz = 0 is dropped. -/
theorem test_setfreq_zero : seen (.setfreq 0) ready = some ([], 0x0102) := by decide

/-- R128: `SETCH 3, 100, 3000`. -/
theorem test_setch : seen (.setch 3 100 3000) ready = some ([wr [0x12, 0x64, 0x00, 0xB8, 0x0B]], 0x0002) := by
  decide

/-- P2 step 6: 5000 is above 4095, written as masked. -/
theorem test_setch_masked : seen (.setch 12 0 5000) ready = some ([wr [0x36, 0x00, 0x00, 0x88, 0x13]], 0x0402) := by
  decide

/-- R129: `CHOFF 3`. -/
theorem test_choff : seen (.choff 3) ready = some ([wr [0x12, 0, 0, 0, 0]], 0x0002) := by decide

/-- R129: `CHOFF -1` is dropped. -/
theorem test_choff_dropped : seen (.choff (-1)) ready = some ([], 0x0102) := by decide

/-- Section 4: `SERVO 1, 90`. -/
theorem test_servo : seen (.servo 1 90) ready = some ([wr [0x26, 0x00, 0x00, 0x33, 0x01]], 0x0002) := by decide

/-- Section 4: -100 degrees truncate toward zero to -81 ticks. -/
theorem test_servo_negative : seen (.servo 1 (-100)) ready = some ([wr [0x26, 0x00, 0x00, 0xAF, 0xFF]], 0x0402) := by
  decide

/-- V-DC-2 -/
theorem test_dcmotor_rev :
    seen (.dcmotor 1 .rev 50) ready = some ([wr [0x1E, 0, 0, 0x02, 0x08], wr [0x22, 0, 0, 0, 0]], 0x0002) := by
  decide

/-- V-DC-3 -/
theorem test_dcmotor_clamped :
    seen (.dcmotor 2 .fwd 100) ready = some ([wr [0x1A, 0, 0, 0xFF, 0x0F], wr [0x16, 0, 0, 0, 0]], 0x0202) := by
  decide

/-- V-MS-3 -/
theorem test_mstop : seen (.mstop 3) ready = some ([wr [0x12, 0, 0, 0, 0], wr [0x0E, 0, 0, 0, 0]], 0x0002) := by
  decide

/-- V-MS-6 -/
theorem test_mstop_dropped : seen (.mstop 5) ready = some ([], 0x0102) := by decide

/-- V-MS-7, its length and its last burst. -/
theorem test_mstopall :
    (seen .mstopall ready).map (fun p => (p.1.length, p.1.getLast?, p.2)) =
      some (8, some (wr [0x06, 0, 0, 0, 0]), 0x0002) := by
  decide

/-- V-ST-2 up to the hold, with the default tables. -/
theorem test_stepdeg :
    seen (.stepdeg 1 .rev .a 90) ready =
      some ([wr [0x22, 0xFF, 0x07, 0xFF, 0x0F], wr [0x1A, 0x01, 0x00, 0xFF, 0x07], wr [0x1E, 0xFF, 0x03, 0xFF, 0x0B],
        wr [0x16, 0xFF, 0x0B, 0xFF, 0x03], .sleepMillis 125], 0x0003) := by
  decide

/-- V-ST-11: the pair check stands before the initialisation. -/
theorem test_stepdeg_pair : seen (.stepdeg 3 .fwd .a 90) por = some ([], 0x0100) := by decide

/-- V-ST-12 -/
theorem test_stepturn :
    (after (exec (.stepturn 1 .fwd .b 1) ready)).map (fun t => (t.trace.head?, t.holdMs)) =
      some (some (wr [0x22, 0xFF, 0x0B, 0xFF, 0x03]), 1000) := by
  decide

/-- V-ST-13 -/
theorem test_stepturn_zero : seen (.stepturn 1 .fwd .b 0) ready = some ([], 0x0802) := by decide

/-- V-ST-1 after the hold: the four stop bursts, and the block is idle. -/
theorem test_hold_ends :
    (after (step (next .sequencer (holding true)))).map (fun t => (t.trace, statusWord t)) =
      some ([wr [0x22, 0, 0, 0, 0], wr [0x1E, 0, 0, 0, 0], wr [0x1A, 0, 0, 0, 0], wr [0x16, 0, 0, 0, 0]], 0x0002) := by
  decide

/-- V-LR-1 -/
theorem test_lread :
    seen (.lread 3 .notInt) { ready with thresh := 500, levels := [300] } =
      some ([.analogRead 3 300], 0x0006) := by
  decide

/-- V-LR-4: at the threshold is not above it. -/
theorem test_lread_equal : seen (.lread 0 .int) { ready with levels := [20] } = some ([.analogRead 0 20], 0x0002) := by
  decide

/-- V-LR-7: `LSENS -1` stores -1. -/
theorem test_lsens : (after (exec (.lsens (-1)) ready)).map (·.thresh) = some 0xFFFFFFFF := by decide

/-- Section 8.3: `LWATCH` from POR registers and does not initialise. -/
theorem test_lwatch :
    (after (exec (.lwatch 3 .int) por)).map (fun t => (t.mon, hostRegister 0x20 t, statusWord t)) =
      some ([⟨3, .int, .sample⟩], 1, 0x0000) := by
  decide

/-- R215: a full capacity drops. -/
theorem test_lwatch_full :
    seen (.lwatch 3 .int) { por with cfg := { por.cfg with monCapacity := some 0 } } = some ([], 0x0100) := by
  decide

/-- V-B-5 -/
theorem test_sclr :
    (seen (.sclr 0x0100) { ready with sticky := ⟨true, true, true, false, false, false⟩ }) = some ([], 0x0602) := by
  decide

/-- V-B-2 -/
theorem test_reserved : seen (.reservedF 0) ready = some ([], 0x1002) := by decide

/-- V-L-1, third sample: 10 to 25 raises `E(0, INT)` once; the identifiers are free values. -/
theorem test_tick_raises :
    (monitorTick 0 ⟨0, .int, .sample⟩ { por with levels := [25], lastLevel := 10, lastValid := true }).trace =
      [.analogRead 0 25, .raise (eventBase + 0 + ccInt) (eventPayload 0 .int 25), .sleepMillis 200] := rfl

/-- V-L-6, first sample: with no previous sample nothing is raised. -/
theorem test_tick_first :
    (monitorTick 0 ⟨0, .int, .sample⟩ { por with levels := [25] }).trace = [.analogRead 0 25, .sleepMillis 200] := rfl

/-- V-B-8: a reserved word issued during a hold sets OVERRUN, not ILLEGAL. -/
theorem test_overrun_first :
    (after (step (nextWrite 0x04 4 0xF0000000 (holding false)))).map statusWord = some 0x2003 := by
  decide

/-- R33, R72: a register is read at its offset from `P_HOST_BASE`, and not below it. -/
theorem test_host_base :
    (after (step (next (.hostRead 0x40001010 4) moved))).map (·.readData) = some 20 ∧
      after (step (next (.hostRead 0x10 4) moved)) = none := by
  decide

/-- R284: with nothing listed a monitor ticks, sleeps and wakes again, the sequencer having no step. -/
theorem test_monitor_goes_on :
    nextMove { por with mon := [⟨0, .int, .sample⟩] } = some (.tick 0) ∧
      nextMove { por with mon := [⟨0, .int, .sleeping⟩], turn := 1 } = some (.timerMon 0) ∧
      nextMove por = none := by
  decide

/-- R296: a suspended command and a monitor take turns. -/
theorem test_turns :
    nextMove { holding false with mon := [⟨0, .int, .sleeping⟩] } = some .timerSeq ∧
      nextMove { holding false with mon := [⟨0, .int, .sleeping⟩], turn := 1 } = some (.timerMon 0) ∧
      nextMove { holding true with mon := [⟨0, .int, .sleeping⟩], turn := 2 } = some .sequencer := by
  decide

/-- R104: the assembler is not sensitive to case and gives V-E-12's word. -/
theorem test_assemble :
    assembleLine "stepdeg 2, REV, a, -90".toList = .ok [0x90280000FFFFFFA6] := by decide

/-- R104: an operand outside its field is an error. -/
theorem test_assemble_range : assembleLine "CHOFF 128".toList = .error .outOfRange := by decide

/-- R105: `STOPPAIR 2` is `MSTOP 3` then `MSTOP 4`. -/
theorem test_assemble_pseudo :
    assembleLine "STOPPAIR 2".toList = .ok [0x7030000000000000, 0x7040000000000000] := by decide

/-- R104: a pin outside 0..255 is an error; the text of V-E-12's command. -/
theorem test_assemble_pin : assembleLine "LREAD 256, INT".toList = .error .badOperands := by decide

theorem test_text : (Instr.stepdeg 2 .rev .a (-90)).text = some "STEPDEG 2, REV, A, -90".toList := by decide

/-! Witnesses: states and operands that meet the hypotheses of an obligation, clause by clause at the boundaries. -/

theorem test_witness_ResetTableOfValues :
    defaultParams.lightPrevInit = none ∧ { defaultParams with lightPrevInit := some 50 }.lightPrevInit = some 50 :=
  ⟨rfl, rfl⟩

theorem test_witness_PowerOnResetsTheBlockOnly : ∃ u, scheduled (next .powerOn (holding false)) .powerOn u :=
  scheduled_next ready_ok

theorem test_witness_StatusBitsAreTheTable :
    ∃ t, exec (.sclr 0x100) (setFlag .dropped ready) = .next t ∧
      stickyGet .dropped (setFlag .dropped ready).sticky = true ∧ stickyGet .dropped t.sticky = false :=
  ⟨_, rfl, by decide, by decide⟩

theorem test_witness_HostReadsAnswerTheMap :
    ∀ off ∈ [0x00, 0x04, 0x08, 0x0C, 0x10, 0x14, 0x18, 0x1C, 0x20, 0x24, 0x3C],
      (∃ u, hostReads (nextRead off 4 moved) off 4 u) ∧ off % 4 = 0 ∧ off < 0x40 ∧
        (off = 0x20 → (nextRead off 4 moved).mon.length < 4294967296) :=
  fun off h => ⟨hostReads_next ready_ok, by revert off; decide, by revert off; decide, fun _ => Nat.zero_lt_succ _⟩

theorem test_witness_HostWritesLatchOrAreIgnored :
    (∀ off ∈ [0x00, 0x04, 0x08, 0x3C], ∃ u, hostWrites (nextWrite off 4 7 moved) off 4 7 u) ∧
    0x08 % 4 = 0 ∧ 0x3C % 4 = 0 ∧ 0x3C < 0x40 :=
  ⟨fun _ _ => hostWrites_next ready_ok, by decide, by decide, by decide⟩

theorem test_witness_OtherHostAccessesAreRefused :
    ∀ p ∈ [(0x40001000, 1), (0x40001002, 4), (0x40001040, 4), (0x40001000, 8), (0x40000FFC, 4)],
      (p.2 ≠ 4 ∨ ∀ off, p.1 = moved.cfg.hostBase + off → off % 4 ≠ 0 ∨ 0x40 ≤ off) ∧
        (∃ u, scheduled (next (.hostWrite p.1 p.2 0) moved) (.hostWrite p.1 p.2 0) u) ∧
        ∃ u, scheduled (next (.hostRead p.1 p.2) moved) (.hostRead p.1 p.2) u := by
  intro p h
  refine ⟨?_, scheduled_next ready_ok, scheduled_next ready_ok⟩
  simp only [List.mem_cons, List.not_mem_nil, or_false] at h
  rw [show moved.cfg.hostBase = 0x40001000 from rfl]
  rcases h with rfl | rfl | rfl | rfl | rfl
  · exact .inl (by decide)
  · exact .inr fun off e => by omega
  · exact .inr fun off e => by omega
  · exact .inl (by decide)
  · exact .inr fun off e => by omega

theorem test_witness_StepRunsTheDecodedCommand :
    (∃ u, hostWrites (nextWrite 0x04 4 0x50100000 { ready with cmdLo := 90 }) 0x04 4 0x50100000 u) ∧
      ready.seq = .idle ∧ decode (0x50100000#32 ++ 90#32) = .ok (.servo 1 90) ∧
      coilMapOk State.reset.cfg.coilMap = true :=
  ⟨hostWrites_next ready_ok, rfl, by decide, reset_ok⟩

theorem test_witness_IssueFollowsTheAcceptanceRule :
    (∀ b v, (∃ u, hostWrites (nextWrite 0x04 4 v (holding b)) 0x04 4 v u) ∧ (holding b).busy = true) ∧
    (∀ v, (∃ u, hostWrites (nextWrite 0x04 4 v ready) 0x04 4 v u) ∧ ready.busy = false) ∧
    decode (0x00000001#32 ++ ready.cmdLo) = .error (.mustBeZero "NOP") ∧ opField (0xF0000000#32 ++ ready.cmdLo) = 0xF ∧
    decode (0x10000000#32 ++ ready.cmdLo) = .ok .init :=
  ⟨fun b _ => ⟨hostWrites_next ready_ok, by cases b <;> decide⟩, fun _ => ⟨hostWrites_next ready_ok, by decide⟩,
    by decide, by decide, by decide⟩

theorem test_witness_IllegalWordOnlySetsIllegal :
    (∃ u, hostWrites (nextWrite 0x04 4 0x00000001 ready) 0x04 4 0x00000001 u) ∧ ready.busy = false ∧
      (0x00000001#32 ++ 0#32 : Command) &&& (opRow (opField (0x00000001#32 ++ 0#32))).mask ≠
        (opRow (opField (0x00000001#32 ++ 0#32))).pattern ∧
      opField (0xF0000000#32 ++ 0#32) = 0xF :=
  ⟨hostWrites_next ready_ok, by decide, by decide, by decide⟩

theorem test_witness_DecodeOfEncodeIsTheCommand :
    ∀ i ∈ [Instr.nop, .init, .setfreq (-2147483648), .setfreq 2147483647, .setch (-128) 0 65535, .setch 127 65535 0,
        .choff (-128), .servo 127 (-2147483648), .dcmotor (-128) .rev 2147483647, .mstop 127, .mstopall,
        .stepdeg 127 .rev .b (-2147483648), .stepturn (-128) .fwd .a 2147483647, .lread 255 .notInt,
        .lsens (-2147483648), .lwatch 0 .int, .sclr 0xFFFFFFFF, .reservedF 0xFFFFFFFFFFFFFFF],
      i.WellFormed := by
  decide

theorem test_witness_EncodeOfDecodeIsTheWord : decode 0xDC80000000000000 = .ok (.lwatch 200 .int) := by decide

theorem test_witness_AcceptedExactlyWhenUnusedFieldsAreZero :
    opField 0x0000000000000000 ≠ 0xF ∧ opField 0xEFFFFFFFFFFFFFFF ≠ 0xF := by decide

/-- A line that assembles, a command too wide for its field, a text, and the edges of the pins, ticks and masks. -/
theorem test_witness_AssembledWordsAreLegalCommands :
    (∃ ws, assembleLine "SERVO 1, 90".toList = .ok ws) ∧
    (∃ i, parseLine "CHOFF 128".toList = .ok [i] ∧ i ∈ [i] ∧ ¬i.WellFormed) ∧
    (∃ line, (Instr.sclr 0x3F00).text = some line) ∧
    ((-1 : Int) < 0 ∨ (255 : Int) < -1) ∧ ((256 : Int) < 0 ∨ (255 : Int) < 256) ∧
    ((-1 : Int) < 0 ∨ (0 : Int) < 0) ∧ ((0 : Int) < 0 ∨ (-1 : Int) < 0) ∧ ((-1 : Int) < 0) ∧
    ((-2147483649 : Int) < -2147483648 ∨ (4294967295 : Int) < -2147483649) ∧
    ((4294967296 : Int) < -2147483648 ∨ (4294967295 : Int) < 4294967296) ∧
    "ALLOFF".toList.map Char.toUpper = "allOff".toList.map Char.toUpper :=
  ⟨⟨[0x501000000000005A], by decide⟩, ⟨.choff 128, by decide, by simp, by decide⟩, ⟨_, rfl⟩, by decide, by decide,
    by decide, by decide, by decide, by decide, by decide, by decide⟩

theorem test_witness_TickBytesAreLittleEndian :
    (0 : Int) ≤ 4095 ∧ (0x0F#8 &&& 0x0F = 0x0F) ∧ (0xFF#8 &&& 0x0F = 0x0F) := by decide

theorem test_witness_SetChannelDropsOrWritesOneBurst :
    ((-1 : Int) < 0 ∨ (15 : Int) < -1) ∧ ((16 : Int) < 0 ∨ (15 : Int) < 16) ∧ ((0 : Int) ≤ 0 ∧ (0 : Int) ≤ 15) ∧
      ((0 : Int) ≤ 15 ∧ (15 : Int) ≤ 15) := by decide

/-- SETCH, CHOFF, SERVO, MSTOPALL, and every other statement about an initialised block. -/
theorem test_witness_initialised : ready.init = true ∧ coilMapOk ready.cfg.coilMap = true := ⟨rfl, ready_ok⟩

theorem test_witness_ServoTicksRangeAndOrder :
    ((0 : Int) ≤ 0 ∧ (0 : Int) ≤ 180 ∧ (180 : Int) ≤ 180) ∧ (-60 : Int) ≤ -60 ∧ (-60 : Int) ≤ 1939 := by decide

theorem test_witness_PrescaleIsNearestAndFits : (1 : Int) ≤ 1 ∧ (1 : Int) ≤ 2147483647 := by decide

theorem test_witness_SetfreqRunsToTheSettleWait : ((0 : Int) ≤ 0 ∧ (-1 : Int) ≤ 0) ∧ (1 : Int) ≤ 1 := by decide

theorem test_witness_SettleWaitEndsWithTheWakeWrite :
    (∃ u, scheduled (next .sequencer { ready with seq := .running [.settled 0xA1 100] true }) .sequencer u) ∧
      (next .sequencer { ready with seq := .running [.settled 0xA1 100] true }).seq =
        .running (.settled 0xA1 100 :: []) true :=
  ⟨scheduled_next ready_ok, rfl⟩

theorem test_witness_LazyInitialisationComesFirst :
    por.init = false ∧
      ∀ i ∈ [Instr.setch 0 0 0, .choff 16, .servo 1 90, .dcmotor 1 .fwd 50, .mstop 0, .mstopall],
        writesChannels i = true := by
  decide

theorem test_witness_InitCompletesOnceAndIsIdempotent :
    (∃ u, scheduled (next .sequencer { por with seq := .running [.settled 0x00 50, .setInit] true }) .sequencer u) ∧
      ready.init = true :=
  ⟨scheduled_next (by decide), rfl⟩

theorem test_witness_DcmotorCompletes :
    ready.init = true ∧ ((0 : Int) < 1 ∨ (4 : Int) < 0) ∧ ((5 : Int) < 1 ∨ (4 : Int) < 5) ∧
      ((1 : Int) ≤ 1 ∧ (1 : Int) ≤ 4) ∧ ((1 : Int) ≤ 4 ∧ (4 : Int) ≤ 4) := by decide

theorem test_witness_DcmotorDrivesOneChannel :
    ∃ t u, exec (.dcmotor 1 .fwd 100) ready = .next t ∧ exec (.dcmotor 4 .rev 1) ready = .next u := ⟨_, _, rfl, rfl⟩

theorem test_witness_MstopCompletes :
    ready.init = true ∧ ((0 : Int) < 1 ∨ (4 : Int) < 0) ∧ ((1 : Int) ≤ 4 ∧ (4 : Int) ≤ 4) := by decide

theorem test_witness_ChannelCommandsFrame :
    ∃ t, writesChannels (.servo 9 90) = true ∧ ready.init = true ∧ exec (.servo 9 90) ready = .next t :=
  ⟨_, rfl, rfl, rfl⟩

theorem test_witness_BadPairOnlySetsDropped : (90 : Int) ≠ 0 ∧ (0 : Int) ≠ 1 ∧ (0 : Int) ≠ 2 ∧ (3 : Int) ≠ 2 := by decide

theorem test_witness_StepperEnergizesAndHolds :
    (-90 : Int) ≠ 0 ∧ (360 : Int) = 360 * 1 ∧ 50000 * (-90 : Int).natAbs / 36000 = 125 ∧
      1000 * (360 : Int).natAbs / 360 = 1000 := by decide

theorem test_witness_StepperInitialisesAfterItsChecks :
    por.init = false ∧ (90 : Int) ≠ 0 ∧ (-360 : Int) ≠ 0 ∧ (-360 : Int) = 360 * -1 ∧ ready.init = true ∧
      ready.cfg = por.cfg := by
  decide

theorem test_witness_HoldEndsWithThePairStopped :
    (∃ u, scheduled (next .sequencer (holding true)) .sequencer u) ∧
      (next .sequencer (holding true)).seq = .running (pairStopOps .one) true ∧ (holding true).init = true :=
  ⟨scheduled_next ready_ok, rfl, rfl⟩

theorem test_witness_StepturnIsStepdegOf360 : (-1 : Int) ≠ 0 := by decide

theorem test_witness_HoldTimesAreFloorsAndFit : 1 ≤ 1 ∧ 1 ≤ 360 * 2 ^ 31 ∧ 360 * 2 ^ 31 ≤ 360 * 2 ^ 31 := by decide

theorem test_witness_LreadStoresTheAnswer : { ready with levels := [300] }.levels = 300 :: [] := rfl

theorem test_witness_LreadExtremeThresholds :
    (∃ t, exec (.lread 0 .int) { ready with thresh := 1023 } = .next t) ∧
    (∃ t, exec (.lread 0 .int) { ready with thresh := 0xFFFFFFFF } = .next t) ∧
    1023 ≤ (1023#32).toInt ∧ (0xFFFFFFFF#32).toInt < 0 :=
  ⟨⟨_, rfl⟩, ⟨_, rfl⟩, by decide, by decide⟩

theorem test_witness_LsensStoresVerbatim :
    (Instr.lsens 2147483647).WellFormed ∧ (Instr.lsens (-2147483648)).WellFormed := by decide

theorem test_witness_LwatchRegistersOrDrops :
    { defaultParams with monCapacity := some 0 }.monCapacity = some por.mon.length ∧
      por.cfg.monCapacity ≠ some por.mon.length := by decide

/-- A crossing whatever the level (INT above -1 after -1, NOTINT at or below 1023 after 1024), and none (no previous
level). -/
theorem test_witness_MonitorTickRule (c : Cond) (level : Level) :
    (∃ u, scheduled (next (.tick 0) { por with mon := [⟨0, c, .sample⟩] }) (.tick 0) u) ∧
      [(⟨0, c, .sample⟩ : Monitor)][0]? = some ⟨0, c, .sample⟩ ∧ por.lastValid = false ∧
      ((level.val : Int) > (0xFFFFFFFF#32).toInt ∧ (0xFFFFFFFF#32).toInt ≤ (0xFFFFFFFF#32).toInt) ∧
      ((level.val : Int) ≤ (1023#32).toInt ∧ (1024#32).toInt > (1023#32).toInt) := by
  have a : (0xFFFFFFFF#32).toInt = -1 := by decide
  have b : (1023#32).toInt = 1023 := by decide
  have d : (1024#32).toInt = 1024 := by decide
  have l : level.val ≤ 1023 := Nat.le_of_lt_succ level.isLt
  refine ⟨scheduled_next ready_ok, rfl, rfl, ?_, ?_⟩ <;> omega

theorem test_witness_TimerAnswersWakeTheirAgent :
    (∃ u, scheduled (next (.timerMon 0) { por with mon := [⟨0, .int, .sleeping⟩] }) (.timerMon 0) u) ∧
      (∃ u, scheduled (next .timerSeq (holding false)) .timerSeq u) ∧
      (holding false).seq = .running (pairStopOps .one) false :=
  ⟨scheduled_next (by decide), scheduled_next ready_ok, rfl⟩

/-- The two disciplines before a step, and a step. -/
theorem test_witness_EveryStepKeepsTheDisciplines :
    busDisciplined (next .powerOn ready) ∧ expanderDisciplined (next .powerOn ready) ∧
      ∃ t, step (next .powerOn ready) = .next t := by
  refine ⟨fun e he => (List.not_mem_nil he).elim, ⟨?_, ?_⟩, _, rfl⟩ <;> decide

/-- HistoryIsOnlyExtended and PersistentStateSurvivesEveryStep: a step that no power-on reset takes. -/
theorem test_witness_HistoryAndPersistence :
    ∃ t, step (next .timerSeq (holding false)) = .next t ∧
      nextMove (next .timerSeq (holding false)) ≠ some .powerOn :=
  ⟨_, rfl, by decide⟩

theorem test_witness_StickyFlagsStayUntilCleared :
    (∃ t, step (next .powerOn (setFlag .dropped ready)) = .next t ∧
      stickyGet .dropped (next .powerOn (setFlag .dropped ready)).sticky = true ∧
      stickyGet .dropped t.sticky = false) ∧
    ∃ t, step (nextWrite 0x04 4 0xE0000000 { setFlag .dropped ready with cmdLo := 0x100 }) = .next t ∧
      stickyGet .dropped t.sticky = false :=
  ⟨⟨_, rfl, by decide, by decide⟩, _, rfl, by decide⟩

theorem test_witness_RegistersHaveTheirOnlyWriters :
    ∃ t, exec (.lsens 500) ready = .next t ∧ t.thresh ≠ ready.thresh := ⟨_, rfl, by decide⟩

theorem test_witness_OtherCommandsTouchNoPwmState : ∃ t, exec (.lread 0 .int) ready = .next t := ⟨_, rfl⟩

theorem test_witness_StepperChangesNoFrequency :
    ready.init = true ∧ ∃ t, exec (.stepdeg 1 .fwd .a 90) ready = .next t := ⟨rfl, _, rfl⟩

theorem test_witness_WaitingCommandCannotBeDisturbed :
    ∃ t, (holding false).seq = .running (pairStopOps .one) false ∧
      step (nextWrite 0x04 4 0x70100000 (holding false)) = .next t ∧
      nextMove (nextWrite 0x04 4 0x70100000 (holding false)) ≠ some .timerSeq ∧
      nextMove (nextWrite 0x04 4 0x70100000 (holding false)) ≠ some .powerOn ∧
      nextMove (nextWrite 0x04 4 0x70100000 (holding false)) =
        some (.hostWrite ((holding false).cfg.hostBase + 0x04) 4 0x70100000) :=
  ⟨_, rfl, rfl, by decide, by decide, rfl⟩

theorem test_witness_SuspendedCommandsCompleteAndMonitorsGoOn :
    coilMapOk (holding false).cfg.coilMap = true ∧ (holding false).seq = .running (pairStopOps .one) false ∧
      (holding false).moves = [] ∧ 0 < { holding false with mon := [⟨0, .int, .sleeping⟩] }.mon.length :=
  ⟨ready_ok, rfl, rfl, by decide⟩

theorem test_witness_FreqIsReadByNoComputation :
    ∃ t, step (nextRead 0x08 4 ready) = .next t ∧
      nextMove (nextRead 0x08 4 ready) ≠ some (.hostRead (ready.cfg.hostBase + 0x0C) 4) :=
  ⟨_, rfl, by decide⟩

theorem test_witness_StickyFlagsAreReadByNoCommand : ∃ t, exec (.choff 16) ready = .next t := ⟨_, rfl⟩

theorem test_witness_IntermediatesFitSixtyFourBits :
    valFits (-2147483648) ∧ valFits 2147483647 ∧ (773094113280 : Nat) = (turnDegrees (-2147483648)).natAbs := by decide

end Sys2Proof.Tests
end

section
/-! The state's family: what reset leaves, and what a host write at each register offset does (spec/10_state.md). -/

namespace Sys2Proof.Machine

open Sys2Proof.Config

/-! Reset (R38). -/

@[simp] theorem stickyGet_clear (f : Flag) : stickyGet f Sticky.clear = false := by cases f <;> rfl

/-- With no previous light level configured, reset leaves no sample (R38, decision D25). -/
theorem resetWith_last_of_none {p : Params} (h : p.lightPrevInit = none) :
    (State.resetWith p).lastLevel = 0 ∧ (State.resetWith p).lastValid = false := by
  simp [State.resetWith, h]

/-- A configured previous light level is the sample reset leaves (R38, decision D25). -/
theorem resetWith_last_of_some {p : Params} {v : Word32} (h : p.lightPrevInit = some v) :
    (State.resetWith p).lastLevel = v ∧ (State.resetWith p).lastValid = true := by
  simp [State.resetWith, h]

theorem monCount_of_nil {s : State} (h : s.mon = []) : monCount s = 0 := by simp [monCount, h]

/-! The command latch (R35): only a host write to CMD_LO and power-on reset write it. -/

@[simp] theorem runOp_cmdLo (op : Op) (s : State) : (runOp op s).1.cmdLo = s.cmdLo := by
  obtain ⟨_, _, _, _, _, _, _, -, h⟩ := runOp_shape op s
  rw [h]

theorem exec_cmdLo {i : Instr} {s t : State} (h : exec i s = .next t) : t.cmdLo = s.cmdLo :=
  exec_keeps (P := fun t => t.cmdLo = s.cmdLo) (fun op u hu => (runOp_cmdLo op u).trans hu)
    (fun _ _ => id) (fun _ _ _ => id) (fun _ _ => id) (fun _ _ => id) (fun _ _ => id) h rfl

theorem issue_cmdLo {w : Command} {s t : State} (h : issue w s = .next t) : t.cmdLo = s.cmdLo := by
  rcases issue_cases h with ⟨-, rfl⟩ | ⟨-, -, rfl⟩ | ⟨-, i, -, he⟩
  · exact setFlag_cmdLo .overrun s
  · exact setFlag_cmdLo .illegal s
  · exact exec_cmdLo he

/-! Host writes by register offset (R33, R35, R36). -/

@[simp] theorem writeRegister_cmdLo (v : Word32) (s : State) :
    writeRegister 0x00 v s = .next { s with cmdLo := v } := rfl

@[simp] theorem writeRegister_cmdHi (v : Word32) (s : State) :
    writeRegister 0x04 v s = issue (v ++ s.cmdLo) s := rfl

theorem writeRegister_ignored {off : Nat} (h₀ : off ≠ 0x00) (h₁ : off ≠ 0x04) (v : Word32) (s : State) :
    writeRegister off v s = .next s := by
  unfold writeRegister
  split
  · contradiction
  · contradiction
  · rfl

/-- An admitted host write is the write of the register at its offset, on the state with the move taken. -/
theorem step_of_hostWrites {s u : State} {off : Nat} {v : Word32} (h : hostWrites s off 4 v u)
    (ha : off % 4 = 0) (hb : off < 0x40) : step s = writeRegister off v u := by
  have hu : u.cfg = s.cfg := by
    obtain ⟨-, -, rfl⟩ := h
    rfl
  rw [step_of_scheduled h, doMove, hostWrite, hu, hostOffset_of_offset s.cfg ha hb]

theorem cmdLo_of_hostWrites {s u : State} {off size : Nat} {v : Word32} (h : hostWrites s off size v u) :
    u.cmdLo = s.cmdLo := by
  obtain ⟨-, -, rfl⟩ := h
  rfl

/-! The obligations. -/

/-- Settles O1: R38's table field by field; only the previous light level depends on a case of the configuration. -/
theorem resetTableOfValues : Obligations.ResetTableOfValues := by
  refine ⟨fun p => ?_, ⟨rfl, rfl⟩, fun _ => rfl⟩
  have hmon : (State.resetWith p).mon = [] := rfl
  exact ⟨rfl, rfl, rfl, resetWith_last_of_none, fun _ => resetWith_last_of_some, rfl, stickyGet_clear,
    rfl, rfl, rfl, hmon, monCount_of_nil hmon, rfl, rfl, rfl⟩

/-- Settles O5: every admitted write is `writeRegister` at its offset, and no issued word writes the latch. -/
theorem hostWritesLatchOrAreIgnored : Obligations.HostWritesLatchOrAreIgnored := by
  refine ⟨fun s u v h => ?_, fun s u v h => ?_, fun s u off v h ha hlo hhi => ?_⟩
  · rw [step_of_hostWrites h (by decide) (by decide), writeRegister_cmdLo]
  · have hs : step s = issue (v ++ s.cmdLo) u := by
      rw [step_of_hostWrites h (by decide) (by decide), writeRegister_cmdHi, cmdLo_of_hostWrites h]
    refine ⟨hs, fun t ht => ?_⟩
    rw [hs] at ht
    exact (issue_cmdLo ht).trans (cmdLo_of_hostWrites h)
  · rw [step_of_hostWrites h ha hhi, writeRegister_ignored (by omega) (by omega)]

end Sys2Proof.Machine
end

section
/-! The bus discipline (spec/20_memory.md): what the block records on the bus is a form of R103 to device 0x40, reads
only MODE1 and waits only the settle time. -/

namespace Sys2Proof.Machine

open Sys2Proof.Config

/-! The transactions the block's procedures make have an allowed form (R61, R63, R103). -/

theorem writeForm_mode1 (b : Byte) : writeForm [regMode1, b] = true := rfl

theorem writeForm_prescale (b : Byte) : writeForm [regPrescale, b] = true := rfl

theorem writeForm_channel {c : Int} (h₀ : 0 ≤ c) (h₁ : c ≤ 15) (b₀ b₁ b₂ b₃ : Byte) :
    writeForm [channelBase c, b₀, b₁, b₂, b₃] = true := by
  have hb := channelBase_toNat h₀ h₁
  simp only [writeForm, decide_eq_true_eq]
  omega

theorem eventAllowed_busWrite {bytes : List Byte} (h : writeForm bytes = true) :
    eventAllowed (.busWrite expAddr bytes) = true := h

/-! The discipline speaks of the recorded history alone, so it is kept where only allowed events are appended. -/

theorem busDisciplined_append {s t : State} {new : List PortEvent} (ht : t.trace = s.trace ++ new)
    (hnew : ∀ e ∈ new, eventAllowed e = true) (hs : busDisciplined s) : busDisciplined t := by
  intro e he
  rw [ht, List.mem_append] at he
  exact he.elim (hs e) (hnew e)

theorem busDisciplined_record {e : PortEvent} {s : State} (he : eventAllowed e = true) (hs : busDisciplined s) :
    busDisciplined (record e s) :=
  busDisciplined_append (record_trace e s) (List.forall_mem_singleton.2 he) hs

theorem busDisciplined_busWrite {r : Byte} {bytes : List Byte} {s : State} (h : writeForm (r :: bytes) = true)
    (hs : busDisciplined s) : busDisciplined (busWrite r bytes s) :=
  busDisciplined_record (eventAllowed_busWrite h) hs

/-! The procedures of the PWM driver, one procedure call, a monitor's tick. -/

theorem busDisciplined_setChannel (c on off : Int) {s : State} (hs : busDisciplined s) :
    busDisciplined (setChannel c on off s) := by
  rcases setChannel_cases c on off s with e | ⟨h₀, h₁, k, -, e⟩ <;> rw [e]
  · exact hs
  · exact busDisciplined_busWrite (writeForm_channel h₀ h₁ _ _ _ _) hs

theorem busDisciplined_frequencyStart (hz : Int) {s : State} (hs : busDisciplined s) :
    busDisciplined (frequencyStart hz s) := by
  rw [frequencyStart_eq]
  refine busDisciplined_append rfl ?_ hs
  simp only [List.forall_mem_cons]
  exact ⟨rfl, eventAllowed_busWrite (writeForm_mode1 _), eventAllowed_busWrite (writeForm_prescale _),
    eventAllowed_busWrite (writeForm_mode1 _), rfl, List.forall_mem_nil _⟩

theorem busDisciplined_frequencyFinish (old : Byte) (hz : Int) {s : State} (hs : busDisciplined s) :
    busDisciplined (frequencyFinish old hz s) :=
  busDisciplined_busWrite (writeForm_mode1 (wakeByte s.cfg old)) hs

theorem busDisciplined_initStart {s : State} (hs : busDisciplined s) : busDisciplined (initStart s) :=
  busDisciplined_frequencyStart initHz (busDisciplined_busWrite (writeForm_mode1 _) hs)

theorem busDisciplined_runOp (op : Op) (s : State) (hs : busDisciplined s) : busDisciplined (runOp op s).1 := by
  cases op with
  | ensureInit =>
    rw [runOp]
    split
    · exact hs
    · exact busDisciplined_initStart hs
  | setFrequency hz => exact busDisciplined_frequencyStart hz hs
  | settled old hz => exact busDisciplined_frequencyFinish old hz hs
  | setInit => exact hs
  | setChannel c on off => exact busDisciplined_setChannel c on off hs
  | flag f => exact hs
  | hold h => exact busDisciplined_record rfl hs

theorem busDisciplined_analogRead (pin : Pin) {s : State} (hs : busDisciplined s) :
    busDisciplined (analogRead pin s) :=
  busDisciplined_record rfl hs

theorem busDisciplined_monitorTick (i : Nat) (m : Monitor) (s : State) (hs : busDisciplined s) :
    busDisciplined (monitorTick i m s) := by
  obtain ⟨new, hnew, e⟩ := monitorTick_shape i m s
  rw [e]
  refine busDisciplined_append
    (new := .analogRead m.pin (analogAnswer m.pin s) :: (new ++ [.sleepMillis sampleMs])) (by simp) ?_ hs
  rcases hnew with rfl | rfl <;> simp [eventAllowed]

/-! The obligation. -/

/-- Settles O47: the history grows only by procedure calls, analog reads and monitor ticks, and each of these appends
allowed events; every other part of a step leaves the history alone. -/
theorem everyStepKeepsTheBusDiscipline : Obligations.EveryStepKeepsTheBusDiscipline := fun _ _ hs h =>
  step_keeps (P := busDisciplined) busDisciplined_runOp (fun _ _ => id)
    (fun pin _ _ => busDisciplined_analogRead pin) (fun _ _ => id) (fun _ _ => id) (fun _ _ => id) (fun _ => id)
    (fun _ _ => id) (fun _ _ => id) busDisciplined_monitorTick (fun _ => id) h hs

end Sys2Proof.Machine
end

section
/-! The rows of the opcode table, field by field, and which words the decoder accepts (spec/30_encoding.md, R91 to
R98). -/

namespace Sys2Proof

/-! The decoder accepts a word exactly when it matches its opcode's row (R95, R97). -/

theorem decode_of_match {w : Command} (h : w &&& (opRow (opField w)).mask = (opRow (opField w)).pattern) :
    decode w = .ok (assembleOperands w) := if_pos h

theorem decode_of_mismatch {w : Command} (h : w &&& (opRow (opField w)).mask ≠ (opRow (opField w)).pattern) :
    decode w = .error (.mustBeZero (opRow (opField w)).mnemonic) := if_neg h

theorem exists_decode_ok_iff (w : Command) :
    (∃ i, decode w = .ok i) ↔ w &&& (opRow (opField w)).mask = (opRow (opField w)).pattern := by
  constructor
  · rintro ⟨i, hi⟩
    by_contra hne
    rw [decode_of_mismatch hne] at hi
    cases hi
  · exact fun h => ⟨_, decode_of_match h⟩

/-- A word with the reserved opcode is the encoding of the reserved command of its other bits (R242). -/
theorem encode_reservedF_of_opField {w : Command} (h : opField w = 0xF) :
    encode (.reservedF (w.extractLsb' 0 60)) = w := by
  have happ : opField w ++ w.extractLsb' 0 60 = w := BitVec.extractLsb'_append_extractLsb'
  rwa [h] at happ

/-- The reserved row matches whatever bits 59:0 hold (R98, R242). -/
theorem decode_of_opField_reserved {w : Command} (h : opField w = 0xF) :
    decode w = .ok (.reservedF (w.extractLsb' 0 60)) := by
  have hand := reserved_and_mask (w.extractLsb' 0 60)
  rw [encode_reservedF_of_opField h] at hand
  have hmatch : w &&& (opRow (opField w)).mask = (opRow (opField w)).pattern := by rw [h]; exact hand
  rw [decode_of_match hmatch, assembleOperands, h]
  rfl

/-! Each field of a row's mask is all ones or zero, by whether the opcode's form uses the field (R93, R95). -/

theorem opRow_mask_opField (op : BitVec 4) : opField (opRow op).mask = BitVec.allOnes 4 := by
  revert op; decide

theorem opRow_mask_rsv : ∀ {op : BitVec 4}, op ≠ 0xF → (opRow op).mask.extractLsb' 32 17 = BitVec.allOnes 17 := by
  decide

theorem opRow_mask_idxField : ∀ {op : BitVec 4}, op ≠ 0xF → idxField (opRow op).mask =
    if op ∈ ([0x3, 0x4, 0x5, 0x6, 0x7, 0x9, 0xA, 0xB, 0xD] : List (BitVec 4)) then 0 else BitVec.allOnes 8 := by
  decide

theorem opRow_mask_dir : ∀ {op : BitVec 4}, op ≠ 0xF →
    (opRow op).mask.getLsbD 51 = decide (op ∉ ([0x6, 0x9, 0xA] : List (BitVec 4))) := by
  decide

theorem opRow_mask_model : ∀ {op : BitVec 4}, op ≠ 0xF →
    (opRow op).mask.getLsbD 50 = decide (op ∉ ([0x9, 0xA] : List (BitVec 4))) := by
  decide

theorem opRow_mask_cond : ∀ {op : BitVec 4}, op ≠ 0xF →
    (opRow op).mask.getLsbD 49 = decide (op ∉ ([0xB, 0xD] : List (BitVec 4))) := by
  decide

theorem opRow_mask_valField : ∀ {op : BitVec 4}, op ≠ 0xF → valField (opRow op).mask =
    if op ∉ ([0x0, 0x1, 0x4, 0x7, 0x8, 0xB, 0xD] : List (BitVec 4)) then 0 else BitVec.allOnes 32 := by
  decide

/-- A row's pattern carries the opcode and nothing else (R95). -/
theorem opRow_pattern : ∀ {op : BitVec 4}, op ≠ 0xF → (opRow op).pattern = fieldsWord op 0 false false false 0 := by
  decide

/-! A word is known by its fields (R91). -/

@[simp] theorem fieldsWord_rsv (op : BitVec 4) (idx : BitVec 8) (dir model cond : Bool) (val : BitVec 32) :
    (fieldsWord op idx dir model cond val).extractLsb' 32 17 = 0 := by
  refine BitVec.eq_of_getLsbD_eq fun j hj => ?_
  have hlo : ¬32 + j < 32 := by omega
  have hhi : 32 + j < 49 := by omega
  simp [fieldsWord_getLsbD, hlo, hhi]

theorem eq_fieldsWord_iff (w : Command) (op : BitVec 4) (idx : BitVec 8) (dir model cond : Bool) (val : BitVec 32) :
    w = fieldsWord op idx dir model cond val ↔
      opField w = op ∧ w.extractLsb' 32 17 = 0 ∧ idxField w = idx ∧ w.getLsbD 51 = dir ∧ w.getLsbD 50 = model ∧
        w.getLsbD 49 = cond ∧ valField w = val := by
  constructor
  · rintro rfl
    exact ⟨fieldsWord_opField .., fieldsWord_rsv .., fieldsWord_idxField .., fieldsWord_getLsbD ..,
      fieldsWord_getLsbD .., fieldsWord_getLsbD .., fieldsWord_valField ..⟩
  · rintro ⟨rfl, hrsv, rfl, rfl, rfl, rfl, rfl⟩
    exact (fieldsWord_of_fields hrsv).symm

/-! Fields under a mask. -/

theorem opField_and (w m : Command) : opField (w &&& m) = opField w &&& opField m := BitVec.extractLsb'_and

theorem idxField_and (w m : Command) : idxField (w &&& m) = idxField w &&& idxField m := BitVec.extractLsb'_and

theorem valField_and (w m : Command) : valField (w &&& m) = valField w &&& valField m := BitVec.extractLsb'_and

/-- A mask that is zero on an exempt field leaves it free. -/
theorem and_exempt_eq_zero_iff {n : Nat} (x : BitVec n) (exempt : Prop) [Decidable exempt] :
    x &&& (if exempt then 0 else BitVec.allOnes n) = 0 ↔ (¬exempt → x = 0) := by
  split <;> simp [*]

/-- The match of a row, read field by field. -/
theorem match_iff_unused_fields_zero {w : Command} (h : opField w ≠ 0xF) :
    w &&& (opRow (opField w)).mask = (opRow (opField w)).pattern ↔
      w.extractLsb' 32 17 = 0 ∧
      (opField w ∉ ([0x3, 0x4, 0x5, 0x6, 0x7, 0x9, 0xA, 0xB, 0xD] : List (BitVec 4)) → idxField w = 0) ∧
      (opField w ∉ ([0x6, 0x9, 0xA] : List (BitVec 4)) → w.getLsbD 51 = false) ∧
      (opField w ∉ ([0x9, 0xA] : List (BitVec 4)) → w.getLsbD 50 = false) ∧
      (opField w ∉ ([0xB, 0xD] : List (BitVec 4)) → w.getLsbD 49 = false) ∧
      (opField w ∈ ([0x0, 0x1, 0x4, 0x7, 0x8, 0xB, 0xD] : List (BitVec 4)) → valField w = 0) := by
  rw [opRow_pattern h, eq_fieldsWord_iff, opField_and, BitVec.extractLsb'_and, idxField_and, valField_and,
    opRow_mask_opField, opRow_mask_rsv h, opRow_mask_idxField h, opRow_mask_valField h, and_exempt_eq_zero_iff,
    and_exempt_eq_zero_iff, not_not]
  simp only [BitVec.getLsbD_and, opRow_mask_dir h, opRow_mask_model h, opRow_mask_cond h, BitVec.and_allOnes,
    Bool.and_comm (w.getLsbD _), Bool.and_eq_false_imp, decide_eq_true_eq, true_and]

/-- Settles O13: acceptance is the match of the opcode's row, and that match read field by field is the list. -/
theorem acceptedExactlyWhenUnusedFieldsAreZero : Obligations.AcceptedExactlyWhenUnusedFieldsAreZero := fun w h =>
  (exists_decode_ok_iff w).trans (match_iff_unused_fields_zero h)

end Sys2Proof
end

section
/-! The acceptance of an issued word (spec/30_encoding.md, R97 to R99): busy, illegal, or run to an end or a suspension
point. -/

namespace Sys2Proof.Machine

/-! The three answers to an issued word. -/

theorem issue_of_busy {s : State} (h : s.busy = true) (w : Command) : issue w s = .next (setFlag .overrun s) :=
  if_pos h

theorem issue_of_decode_ok {s : State} (h : s.busy = false) {w : Command} {i : Instr} (hd : decode w = .ok i) :
    issue w s = exec i s := by
  simp [issue, h, hd]

theorem issue_of_decode_error {s : State} (h : s.busy = false) {w : Command} {e : DecodeError}
    (hd : decode w = .error e) : issue w s = .next (setFlag .illegal s) := by
  simp [issue, h, hd]

/-- The reserved opcode decodes, to a command that only sets ILLEGAL (R98, R242). -/
theorem issue_of_opField_reserved {s : State} (h : s.busy = false) {w : Command} (hop : opField w = 0xF) :
    issue w s = .next (setFlag .illegal s) :=
  issue_of_decode_ok h (decode_of_opField_reserved hop)

/-! A command's meaning is one atomic step from an idle block, to the command's end or to a suspension point. -/

/-- No command faults or is refused (R250). -/
theorem exec_next (i : Instr) (s : State) : ∃ t, exec i s = .next t := by
  cases i <;> exact ⟨_, rfl⟩

/-- No command runs, or one waits at a suspension point that the timer has not answered. -/
def idleOrSuspended (s : State) : Prop := s.seq = .idle ∨ ∃ k, s.seq = .running k false

theorem idleOrSuspended_of_seq {s t : State} (h : t.seq = s.seq) (hs : idleOrSuspended s) : idleOrSuspended t := by
  rwa [idleOrSuspended, h]

theorem idleOrSuspended_suspend (k : List Op) (s : State) : idleOrSuspended (suspend k s) := .inr ⟨k, rfl⟩

/-- A single procedure call leaves SEQ to the run it stands in. -/
@[simp] theorem runOp_seq (op : Op) (s : State) : (runOp op s).1.seq = s.seq := by
  obtain ⟨_, _, _, _, _, _, _, -, h⟩ := runOp_shape op s
  rw [h]

theorem exec_idleOrSuspended {i : Instr} {s t : State} (h : exec i s = .next t) (hs : s.seq = .idle) :
    idleOrSuspended t :=
  exec_keeps (P := idleOrSuspended) (fun op u => idleOrSuspended_of_seq (runOp_seq op u))
    (fun k u _ => idleOrSuspended_suspend k u) (fun _ _ _ => id) (fun _ _ => id) (fun _ _ => id) (fun _ _ => id) h
    (.inl hs)

/-! Taking the host's write changes neither the flags nor SEQ. -/

theorem sticky_of_hostWrites {s u : State} {off size : Nat} {v : Word32} (h : hostWrites s off size v u) :
    u.sticky = s.sticky := by
  obtain ⟨-, -, rfl⟩ := h
  rfl

theorem busy_of_hostWrites {s u : State} {off size : Nat} {v : Word32} (h : hostWrites s off size v u) :
    u.busy = s.busy := by
  obtain ⟨-, -, rfl⟩ := h
  rfl

theorem idle_of_not_busy {s : State} (h : s.busy = false) : s.seq = .idle := by
  simpa [State.busy] using h

/-! The obligations. -/

/-- Settles O8: the step issues the word on the state with the move taken, and each of the three answers is a case of
`issue`; a legal word's command ends or suspends. -/
theorem issueFollowsTheAcceptanceRule : Obligations.IssueFollowsTheAcceptanceRule := by
  intro s u v h
  obtain ⟨hstep, -⟩ := hostWritesLatchOrAreIgnored.2.1 s u v h
  rw [hstep, ← sticky_of_hostWrites h, ← busy_of_hostWrites h]
  refine ⟨fun hb => issue_of_busy hb _, fun hb => ⟨?_, fun i hi => ?_⟩⟩
  · rintro (⟨e, he⟩ | hop)
    · exact issue_of_decode_error hb he
    · exact issue_of_opField_reserved hb hop
  · obtain ⟨t, ht⟩ := exec_next i u
    rw [issue_of_decode_ok hb hi]
    exact ⟨rfl, t, ht, exec_idleOrSuspended ht (idle_of_not_busy hb)⟩

/-- Settles O9: such a word either does not decode or has the reserved opcode, the two illegal cases of the acceptance
rule. -/
theorem illegalWordOnlySetsIllegal : Obligations.IllegalWordOnlySetsIllegal := by
  intro s u v h hb hill
  obtain ⟨-, hidle⟩ := issueFollowsTheAcceptanceRule s u v h
  obtain ⟨hillegal, -⟩ := hidle hb
  refine hillegal (hill.symm.imp_left fun hne => ?_)
  exact ⟨_, decode_of_mismatch hne⟩

end Sys2Proof.Machine
end

section
/-! The PWM driver (spec/40_pwm_driver.md): what the one burst of `setChannel` records and leaves in the registers
(R121). -/

namespace Sys2Proof.Machine

open Sys2Proof.Config

/-! The bytes of a burst (R62, R67). -/

theorem tickLo_eq_ofInt (v : Int) : tickLo v = BitVec.ofInt 8 v := by
  rw [tickLo, byteAt, Int.shiftRight_zero]

theorem tickHi_eq_ofInt (mask : Byte) (v : Int) : tickHi mask v = BitVec.ofInt 8 (v / 256) &&& mask := by
  rw [tickHi, byteAt, Int.shiftRight_eq_div_pow]; rfl

theorem channelBase_eq_ofInt (c : Int) : channelBase c = BitVec.ofInt 8 (6 + 4 * c) := by
  rw [BitVec.ofInt_add]; rfl

/-! Reading a burst back (R63). -/

/-- A burst's later bytes do not reach round to its first register. -/
theorem toNat_ne_toNat_add_one_add (r : Byte) {j : Nat} (hj : j < 255) :
    r.toNat ≠ (r + 1 + BitVec.ofNat 8 j).toNat := by
  have hone : (1 : Byte).toNat = 1 := rfl
  simp only [BitVec.toNat_add, BitVec.toNat_ofNat, hone]
  omega

/-- A burst no longer than the register file leaves its k-th byte in the k-th register from its start. -/
theorem memRead_memWriteBytes_same (m : Mem) (r : Byte) {bs : List Byte} (hlen : bs.length ≤ 256) {k : Nat}
    (hk : k < bs.length) : memRead (memWriteBytes m r bs) (r + BitVec.ofNat 8 k).toNat = bs[k]? := by
  induction bs generalizing m r k with
  | nil => exact absurd hk (Nat.not_lt_zero k)
  | cons b rest ih =>
    rw [List.length_cons] at hlen hk
    rw [memWriteBytes]
    cases k with
    | zero =>
      rw [BitVec.add_zero, memRead_memWriteBytes_other _ _ _ fun j hj => toNat_ne_toNat_add_one_add r (by omega),
        memRead_memWrite_same, List.getElem?_cons_zero]
    | succ k =>
      have hnext : r + BitVec.ofNat 8 (k + 1) = r + 1 + BitVec.ofNat 8 k := by
        rw [BitVec.add_assoc, Nat.add_comm k 1, BitVec.ofNat_add]; rfl
      rw [hnext, ih _ _ (by omega) (by omega), List.getElem?_cons_succ]

/-! The registers after a channel's burst (R62, R121). -/

/-- The registers after the burst of `setChannel(c, on, off)` (R121). -/
def channelWritten (mask : Byte) (c on off : Int) (m : Mem) : Mem :=
  memWriteBytes m (channelBase c) [tickLo on, tickHi mask on, tickLo off, tickHi mask off]

section
variable {c : Int} (h₀ : 0 ≤ c) (h₁ : c ≤ 15)
include h₀ h₁

theorem memRead_channelWritten_same (mask : Byte) (on off : Int) (m : Mem) {k : Nat} (hk : k < 4) :
    memRead (channelWritten mask c on off m) (6 + 4 * c.toNat + k) =
      [tickLo on, tickHi mask on, tickLo off, tickHi mask off][k]? := by
  rw [← channelBase_add_toNat h₀ h₁ hk]
  exact memRead_memWriteBytes_same m _ (by simp) hk

theorem memRead_channelWritten_other (mask : Byte) (on off : Int) (m : Mem) {a : Nat} (ha : ¬ofChannel c a) :
    memRead (channelWritten mask c on off m) a = memRead m a := by
  refine memRead_memWriteBytes_other m _ _ fun k hk e => ha ?_
  rw [channelBase_add_toNat h₀ h₁ hk] at e
  have hk4 : k < 4 := hk
  unfold ofChannel
  omega

theorem channelHolds_channelWritten (mask : Byte) (on off : Int) (m : Mem) :
    channelHolds (channelWritten mask c on off m) mask c on off := by
  have hread := fun k => memRead_channelWritten_same h₀ h₁ mask on off m (k := k)
  simp only [tickLo_eq_ofInt, tickHi_eq_ofInt] at hread
  have haddr : ∀ k : Nat, (6 + k + 4 * c).toNat = 6 + 4 * c.toNat + k := by omega
  exact ⟨haddr 0 ▸ hread 0 (by decide), haddr 1 ▸ hread 1 (by decide), haddr 2 ▸ hread 2 (by decide),
    haddr 3 ▸ hread 3 (by decide)⟩

/-- On a channel 0..15, `setChannel` changes the flags, the history and the registers, and these so. -/
theorem setChannel_eq (on off : Int) (s : State) :
    setChannel c on off s = { s with
      sticky := if 0 ≤ on ∧ on ≤ 4095 ∧ 0 ≤ off ∧ off ≤ 4095 then s.sticky else { s.sticky with masked := true }
      trace := s.trace ++ [channelBurst s.cfg.tickHighMask c on off]
      expander := channelWritten s.cfg.tickHighMask c on off s.expander } := by
  have hburst : channelBurst s.cfg.tickHighMask c on off = .busWrite expAddr (channelBase c ::
      [tickLo on, tickHi s.cfg.tickHighMask on, tickLo off, tickHi s.cfg.tickHighMask off]) := by
    simp only [channelBase_eq_ofInt, tickLo_eq_ofInt, tickHi_eq_ofInt]; rfl
  rw [hburst]
  split
  case isTrue ht => exact setChannel_written ⟨h₀, h₁⟩ ht s
  case isFalse ht => exact setChannel_masked ⟨h₀, h₁⟩ ht s

end

/-! The obligation. -/

/-- Settles O17: a channel outside 0..15 only sets DROPPED; one inside has its burst written, which reads back in its
four registers and nowhere else. -/
theorem setChannelDropsOrWritesOneBurst : Obligations.SetChannelDropsOrWritesOneBurst := by
  refine fun c on off s => ⟨fun h => ?_, fun h₀ h₁ => ?_⟩
  · exact setChannel_dropped (by omega) on off s
  · exact ⟨_, setChannel_eq h₀ h₁ on off s, channelHolds_channelWritten h₀ h₁ _ on off s.expander,
      fun _ => memRead_channelWritten_other h₀ h₁ _ on off s.expander⟩

end Sys2Proof.Machine
end

section
/-! The hold time of a stepper command (spec/42_stepper_sequencer.md, R184): a floor quotient, its lower bounds and its
width. -/

namespace Sys2Proof.Machine

/-! The hold is the floor of the rule's quotient. -/

theorem holdDivisor_pos (model : Model) : 0 < holdDivisor model := by cases model <;> decide

theorem holdDivisor_mul_holdMs_le (model : Model) (m : Nat) :
    holdDivisor model * holdMs model m ≤ holdProduct model m :=
  Nat.mul_div_le _ _

theorem holdProduct_lt_holdDivisor_mul (model : Model) (m : Nat) :
    holdProduct model m < holdDivisor model * (holdMs model m + 1) :=
  Nat.lt_mul_div_succ _ (holdDivisor_pos model)

/-! A command always suspends: the divisor goes at least once (A) or twice (B) into the product of a nonzero
magnitude. -/

theorem one_le_holdMs_a {m : Nat} (h : 1 ≤ m) : 1 ≤ holdMs .a m := by
  have hlt : 50000 * m < 36000 * (holdMs .a m + 1) := holdProduct_lt_holdDivisor_mul .a m
  omega

theorem two_le_holdMs_b {m : Nat} (h : 1 ≤ m) : 2 ≤ holdMs .b m := by
  have hlt : 1000 * m < 360 * (holdMs .b m + 1) := holdProduct_lt_holdDivisor_mul .b m
  omega

/-! For the magnitudes a command can carry the hold fits its register. -/

/-- Model A's product bounds both models'. -/
theorem holdProduct_le (model : Model) (m : Nat) : holdProduct model m ≤ 50000 * m := by
  cases model
  case a => exact Nat.le_refl _
  case b => exact Nat.mul_le_mul_right m (by decide : 1000 ≤ 50000)

theorem holdMs_le (model : Model) (m : Nat) : holdMs model m ≤ 50000 * m :=
  (Nat.div_le_self _ _).trans (holdProduct_le model m)

theorem toNat_ofNat_holdMs {m : Nat} (h : 50000 * m < 2 ^ 63) (model : Model) :
    (BitVec.ofNat 64 (holdMs model m)).toNat = holdMs model m :=
  (BitVec.toNat_ofNat _ 64).trans (Nat.mod_eq_of_lt (((holdMs_le model m).trans_lt h).trans (by decide)))

/-! The obligation. -/

/-- Settles O38: the floor's two bounds for each model, the lower bounds they give, and the width from the product's
bound. -/
theorem holdTimesAreFloorsAndFit : Obligations.HoldTimesAreFloorsAndFit := by
  refine fun m hm => ⟨?_, ?_, fun hmax => ?_⟩
  · exact ⟨holdDivisor_mul_holdMs_le .a m, holdProduct_lt_holdDivisor_mul .a m, one_le_holdMs_a hm⟩
  · exact ⟨holdDivisor_mul_holdMs_le .b m, holdProduct_lt_holdDivisor_mul .b m, two_le_holdMs_b hm⟩
  · have hprod : 50000 * m < 2 ^ 63 := by omega
    exact ⟨hprod, toNat_ofNat_holdMs hprod⟩

end Sys2Proof.Machine
end

section
/-! The tick of a monitor of the phototransistor (spec/43_phototransistor.md): it raises its event exactly on a crossing
in its direction (R210 to R212). -/

namespace Sys2Proof.Machine

open Sys2Proof.Config

/-! The events of a sample. -/

/-- A sample is an edge exactly when there is a previous one and the two lie on different sides of THRESH, in the
direction the registration listens for (R211). -/
theorem edge_iff (cond : Cond) (level : Level) (s : State) :
    edge cond level s = true ↔ s.lastValid = true ∧
      ((cond = .int ∧ (level.val : Int) > s.thresh.toInt ∧ s.lastLevel.toInt ≤ s.thresh.toInt) ∨
        (cond = .notInt ∧ (level.val : Int) ≤ s.thresh.toInt ∧ s.lastLevel.toInt > s.thresh.toInt)) := by
  cases cond <;> simp [edge, above]

theorem condCode_eq_ite (cond : Cond) : condCode cond = if cond = .int then ccInt else ccNotInt := by
  cases cond <;> rfl

/-- The events a monitor's sample raises: one on an edge, none otherwise (R211). -/
def edgeEvents (pin : Pin) (cond : Cond) (level : Level) (s : State) : List PortEvent :=
  if edge cond level s then [.raise (eventId pin cond) (eventPayload pin cond level)] else []

theorem edgeEvents_of_edge {cond : Cond} {level : Level} {s : State} (h : edge cond level s = true) (pin : Pin) :
    edgeEvents pin cond level s =
      [.raise (eventBase + (pin.toNat : Int) + (if cond = .int then ccInt else ccNotInt))
        (eventPayload pin cond level)] := by
  rw [edgeEvents, if_pos h, eventId, condCode_eq_ite]

theorem edgeEvents_of_not_edge {cond : Cond} {level : Level} {s : State} (h : ¬edge cond level s = true) (pin : Pin) :
    edgeEvents pin cond level s = [] := if_neg h

/-! The tick as one update of the state. -/

/-- A monitor's tick, field by field (R211). -/
theorem monitorTick_eq (i : Nat) (m : Monitor) (s : State) :
    monitorTick i m s = { s with
      lastLevel := BitVec.ofNat 32 (analogAnswer m.pin s).val
      lastValid := true
      mon := s.mon.set i { m with phase := .sleeping }
      levels := s.levels.tail
      draws := s.draws + 1
      trace := s.trace ++ [.analogRead m.pin (analogAnswer m.pin s)] ++
        edgeEvents m.pin m.cond (analogAnswer m.pin s) s ++ [.sleepMillis 200] } := by
  unfold monitorTick edgeEvents
  dsimp only
  split
  case isTrue => rfl
  case isFalse => rw [List.append_nil]; rfl

/-- The scheduled tick of a monitor in phase SAMPLE is its `monitorTick` (R211). -/
theorem step_of_scheduled_tick {s u : State} {i : Nat} {pin : Pin} {cond : Cond} (h : scheduled s (.tick i) u)
    (hmon : s.mon[i]? = some ⟨pin, cond, .sample⟩) : step s = .next (monitorTick i ⟨pin, cond, .sample⟩ u) := by
  have hu : u.mon[i]? = some ⟨pin, cond, .sample⟩ := by
    obtain ⟨-, -, rfl⟩ := h
    exact hmon
  rw [step_of_scheduled h, doMove, tick, hu]

/-! The obligation. -/

/-- Settles O43: the step is the monitor's tick; the sample is the port's answer, and the events are those of an
edge. -/
theorem monitorTickRule : Obligations.MonitorTickRule := by
  intro s u i pin cond h hmon
  refine ⟨analogAnswer pin s, edgeEvents pin cond (analogAnswer pin s) s, ?_, fun hedge => ?_, fun hedge => ?_⟩
  · rw [step_of_scheduled_tick h hmon, monitorTick_eq]
    obtain ⟨-, -, rfl⟩ := h
    rfl
  · exact edgeEvents_of_edge ((edge_iff cond _ s).2 hedge) pin
  · exact edgeEvents_of_not_edge (mt (edge_iff cond _ s).1 hedge) pin

end Sys2Proof.Machine
end

section
/-! LSENS (spec/43_phototransistor.md, R214): its one word for each operand, and the operand it stores. -/

namespace Sys2Proof

/-! What a word decodes to (R94, R97). -/

theorem decode_eq_ok_iff (w : Command) (i : Instr) :
    decode w = .ok i ↔ w &&& (opRow (opField w)).mask = (opRow (opField w)).pattern ∧ assembleOperands w = i := by
  by_cases h : w &&& (opRow (opField w)).mask = (opRow (opField w)).pattern
  · rw [decode_of_match h, Except.ok.injEq, and_iff_right h]
  · rw [decode_of_mismatch h]
    exact iff_of_false nofun fun ⟨hmatch, _⟩ => h hmatch

/-- Only OP = 0xC names LSENS (R94), and its operand is `sval` (R92). -/
theorem assembleOperands_eq_lsens_iff (w : Command) (v : Int) :
    assembleOperands w = .lsens v ↔ opField w = 0xC ∧ sval w = v := by
  constructor
  · intro h
    unfold assembleOperands at h
    split at h <;> cases h
    next hop => exact ⟨BitVec.eq_of_toNat_eq hop, rfl⟩
  · rintro ⟨hop, rfl⟩
    rw [assembleOperands, hop]
    rfl

/-! An operand of the 32-bit range and its two's complement (R92). -/

theorem toInt_ofInt_of_valFits {v : Int} (h : valFits v) : (BitVec.ofInt 32 v).toInt = v :=
  BitVec.toInt_ofInt_eq_self (by decide) h.1 (Int.lt_add_one_of_le h.2)

theorem sval_eq_iff (w : Command) {v : Int} (h : valFits v) : sval w = v ↔ valField w = BitVec.ofInt 32 v := by
  rw [sval, ← BitVec.toInt_inj, toInt_ofInt_of_valFits h]

/-! The word of LSENS. -/

/-- The row of LSENS asks for zero in every field between its opcode and its operand (R93, R95). -/
theorem match_lsens_iff {w : Command} (h : opField w = 0xC) :
    w &&& (opRow (opField w)).mask = (opRow (opField w)).pattern ↔
      w.extractLsb' 32 17 = 0 ∧ idxField w = 0 ∧ w.getLsbD 51 = false ∧ w.getLsbD 50 = false ∧
        w.getLsbD 49 = false := by
  rw [match_iff_unused_fields_zero (by rw [h]; decide)]
  simp [h]

theorem decode_eq_lsens_iff (w : Command) {v : Int} (h : valFits v) :
    decode w = .ok (.lsens v) ↔ w = fieldsWord 0xC 0 false false false (BitVec.ofInt 32 v) := by
  rw [decode_eq_ok_iff, assembleOperands_eq_lsens_iff, sval_eq_iff w h, eq_fieldsWord_iff, and_left_comm]
  refine and_congr_right fun hop => ?_
  rw [match_lsens_iff hop]
  simp only [and_assoc]

end Sys2Proof

namespace Sys2Proof.Machine

/-! The obligation. -/

/-- Settles O41: the one word is that of LSENS's fields; what it stores reads back as the operand. -/
theorem lsensStoresVerbatim : Obligations.LsensStoresVerbatim := by
  intro v hv
  have hfits : valFits v := of_decide_eq_true hv
  exact ⟨fun w => decode_eq_lsens_iff w hfits, fun s => ⟨BitVec.ofInt 32 v, toInt_ofInt_of_valFits hfits, rfl⟩⟩

end Sys2Proof.Machine
end

section
/-! The block control commands (spec/44_block_control.md, R240 to R242): the words of NOP, SCLR and the reserved opcode,
and what each changes. -/

namespace Sys2Proof

/-! The opcode names the command (R94). -/

theorem opcode_assembleOperands (w : Command) : (assembleOperands w).opcode = opField w := by
  unfold assembleOperands
  split
  case h_16 => -- the reserved row takes what the fifteen named opcodes leave
    have hlt : (opField w).toNat < 16 := (opField w).isLt
    simp only [imp_false] at *
    have hop : (opField w).toNat = 15 := by omega
    exact (BitVec.eq_of_toNat_eq hop).symm
  all_goals exact (BitVec.eq_of_toNat_eq ‹_›).symm

theorem assembleOperands_eq_nop_iff (w : Command) : assembleOperands w = .nop ↔ opField w = 0x0 := by
  constructor
  · exact fun h => (opcode_assembleOperands w).symm.trans (congrArg Instr.opcode h)
  · intro hop
    rw [assembleOperands, hop]
    rfl

theorem assembleOperands_of_opField_sclr {w : Command} (h : opField w = 0xE) :
    assembleOperands w = .sclr (valField w) := by
  rw [assembleOperands, h]
  rfl

/-- Only OP = 0xE names SCLR (R94), and its mask is the raw bits of `VAL` (R241). -/
theorem assembleOperands_eq_sclr_iff (w : Command) (mask : BitVec 32) :
    assembleOperands w = .sclr mask ↔ opField w = 0xE ∧ valField w = mask := by
  constructor
  · intro h
    have hop : opField w = 0xE := (opcode_assembleOperands w).symm.trans (congrArg Instr.opcode h)
    rw [assembleOperands_of_opField_sclr hop] at h
    exact ⟨hop, Instr.sclr.inj h⟩
  · rintro ⟨hop, rfl⟩
    exact assembleOperands_of_opField_sclr hop

/-! Each command's only word is its encoding. -/

theorem decode_eq_nop_iff (w : Command) : decode w = .ok .nop ↔ w = encode .nop := by
  rw [decode_eq_ok_iff, assembleOperands_eq_nop_iff, encode, eq_fieldsWord_iff, and_comm]
  refine and_congr_right fun hop => ?_
  rw [match_iff_unused_fields_zero (by rw [hop]; decide)]
  simp [hop]

theorem decode_eq_sclr_iff (w : Command) (mask : BitVec 32) :
    decode w = .ok (.sclr mask) ↔ w = encode (.sclr mask) := by
  rw [decode_eq_ok_iff, assembleOperands_eq_sclr_iff, encode, eq_fieldsWord_iff, and_left_comm]
  refine and_congr_right fun hop => ?_
  rw [match_iff_unused_fields_zero (by rw [hop]; decide)]
  simp [hop, and_assoc]

theorem decode_eq_reservedF_iff (w : Command) (rest : BitVec 60) :
    decode w = .ok (.reservedF rest) ↔ w = encode (.reservedF rest) := by
  constructor
  · intro h
    obtain ⟨-, hi⟩ := (decode_eq_ok_iff w _).1 h
    have hop : opField w = 0xF := (opcode_assembleOperands w).symm.trans (congrArg Instr.opcode hi)
    rw [decode_of_opField_reserved hop] at h
    cases h
    exact (encode_reservedF_of_opField hop).symm
  · rintro rfl
    have hrest : (encode (.reservedF rest)).extractLsb' 0 60 = rest := BitVec.extractLsb'_append_eq_right
    rw [decode_of_opField_reserved (Laws.OpcodeField.reservedF rest), hrest]

end Sys2Proof

namespace Sys2Proof.Machine

/-! The obligation. -/

/-- Settles O45: each command's only word is its encoding, here written out, and each command is one update of the
flags. -/
theorem blockControlCommands : Obligations.BlockControlCommands :=
  ⟨decode_eq_nop_iff, decode_eq_sclr_iff, decode_eq_reservedF_iff, fun _ => rfl, fun _ _ => rfl, fun _ _ => rfl⟩

end Sys2Proof.Machine
end

section
/-! Hazards (spec/70_reset_and_hazards.md): a suspended command cannot be disturbed (R290, R295). -/

namespace Sys2Proof.Machine

/-! What a waiting command rests on. -/

/-- From `s` to `t` the running command, the expander and the registers the command is to write are as they were. -/
def commandUndisturbed (s t : State) : Prop :=
  t.seq = s.seq ∧ t.expander = s.expander ∧ t.init = s.init ∧ t.freq = s.freq ∧ t.holdMs = s.holdMs

theorem commandUndisturbed_refl (s : State) : commandUndisturbed s s := ⟨rfl, rfl, rfl, rfl, rfl⟩

theorem commandUndisturbed_setFlag (f : Flag) (s : State) : commandUndisturbed s (setFlag f s) :=
  commandUndisturbed_refl s

/-- A monitor's tick reads its pin and writes no register of a command (R211). -/
theorem commandUndisturbed_monitorTick (i : Nat) (m : Monitor) (s : State) :
    commandUndisturbed s (monitorTick i m s) := by
  rw [monitorTick_eq]
  exact commandUndisturbed_refl s

/-- To a busy block an issued word only adds OVERRUN (R99). -/
theorem commandUndisturbed_of_issue {w : Command} {s t : State} (hb : s.busy = true) (h : issue w s = .next t) :
    commandUndisturbed s t := by
  rw [issue_of_busy hb] at h
  cases h
  exact commandUndisturbed_setFlag .overrun s

/-! No move but the timer's answer and power-on reset reaches a waiting command. -/

theorem doMove_commandUndisturbed {m : Move} {s t : State} {k : List Op} (hseq : s.seq = .running k false)
    (htimer : m ≠ .timerSeq) (hpower : m ≠ .powerOn) (h : doMove m s = .next t) : commandUndisturbed s t := by
  rcases doMove_cases h with ⟨_, _, -, -, rfl | ⟨-, rfl⟩⟩ | ⟨v, -, hissue⟩ | ⟨_, -, rfl⟩ | ⟨_, hm, -, -⟩ |
    ⟨_, -, hanswered, -⟩ | ⟨_, _, _, -, -, rfl⟩ | ⟨i, pin, cond, -, -, rfl⟩ | ⟨hm, -⟩
  · exact commandUndisturbed_refl _
  · exact commandUndisturbed_refl s
  · exact commandUndisturbed_of_issue (busy_of_running hseq) hissue
  · exact commandUndisturbed_refl s
  · exact absurd hm htimer
  · rw [hseq] at hanswered
    cases hanswered
  · exact commandUndisturbed_refl s
  · exact commandUndisturbed_monitorTick i _ s
  · exact absurd hm hpower

theorem step_commandUndisturbed {s t : State} {k : List Op} (hseq : s.seq = .running k false)
    (htimer : nextMove s ≠ some .timerSeq) (hpower : nextMove s ≠ some .powerOn) (h : step s = .next t) :
    commandUndisturbed s t := by
  obtain ⟨-, ⟨-, rfl⟩ | ⟨m, hm, hmove⟩⟩ := step_cases h
  · exact commandUndisturbed_refl _
  · rw [hm, Ne, Option.some.injEq] at htimer hpower
    exact doMove_commandUndisturbed (s := takeMove s) hseq htimer hpower hmove

/-! The obligation. -/

/-- Settles O56: by cases on the move, every other step leaves the waiting command alone; the issued word is refused by
the acceptance rule. -/
theorem waitingCommandCannotBeDisturbed : Obligations.WaitingCommandCannotBeDisturbed := by
  intro s t k hseq hstep htimer hpower
  obtain ⟨hsq, hexp, hinit, hfreq, hhold⟩ := step_commandUndisturbed hseq htimer hpower hstep
  refine ⟨hsq, hexp, hinit, hfreq, hhold, fun v hv => ?_⟩
  obtain ⟨hc, -⟩ := step_cases hstep
  obtain ⟨hrefused, -⟩ := issueFollowsTheAcceptanceRule s (takeMove s) v ⟨hc, hv, rfl⟩
  rw [hrefused (busy_of_running hseq)] at hstep
  cases hstep
  rfl

end Sys2Proof.Machine
end

section
/-! The two round trips of the encoding (spec/30_encoding.md, R91 to R97): what a command's word decodes to, and which
command a word encodes. -/

namespace Sys2Proof

/-! The word of a command matches its opcode's row (R95). -/

theorem opField_encode (i : Instr) : opField (encode i) = i.opcode := by
  cases i
  case reservedF rest => exact Laws.OpcodeField.reservedF rest
  all_goals exact fieldsWord_opField _ _ _ _ _ _

/-- A word of fields matches its row when it leaves zero what the opcode's form does not use (R93). -/
theorem encode_matches (i : Instr) :
    encode i &&& (opRow (opField (encode i))).mask = (opRow (opField (encode i))).pattern := by
  cases i
  case reservedF rest =>
    rw [opField_encode]
    exact reserved_and_mask rest
  all_goals
    rw [match_iff_unused_fields_zero (by rw [opField_encode]; simp [Instr.opcode]), opField_encode]
    simp [-BitVec.getLsbD_eq_getElem, encode, fieldsWord_getLsbD, Instr.opcode]

/-! Each operand's field gives the operand back (R92). -/

section
variable (op : BitVec 4) (idx : BitVec 8) (dir model cond : Bool) (val : BitVec 32)

theorem sidx_fieldsWord {v : Int} (h₀ : -128 ≤ v) (h₁ : v ≤ 127) :
    sidx (fieldsWord op (BitVec.ofInt 8 v) dir model cond val) = v := by
  rw [sidx, fieldsWord_idxField]
  exact BitVec.toInt_ofInt_eq_self (by decide) h₀ (Int.lt_add_one_of_le h₁)

theorem sval_fieldsWord {v : Int} (h₀ : -2147483648 ≤ v) (h₁ : v ≤ 2147483647) :
    sval (fieldsWord op idx dir model cond (BitVec.ofInt 32 v)) = v := by
  rw [sval, fieldsWord_valField, toInt_ofInt_of_valFits ⟨h₀, h₁⟩]

end

theorem assembleOperands_encode {i : Instr} (h : i.WellFormed) : assembleOperands (encode i) = i := by
  rw [assembleOperands, opField_encode]
  cases i
  case reservedF rest => exact congrArg Instr.reservedF BitVec.extractLsb'_append_eq_right
  all_goals
    simp only [Instr.WellFormed, Instr.wellFormed, Bool.and_eq_true, decide_eq_true_eq, tickFits] at h
    simp [Instr.opcode, encode, sidx_fieldsWord, sval_fieldsWord, Nat.mod_eq_of_lt, Nat.lt_succ_iff, h]

/-- Settles O10: the word matches its opcode's row, and each field gives its operand back. -/
theorem decodeOfEncodeIsTheCommand : Obligations.DecodeOfEncodeIsTheCommand := fun i h =>
  (decode_eq_ok_iff _ i).2 ⟨encode_matches i, assembleOperands_encode h⟩

/-! Each operand is encoded as the field it was read from. -/

@[simp] theorem ofInt_sidx (w : Command) : BitVec.ofInt 8 (sidx w) = idxField w := BitVec.ofInt_toInt

@[simp] theorem ofInt_sval (w : Command) : BitVec.ofInt 32 (sval w) = valField w := BitVec.ofInt_toInt

@[simp] theorem bit_dirField (w : Command) : (dirField w).bit = w.getLsbD 51 := by
  unfold dirField; cases w.getLsbD 51 <;> rfl

@[simp] theorem bit_modelField (w : Command) : (modelField w).bit = w.getLsbD 50 := by
  unfold modelField; cases w.getLsbD 50 <;> rfl

@[simp] theorem bit_condField (w : Command) : (condField w).bit = w.getLsbD 49 := by
  unfold condField; cases w.getLsbD 49 <;> rfl

@[simp] theorem ofNat_ticks (w : Command) :
    BitVec.ofNat 16 (offField w) ++ BitVec.ofNat 16 (onField w) = valField w := by
  simp only [offField, onField, BitVec.ofNat_toNat, BitVec.setWidth_eq]
  exact BitVec.extractLsb'_append_extractLsb'_eq_extractLsb' rfl

/-- A matching word is the encoding of the command it stands for: what the row leaves free is an operand. -/
theorem encode_assembleOperands {w : Command} (h : w &&& (opRow (opField w)).mask = (opRow (opField w)).pattern) :
    encode (assembleOperands w) = w := by
  by_cases hF : opField w = 0xF
  · rw [assembleOperands, hF]
    exact encode_reservedF_of_opField hF
  rw [match_iff_unused_fields_zero hF] at h
  have hop := opcode_assembleOperands w
  rw [← hop] at h
  symm
  revert h hop
  unfold assembleOperands
  split <;> intro h hop
  case h_16 =>
    exact absurd hop.symm hF
  all_goals
    simp [Instr.opcode] at h
    rw [encode, eq_fieldsWord_iff]
    simp [← hop, Instr.opcode, h]

/-! The operands of a word fit their fields. -/

theorem idxFits_sidx (w : Command) : idxFits (sidx w) :=
  ⟨BitVec.le_toInt (idxField w), Int.le_of_lt_add_one (BitVec.toInt_lt (x := idxField w))⟩

theorem valFits_sval (w : Command) : valFits (sval w) :=
  ⟨BitVec.le_toInt (valField w), Int.le_of_lt_add_one (BitVec.toInt_lt (x := valField w))⟩

theorem tickFits_toNat (v : BitVec 16) : tickFits v.toNat := Nat.le_of_lt_succ v.isLt

theorem wellFormed_assembleOperands (w : Command) : (assembleOperands w).WellFormed := by
  have hidx := idxFits_sidx w
  have hval := valFits_sval w
  have hon : tickFits (onField w) := tickFits_toNat _
  have hoff : tickFits (offField w) := tickFits_toNat _
  unfold assembleOperands
  split <;> simp only [Instr.WellFormed, Instr.wellFormed, Bool.and_eq_true, decide_eq_true_eq] <;> tauto

/-- Settles O11: the word matches its opcode's row, so every bit of it stands in its command; a field's value fits the
field. -/
theorem encodeOfDecodeIsTheWord : Obligations.EncodeOfDecodeIsTheWord := by
  intro w i h
  obtain ⟨hmatch, rfl⟩ := (decode_eq_ok_iff w i).1 h
  exact ⟨encode_assembleOperands hmatch, wellFormed_assembleOperands w⟩

/-! A word as a number (R91). -/

theorem toNat_append_eq_add {m n : Nat} (x : BitVec m) (y : BitVec n) :
    (x ++ y).toNat = x.toNat * 2 ^ n + y.toNat := by
  rw [BitVec.toNat_append, ← Nat.shiftLeft_add_eq_or_of_lt y.isLt, Nat.shiftLeft_eq]

/-- Settles O12: each append shifts what stands above it by its width. -/
theorem encodedFieldsStandWhereTheTableSays : Obligations.EncodedFieldsStandWhereTheTableSays := by
  intro op idx dir model cond val
  simp only [fieldsWord, toNat_append_eq_add, BitVec.toNat_ofBool, BitVec.toNat_ofNat]
  omega

/-- Settles O14: the vectors are the tests of the decoder. -/
theorem writtenOutWordsDecode : Obligations.WrittenOutWordsDecode :=
  ⟨Tests.test_decode_setfreq, Tests.test_decode_setch, Tests.test_decode_choff, by decide, by decide,
    Tests.test_decode_stepdeg, Tests.test_decode_stepturn, Tests.test_decode_lread, Tests.test_decode_lwatch,
    Tests.test_decode_sclr, Tests.test_refuse_nop, Tests.test_refuse_servo⟩

end Sys2Proof
end

section
/-! The expander discipline (spec/20_memory.md): the registers the block has written stay in canonical form and among
MODE1, PRESCALE and the channel registers (R60, R61). -/

namespace Sys2Proof.Machine

open Sys2Proof.Config

/-! The discipline of a list of registers, kept by every write to a register the block uses. -/

/-- The list is in canonical form and lists only registers the block uses (R61). -/
def memDisciplined (m : Mem) : Prop := memWf m ∧ ∀ c ∈ m, registerUsed c.1 = true

theorem lt_of_registerUsed {a : Nat} (h : registerUsed a = true) : a < 256 := by
  simp only [registerUsed, decide_eq_true_eq] at h
  omega

theorem memDisciplined_memWrite {m : Mem} {a : Nat} (ha : registerUsed a = true) (b : Byte) (hm : memDisciplined m) :
    memDisciplined (memWrite m a b) := by
  obtain ⟨hwf, hused⟩ := hm
  refine ⟨memWf_memWrite hwf (lt_of_registerUsed ha) b, fun c hc => ?_⟩
  rcases memWrite_mem hc with rfl | hc
  · exact ha
  · exact hused c hc

theorem memDisciplined_memWriteBytes {m : Mem} {r : Byte} {bs : List Byte}
    (hr : ∀ k < bs.length, registerUsed (r + BitVec.ofNat 8 k).toNat = true) (hm : memDisciplined m) :
    memDisciplined (memWriteBytes m r bs) := by
  obtain ⟨hwf, hused⟩ := hm
  refine ⟨memWf_memWriteBytes hwf r bs, fun c hc => ?_⟩
  rcases memWriteBytes_mem hc with hc | ⟨k, hk, e⟩
  · exact hused c hc
  · rw [e]
    exact hr k hk

/-! The registers the block's procedures write (R61, R62). -/

theorem registerUsed_mode1 : registerUsed regMode1.toNat = true := by decide

theorem registerUsed_prescale : registerUsed regPrescale.toNat = true := by decide

theorem registerUsed_channel {c : Int} (h₀ : 0 ≤ c) (h₁ : c ≤ 15) {k : Nat} (hk : k < 4) :
    registerUsed (channelBase c + BitVec.ofNat 8 k).toNat = true := by
  rw [channelBase_add_toNat h₀ h₁ hk]
  simp only [registerUsed, decide_eq_true_eq]
  omega

theorem memDisciplined_setChannel (c on off : Int) {s : State} (hs : memDisciplined s.expander) :
    memDisciplined (setChannel c on off s).expander := by
  rcases setChannel_cases c on off s with e | ⟨h₀, h₁, k, -, e⟩ <;> rw [e]
  · exact hs
  · exact memDisciplined_memWriteBytes (fun _ => registerUsed_channel h₀ h₁) hs

theorem memDisciplined_frequencyStart (hz : Int) {s : State} (hs : memDisciplined s.expander) :
    memDisciplined (frequencyStart hz s).expander := by
  rw [frequencyStart_eq]
  exact memDisciplined_memWrite registerUsed_mode1 _ (memDisciplined_memWrite registerUsed_prescale _
    (memDisciplined_memWrite registerUsed_mode1 _ hs))

theorem memDisciplined_initStart {s : State} (hs : memDisciplined s.expander) :
    memDisciplined (initStart s).expander :=
  memDisciplined_frequencyStart initHz (memDisciplined_memWrite registerUsed_mode1 _ hs)

theorem expanderDisciplined_runOp (op : Op) (s : State) (hs : expanderDisciplined s) :
    expanderDisciplined (runOp op s).1 := by
  cases op with
  | ensureInit =>
    rw [runOp]
    split
    · exact hs
    · exact memDisciplined_initStart hs
  | setFrequency hz => exact memDisciplined_frequencyStart hz hs
  | settled old hz => exact memDisciplined_memWrite registerUsed_mode1 _ hs
  | setInit => exact hs
  | setChannel c on off => exact memDisciplined_setChannel c on off hs
  | flag f => exact hs
  | hold h => exact hs

theorem expanderDisciplined_monitorTick (i : Nat) (m : Monitor) (s : State) (hs : expanderDisciplined s) :
    expanderDisciplined (monitorTick i m s) := by
  rwa [monitorTick_eq]

/-! The obligation. -/

/-- Settles O48: only procedure calls write registers, and each writes registers the block uses. -/
theorem everyStepKeepsTheExpanderDiscipline : Obligations.EveryStepKeepsTheExpanderDiscipline := fun _ _ hs h =>
  step_keeps (P := expanderDisciplined) expanderDisciplined_runOp (fun _ _ => id) (fun _ _ _ => id) (fun _ _ => id)
    (fun _ _ => id) (fun _ _ => id) (fun _ => id) (fun _ _ => id) (fun _ _ => id) expanderDisciplined_monitorTick
    (fun _ => id) h hs

/-- Settles O49: nothing is listed at reset, and the default map's check evaluates. -/
theorem resetMeetsTheInvariants : Obligations.ResetMeetsTheInvariants :=
  ⟨List.forall_mem_nil _, ⟨⟨List.Pairwise.nil, List.forall_mem_nil _⟩, List.forall_mem_nil _⟩, Tests.reset_ok⟩

end Sys2Proof.Machine
end

section
/-! The host port and the environment's moves (spec/10_state.md, spec/20_memory.md): STATUS, the reads of the register
map, the refused accesses, the issue of a word, the timer's answers and power-on reset. -/

namespace Sys2Proof.Machine

open Sys2Proof.Config

/-! STATUS (R34). -/

/-- The bits of STATUS from the bottom up: each field of the word stands above those before it. -/
theorem statusWord_getLsbD (s : State) (b : Nat) :
    (statusWord s).getLsbD b =
      if b < 4 then [s.busy, s.init, s.result, s.lastValid].getD b false
      else if b < 8 then false
      else [s.sticky.dropped, s.sticky.clamped, s.sticky.masked, s.sticky.noopZero, s.sticky.illegal,
        s.sticky.overrun].getD (b - 8) false := by
  unfold statusWord
  simp only [BitVec.getLsbD_append, BitVec.getLsbD_ofBool, BitVec.getLsbD_zero]
  by_cases h : b < 14
  · interval_cases b <;> simp
  · obtain ⟨j, rfl⟩ : ∃ j, b = j + 14 := ⟨b - 14, by omega⟩
    have h₄ : ¬j + 14 < 4 := by omega
    have h₈ : ¬j + 14 < 8 := by omega
    simp [h₄, h₈]

theorem statusWord_flagBit (f : Flag) (s : State) : (statusWord s).getLsbD (flagBit f) = stickyGet f s.sticky := by
  rw [statusWord_getLsbD]
  cases f <;> rfl

theorem statusWord_zero_4_7 (s : State) {b : Nat} (h₀ : 4 ≤ b) (h₁ : b ≤ 7) : (statusWord s).getLsbD b = false := by
  rw [statusWord_getLsbD, if_neg (by omega), if_pos (by omega)]

theorem statusWord_zero_above_13 (s : State) {b : Nat} (h : 14 ≤ b) : (statusWord s).getLsbD b = false := by
  rw [statusWord_getLsbD, if_neg (by omega), if_neg (by omega)]
  exact List.getD_eq_default _ _ (Nat.le_sub_of_add_le h)

/-! The sticky flags: procedure calls only set them, and the mask of SCLR alone clears one (R12, R241). -/

theorem stickyGet_stickySet_eq (f g : Flag) (k : Sticky) :
    stickyGet f (stickySet g k) = (decide (f = g) || stickyGet f k) := by
  cases f <;> cases g <;> rfl

theorem stickyGet_stickySet {f : Flag} {k : Sticky} (h : stickyGet f k = true) (g : Flag) :
    stickyGet f (stickySet g k) = true := by
  rw [stickyGet_stickySet_eq, h, Bool.or_true]

theorem stickyGet_stickyClear (f : Flag) (mask : Word32) (k : Sticky) :
    stickyGet f (stickyClear mask k) = (stickyGet f k && !mask.getLsbD (flagBit f)) := by
  cases f <;> rfl

theorem stickyGet_setChannel {f : Flag} {s : State} (h : stickyGet f s.sticky = true) (c on off : Int) :
    stickyGet f (setChannel c on off s).sticky = true := by
  rcases setChannel_cases c on off s with e | ⟨-, -, k, rfl | rfl, e⟩ <;> rw [e]
  · exact stickyGet_stickySet h .dropped
  · exact h
  · exact stickyGet_stickySet h .masked

theorem stickyGet_frequencyStart {f : Flag} {s : State} (h : stickyGet f s.sticky = true) (hz : Int) :
    stickyGet f (frequencyStart hz s).sticky = true := by
  rw [frequencyStart_eq]
  dsimp only
  split
  · exact h
  · exact stickyGet_stickySet h .masked

theorem stickyGet_runOp {f : Flag} (op : Op) (s : State) (h : stickyGet f s.sticky = true) :
    stickyGet f (runOp op s).1.sticky = true := by
  cases op with
  | ensureInit =>
    rw [runOp]
    split
    · exact h
    · exact stickyGet_frequencyStart (s := busWrite regMode1 [s.cfg.initMode1] s) h initHz
  | setFrequency hz => exact stickyGet_frequencyStart h hz
  | settled old hz => exact h
  | setInit => exact h
  | setChannel c on off => exact stickyGet_setChannel h c on off
  | flag g => exact stickyGet_stickySet h g
  | hold n => exact h

theorem stickyGet_runOps {f : Flag} (ops : List Op) (s : State) (h : stickyGet f s.sticky = true) :
    stickyGet f (runOps ops s).sticky = true :=
  runOps_keeps (P := fun t => stickyGet f t.sticky = true) stickyGet_runOp (fun _ _ => id) ops s h

/-- A command keeps a set flag, or is an SCLR (R34). -/
theorem stickyGet_exec {f : Flag} {i : Instr} {s t : State} (h : exec i s = .next t)
    (hf : stickyGet f s.sticky = true) :
    stickyGet f t.sticky = true ∨ ∃ mask, i = .sclr mask ∧ t.sticky = stickyClear mask s.sticky := by
  rcases exec_cases h with ⟨ops, -, rfl⟩ | ⟨-, rfl⟩ | ⟨_, _, -, rfl⟩ | ⟨_, -, rfl⟩ | ⟨_, _, -, rfl⟩ |
    ⟨mask, rfl, rfl⟩ | ⟨_, -, rfl⟩
  · exact .inl (stickyGet_runOps ops s hf)
  · exact .inl hf
  · exact .inl hf
  · exact .inl hf
  · left
    split
    · exact stickyGet_stickySet hf .dropped
    · exact hf
  · exact .inr ⟨mask, rfl, rfl⟩
  · exact .inl (stickyGet_stickySet hf .illegal)

/-- Settles O3: STATUS bit by bit; its offset ignores a write; and only SCLR clears a flag. -/
theorem statusBitsAreTheTable : Obligations.StatusBitsAreTheTable := by
  refine ⟨fun s => ?_, fun v s => ?_, fun i s t f h hset hclear => ?_⟩
  · exact ⟨statusWord_getLsbD s 0, statusWord_getLsbD s 1, statusWord_getLsbD s 2, statusWord_getLsbD s 3,
      fun _ => statusWord_zero_4_7 s, statusWord_flagBit .dropped s,
      statusWord_flagBit .clamped s, statusWord_flagBit .masked s, statusWord_flagBit .noopZero s,
      statusWord_flagBit .illegal s, statusWord_flagBit .overrun s, fun _ h _ => statusWord_zero_above_13 s h⟩
  · rw [hostWrite, hostOffset_of_offset s.cfg (by decide) (by decide)]
    exact writeRegister_ignored (by decide) (by decide) v s
  · rcases stickyGet_exec h hset with hset' | ⟨mask, rfl, -⟩
    · rw [hclear] at hset'
      cases hset'
    · exact ⟨mask, rfl⟩

/-! The reads of the register map (R33, R36). -/

theorem step_of_hostReads {s u : State} {off : Nat} (h : hostReads s off 4 u) (ha : off % 4 = 0) (hb : off < 0x40) :
    step s = .next { u with readData := hostRegister off s } := by
  rw [step_of_scheduled h]
  obtain ⟨-, -, rfl⟩ := h
  rw [doMove, hostRead, hostOffset_of_offset s.cfg ha hb]
  rfl

/-- The low word of a 64-bit register (R33). -/
theorem extractLsb'_low_eq_ofNat (x : BitVec 64) : x.extractLsb' 0 32 = BitVec.ofNat 32 x.toNat := by
  simp [BitVec.extractLsb']

/-- The high word of a 64-bit register (R33). -/
theorem extractLsb'_high_eq_ofNat (x : BitVec 64) : x.extractLsb' 32 32 = BitVec.ofNat 32 (x.toNat / 4294967296) := by
  simp [BitVec.extractLsb', Nat.shiftRight_eq_div_pow]

/-- The register map as one table; MON_COUNT is the length of MON while that fits (R30, R33). -/
theorem hostRegister_eq (off : Nat) (s : State) (h : off = 0x20 → s.mon.length < 4294967296) :
    hostRegister off s =
      if off = 0x08 then statusWord s else if off = 0x0C then s.freq else if off = 0x10 then s.thresh
      else if off = 0x14 then s.lastLevel
      else if off = 0x18 then BitVec.ofNat 32 s.holdMs.toNat
      else if off = 0x1C then BitVec.ofNat 32 (s.holdMs.toNat / 4294967296)
      else if off = 0x20 then BitVec.ofNat 32 s.mon.length else 0 := by
  unfold hostRegister
  split
  case h_5 => exact extractLsb'_low_eq_ofNat s.holdMs
  case h_6 => exact extractLsb'_high_eq_ofNat s.holdMs
  case h_7 => exact if_pos (h rfl)
  case h_8 h₁ h₂ h₃ h₄ h₅ h₆ h₇ =>
    rw [if_neg h₁, if_neg h₂, if_neg h₃, if_neg h₄, if_neg h₅, if_neg h₆, if_neg h₇]
  all_goals rfl

/-- Settles O4: the answer is the register at the offset, read off the map's table. -/
theorem hostReadsAnswerTheMap : Obligations.HostReadsAnswerTheMap := fun s _ off h ha hb hmon => by
  rw [step_of_hostReads h ha hb, hostRegister_eq off s hmon]

/-! Accesses that are given no step (R69). -/

theorem hostOffset_eq_none {p : Params} {address size : Nat}
    (h : size ≠ 4 ∨ ∀ off, address = p.hostBase + off → off % 4 ≠ 0 ∨ 0x40 ≤ off) :
    hostOffset p address size = none := by
  refine Option.eq_none_iff_forall_ne_some.2 fun off hoff => ?_
  obtain ⟨hsize, haddress, halign, hlt⟩ := hostOffset_eq_some hoff
  rcases h with h | h
  · exact h hsize
  · have := h off haddress
    omega

/-- Settles O6: such an access has no register offset. -/
theorem otherHostAccessesAreRefused : Obligations.OtherHostAccessesAreRefused := by
  intro s u address size v hbad
  have hnone := hostOffset_eq_none hbad
  constructor <;> intro h <;> rw [step_of_scheduled h] <;> obtain ⟨-, -, rfl⟩ := h
  · rw [doMove, hostWrite, hnone]
  · rw [doMove, hostRead, hnone]

/-! The issue of a word (R35, R99). -/

theorem step_of_issue {s u : State} {v : Word32} (h : hostWrites s 0x04 4 v u) :
    step s = issue (v ++ s.cmdLo) u :=
  have ⟨_, hissue, _⟩ := hostWritesLatchOrAreIgnored
  (hissue s u v h).1

/-- The halves of a word, written to CMD_HI and CMD_LO, are the word again (R35). -/
theorem append_halves (w : Command) : w.extractLsb' 32 32 ++ w.extractLsb' 0 32 = w :=
  BitVec.extractLsb'_append_extractLsb'

theorem withFetchWord_eq (s : State) (w : Command) : s.withFetchWord 64 w.toNat = placeCommand w s := by
  rw [State.withFetchWord, Nat.mod_eq_of_lt w.isLt, BitVec.ofNat_toNat, BitVec.setWidth_eq]

/-- A placed word is the next access of the host (log entry 3). -/
theorem hostWrites_placeCommand {s : State} (hc : coilMapOk s.cfg.coilMap = true) (w : Command) :
    hostWrites (placeCommand w s) 0x04 4 (w.extractLsb' 32 32)
      { s with seq := .idle, cmdLo := w.extractLsb' 0 32, turn := s.turn + 1 } :=
  ⟨hc, rfl, rfl⟩

/-- Settles O7: the step issues the word, and an idle block runs what a legal one decodes to. -/
theorem stepRunsTheDecodedCommand : Obligations.StepRunsTheDecodedCommand := by
  refine ⟨fun s u v i h hidle hdec => ?_, fun s w i hc hdec => ?_⟩
  · rw [step_of_issue h]
    exact issue_of_decode_ok ((busy_of_hostWrites h).trans (busy_of_idle hidle)) hdec
  · rw [withFetchWord_eq, step_of_issue (hostWrites_placeCommand hc w)]
    refine issue_of_decode_ok (busy_of_idle rfl) ?_
    rw [show (placeCommand w s).cmdLo = w.extractLsb' 0 32 from rfl, append_halves]
    exact hdec

/-! The environment's moves. -/

/-- Settles O2: the move is `powerOn`, which leaves what stands outside S. -/
theorem powerOnResetsTheBlockOnly : Obligations.PowerOnResetsTheBlockOnly := by
  intro s u h
  rw [step_of_scheduled h]
  obtain ⟨-, -, rfl⟩ := h
  rfl

/-- Settles O44: the timer's move is one update of the agent it answers. -/
theorem timerAnswersWakeTheirAgent : Obligations.TimerAnswersWakeTheirAgent := by
  refine ⟨fun s u i pin cond h hmon => ?_, fun s u k h hseq => ?_⟩ <;> rw [step_of_scheduled h] <;>
    obtain ⟨-, -, rfl⟩ := h
  · simp only [doMove, timerMon, hmon]
  · simp only [doMove, timerSeq, hseq]

/-- Settles O46: no arm of `exec` is a fault or a refusal. -/
theorem everyCommandAnswersANextState : Obligations.EveryCommandAnswersANextState := exec_next

end Sys2Proof.Machine
end

section
/-! What every step and every command keeps (spec/10_state.md, spec/20_memory.md): the history, the configuration, INIT
and the registrations, the sticky flags, and the registers with their only writers. -/

namespace Sys2Proof.Machine

open Sys2Proof.Config

/-! The history (R70, R284). -/

theorem trace_setChannel (c on off : Int) (s : State) : s.trace <+: (setChannel c on off s).trace := by
  rcases setChannel_cases c on off s with e | ⟨-, -, k, -, e⟩ <;> rw [e]
  · exact List.prefix_rfl
  · exact List.prefix_append _ _

theorem trace_frequencyStart (hz : Int) (s : State) : s.trace <+: (frequencyStart hz s).trace := by
  rw [frequencyStart_eq]
  exact List.prefix_append _ _

theorem trace_runOp (op : Op) (s : State) : s.trace <+: (runOp op s).1.trace := by
  cases op with
  | ensureInit =>
    rw [runOp]
    split
    · exact List.prefix_rfl
    · exact (List.prefix_append _ _).trans (trace_frequencyStart initHz (busWrite regMode1 [s.cfg.initMode1] s))
  | setFrequency hz => exact trace_frequencyStart hz s
  | settled old hz => exact List.prefix_append _ _
  | setInit => exact List.prefix_rfl
  | setChannel c on off => exact trace_setChannel c on off s
  | flag f => exact List.prefix_rfl
  | hold h => exact List.prefix_append _ _

theorem trace_monitorTick (i : Nat) (m : Monitor) (s : State) : s.trace <+: (monitorTick i m s).trace := by
  rw [monitorTick_eq]
  simp only [List.append_assoc]
  exact List.prefix_append _ _

/-- Settles O50: procedure calls, analog reads and monitor ticks append to the history; nothing else touches it. -/
theorem historyIsOnlyExtended : Obligations.HistoryIsOnlyExtended := by
  intro s t h
  obtain ⟨new, hnew⟩ : s.trace <+: t.trace :=
    step_keeps (P := fun t => s.trace <+: t.trace) (fun op u hu => hu.trans (trace_runOp op u)) (fun _ _ => id)
      (fun _ _ _ hu => hu.trans (List.prefix_append _ _)) (fun _ _ => id) (fun _ _ => id) (fun _ _ => id)
      (fun _ => id) (fun _ _ => id) (fun _ _ => id) (fun i m u hu => hu.trans (trace_monitorTick i m u))
      (fun _ => id) h List.prefix_rfl
  exact ⟨new, hnew.symm⟩

/-! The configuration, INIT and the registrations (R22, R30, R32). -/

@[simp] theorem runOp_cfg (op : Op) (s : State) : (runOp op s).1.cfg = s.cfg := by
  obtain ⟨_, _, _, _, _, _, _, -, h⟩ := runOp_shape op s
  rw [h]

@[simp] theorem monitorTick_cfg (i : Nat) (m : Monitor) (s : State) : (monitorTick i m s).cfg = s.cfg := by
  rw [monitorTick_eq]

theorem step_cfg {s t : State} (h : step s = .next t) : t.cfg = s.cfg :=
  step_keeps (P := fun t => t.cfg = s.cfg) (fun op u => (runOp_cfg op u).trans) (fun _ _ => id) (fun _ _ _ => id)
    (fun _ _ => id) (fun _ _ => id) (fun _ _ => id) (fun _ => id) (fun _ _ => id) (fun _ _ => id)
    (fun i m u => (monitorTick_cfg i m u).trans) (fun _ => id) h rfl

/-- What a registration is, whatever its agent's phase (R30). -/
def registrations (s : State) : List (Pin × Cond) := s.mon.map fun m => (m.pin, m.cond)

/-- INIT stays set and the registrations stay the first ones, in order. -/
def persists (s t : State) : Prop := (s.init = true → t.init = true) ∧ registrations s <+: registrations t

theorem persists_refl (s : State) : persists s s := ⟨id, List.prefix_rfl⟩

theorem persists_runOps (ops : List Op) (s : State) : persists s (runOps ops s) := by
  obtain ⟨_, _, _, _, _, _, _, _, hinit, e⟩ := runOps_shape ops s
  rw [e]
  exact ⟨hinit, List.prefix_rfl⟩

theorem persists_exec {i : Instr} {s t : State} (h : exec i s = .next t) : persists s t := by
  rcases exec_cases h with ⟨ops, -, rfl⟩ | ⟨-, rfl⟩ | ⟨_, _, -, rfl⟩ | ⟨_, -, rfl⟩ | ⟨pin, cond, -, rfl⟩ |
    ⟨_, -, rfl⟩ | ⟨_, -, rfl⟩
  case inr.inr.inr.inr.inl =>
    split
    · exact persists_refl s
    · refine ⟨id, ?_⟩
      simp only [registrations, List.map_append]
      exact List.prefix_append _ _
  · exact persists_runOps ops s
  all_goals exact persists_refl _

theorem persists_issue {w : Command} {s t : State} (h : issue w s = .next t) : persists s t := by
  rcases issue_cases h with ⟨-, rfl⟩ | ⟨-, -, rfl⟩ | ⟨-, i, -, he⟩
  · exact persists_refl s
  · exact persists_refl s
  · exact persists_exec he

/-- A monitor's new phase leaves its registration. -/
theorem registrations_set {s : State} {i : Nat} {m : Monitor} (hm : s.mon[i]? = some m) (p : MonPhase) :
    registrations { s with mon := s.mon.set i { m with phase := p } } = registrations s := by
  obtain ⟨hi, rfl⟩ := List.getElem?_eq_some_iff.1 hm
  have hself := List.set_getElem_self (as := registrations s) (i := i) (by simpa [registrations] using hi)
  simp only [registrations, List.getElem_map] at hself ⊢
  rwa [List.map_set]

theorem persists_doMove {m : Move} {s t : State} (hp : m ≠ .powerOn) (h : doMove m s = .next t) : persists s t := by
  rcases doMove_cases h with ⟨_, _, -, -, rfl | ⟨-, rfl⟩⟩ | ⟨_, -, hissue⟩ | ⟨_, -, rfl⟩ | ⟨_, -, -, rfl⟩ |
    ⟨k, -, -, rfl⟩ | ⟨i, pin, cond, -, hm, rfl⟩ | ⟨i, pin, cond, -, hm, rfl⟩ | ⟨rfl, -⟩
  · exact persists_refl _
  · exact persists_refl s
  · exact persists_issue hissue
  · exact persists_refl s
  · exact persists_refl s
  · exact persists_runOps k { s with seq := .idle }
  · exact ⟨id, (registrations_set hm .sample).symm ▸ List.prefix_rfl⟩
  · rw [monitorTick_eq]
    exact ⟨id, (registrations_set hm .sleeping).symm ▸ List.prefix_rfl⟩
  · exact absurd rfl hp

/-- Settles O51: no operation writes the configuration, and every move but power-on reset persists. -/
theorem persistentStateSurvivesEveryStep : Obligations.PersistentStateSurvivesEveryStep := by
  refine fun s t h => ⟨step_cfg h, fun hp => ?_⟩
  obtain ⟨-, ⟨-, rfl⟩ | ⟨m, hm, hmove⟩⟩ := step_cases h
  · exact ⟨id, [], (List.append_nil _).symm⟩
  · obtain ⟨hinit, new, hnew⟩ := persists_doMove (s := takeMove s) (by rintro rfl; exact hp hm) hmove
    exact ⟨hinit, new, hnew.symm⟩

/-! The sticky flags over a step (R27, R241). -/

theorem stickyGet_issue {f : Flag} {w : Command} {s t : State} (h : issue w s = .next t)
    (hf : stickyGet f s.sticky = true) :
    stickyGet f t.sticky = true ∨
      ∃ mask, s.seq = .idle ∧ decode w = .ok (.sclr mask) ∧ t.sticky = stickyClear mask s.sticky := by
  rcases issue_cases h with ⟨-, rfl⟩ | ⟨-, -, rfl⟩ | ⟨hidle, i, hi, he⟩
  · exact .inl (stickyGet_stickySet hf .overrun)
  · exact .inl (stickyGet_stickySet hf .illegal)
  · rcases stickyGet_exec he hf with hf' | ⟨mask, rfl, hmask⟩
    · exact .inl hf'
    · exact .inr ⟨mask, hidle, hi, hmask⟩

/-- A move keeps a set flag, or is a power-on reset or an issued word. -/
theorem stickyGet_doMove {f : Flag} {m : Move} {s t : State} (h : doMove m s = .next t)
    (hf : stickyGet f s.sticky = true) :
    stickyGet f t.sticky = true ∨ m = .powerOn ∨
      ∃ v, m = .hostWrite (s.cfg.hostBase + 0x04) 4 v ∧ issue (v ++ s.cmdLo) s = .next t := by
  rcases doMove_cases h with ⟨_, _, -, -, rfl | ⟨-, rfl⟩⟩ | ⟨v, hm, hissue⟩ | ⟨_, -, rfl⟩ | ⟨_, -, -, rfl⟩ |
    ⟨k, -, -, rfl⟩ | ⟨_, _, _, -, -, rfl⟩ | ⟨i, pin, cond, -, -, rfl⟩ | ⟨hm, -⟩
  · exact .inl hf
  · exact .inl hf
  · exact .inr (.inr ⟨v, hm, hissue⟩)
  · exact .inl hf
  · exact .inl hf
  · exact .inl (stickyGet_runOps k { s with seq := .idle } hf)
  · exact .inl hf
  · rw [monitorTick_eq]
    exact .inl hf
  · exact .inr (.inl hm)

/-- Settles O52: apart from power-on reset only an issued word can clear a flag, and of the words only SCLR, by its
mask. -/
theorem stickyFlagsStayUntilCleared : Obligations.StickyFlagsStayUntilCleared := by
  intro s t f h hset hclear
  obtain ⟨-, ⟨-, rfl⟩ | ⟨m, hm, hmove⟩⟩ := step_cases h
  · rw [hset] at hclear
    cases hclear
  rcases stickyGet_doMove (s := takeMove s) hmove hset with hset' | rfl | ⟨v, rfl, hissue⟩
  · rw [hclear] at hset'
    cases hset'
  · exact .inl hm
  · rcases stickyGet_issue hissue hset with hset' | ⟨mask, hidle, hdec, hmask⟩
    · rw [hclear] at hset'
      cases hset'
    · refine .inr ⟨v, mask, hm, hidle, hdec, ?_⟩
      rw [hmask, stickyGet_stickyClear, takeMove_sticky, hset] at hclear
      simpa using hclear

end Sys2Proof.Machine
end

section
/-! A command as a run of procedure calls (R120): which calls a command begins with, and what its first step can
change. -/

namespace Sys2Proof.Machine

open Sys2Proof.Config

/-! The calls of a command. -/

/-- The calls of the channel-writing commands: `ensureInit`, `setChannel` and flags (R130, R150). -/
def Op.isChannelCall (op : Op) : Bool :=
  match op with
  | .ensureInit | .setChannel _ _ _ | .flag _ => true
  | _ => false

/-- The two stepper commands (R186, R187). -/
def isStepper (i : Instr) : Prop := (∃ p d m v, i = .stepdeg p d m v) ∨ ∃ p d m v, i = .stepturn p d m v

theorem isChannelCall_motorStopOps (i : Int) : ∀ op ∈ motorStopOps i, op.isChannelCall = true := by
  unfold motorStopOps
  split <;> simp [Op.isChannelCall]

theorem isChannelCall_dcmotorOps (idx : Int) (dir : Dir) (speed : Int) :
    ∀ op ∈ dcmotorOps idx dir speed, op.isChannelCall = true := by
  unfold dcmotorOps dutyOps
  split_ifs <;> simp [Op.isChannelCall]

theorem isChannelCall_energizeOps (p : Params) (model : Model) (q : Pair) (dir : Dir) :
    ∀ op ∈ energizeOps p model q dir, op.isChannelCall = true := by
  simp [energizeOps, Op.isChannelCall]

theorem isChannelCall_pairStopOps (q : Pair) : ∀ op ∈ pairStopOps q, op.isChannelCall = true :=
  List.forall_mem_append.2 ⟨isChannelCall_motorStopOps _, isChannelCall_motorStopOps _⟩

theorem mem_stepperOps {p : Params} {pair : Int} {dir : Dir} {model : Model} {deg : Int} {op : Op}
    (h : op ∈ stepperOps p pair dir model deg) : op.isChannelCall = true ∨ ∃ n, op = .hold n := by
  unfold stepperOps at h
  split at h
  · rw [List.mem_singleton.1 h]
    exact .inl rfl
  · rename_i q _
    rcases List.mem_cons.1 h with rfl | h
    · exact .inl rfl
    rcases List.mem_append.1 h with h | h
    · exact .inl (isChannelCall_energizeOps p model q dir op h)
    rcases List.mem_cons.1 h with rfl | h
    · exact .inr ⟨_, rfl⟩
    · exact .inl (isChannelCall_pairStopOps q op h)

/-- INIT and the commands of R130's first row make channel calls alone. -/
theorem isChannelCall_commandOps {p : Params} {i : Instr} {ops : List Op} (h : commandOps p i = some ops)
    (hi : i = .init ∨ writesChannels i = true) : ∀ op ∈ ops, op.isChannelCall = true := by
  rcases hi with rfl | hi
  · cases h
    simp [Op.isChannelCall]
  cases i <;> simp only [writesChannels, Bool.false_eq_true] at hi <;>
    simp only [commandOps, Option.some.injEq] at h <;> subst h
  case dcmotor => exact isChannelCall_dcmotorOps _ _ _
  case mstop => exact isChannelCall_motorStopOps _
  case mstopall =>
    simp only [List.forall_mem_cons, List.forall_mem_append]
    exact ⟨rfl, ⟨⟨isChannelCall_motorStopOps 1, isChannelCall_motorStopOps 2⟩, isChannelCall_motorStopOps 3⟩,
      isChannelCall_motorStopOps 4⟩
  all_goals simp [Op.isChannelCall]

/-- Every call of a command: a channel call, the start of SETFREQ's procedure, or the hold of a stepper. -/
theorem mem_commandOps {p : Params} {i : Instr} {ops : List Op} {op : Op} (h : commandOps p i = some ops)
    (hop : op ∈ ops) :
    op.isChannelCall = true ∨ (∃ hz, i = .setfreq hz ∧ op = .setFrequency hz) ∨ isStepper i ∧ ∃ n, op = .hold n := by
  by_cases hi : i = .init ∨ writesChannels i = true
  · exact .inl (isChannelCall_commandOps h hi op hop)
  cases i <;> simp only [writesChannels, reduceCtorEq, or_true, true_or, not_true_eq_false] at hi <;>
    simp only [commandOps, Option.some.injEq, reduceCtorEq] at h <;> subst h
  case setfreq hz =>
    split at hop <;> rw [List.mem_singleton.1 hop]
    · exact .inl rfl
    · exact .inr (.inl ⟨hz, rfl, rfl⟩)
  case stepdeg =>
    split at hop
    · rw [List.mem_singleton.1 hop]
      exact .inl rfl
    · exact (mem_stepperOps hop).imp_right fun hn => .inr ⟨.inl ⟨_, _, _, _, rfl⟩, hn⟩
  case stepturn =>
    split at hop
    · rw [List.mem_singleton.1 hop]
      exact .inl rfl
    · exact (mem_stepperOps hop).imp_right fun hn => .inr ⟨.inr ⟨_, _, _, _, rfl⟩, hn⟩

/-! What a run of a command's own calls can change. -/

/-- A run of calls keeps what each of its calls and every suspension keeps. -/
theorem runOps_keeps_of_mem {P : State → Prop} {ops : List Op} (hop : ∀ op ∈ ops, ∀ s, P s → P (runOp op s).1)
    (hs : ∀ k s, P s → P (suspend k s)) (s : State) (h : P s) : P (runOps ops s) := by
  induction ops generalizing s with
  | nil => exact h
  | cons op rest ih =>
    obtain ⟨hop, hrest⟩ := List.forall_mem_cons.1 hop
    have hnext := hop s h
    rw [runOps]
    split
    · rename_i u e
      rw [e] at hnext
      exact ih hrest u hnext
    · rename_i u k e
      rw [e] at hnext
      exact hs _ u hnext

/-- `t` is `s` but for the flags, SEQ, HOLD_MS, and what goes over the bus. -/
def firstStepOf (s t : State) : Prop :=
  ∃ k q h tr ex d, t = { s with sticky := k, seq := q, holdMs := h, trace := tr, expander := ex, draws := d }

theorem firstStepOf_refl (s : State) : firstStepOf s s := ⟨_, _, _, _, _, _, rfl⟩

theorem firstStepOf_trans {s t u : State} (h : firstStepOf s t) (h' : firstStepOf t u) : firstStepOf s u := by
  obtain ⟨_, _, _, _, _, _, rfl⟩ := h
  obtain ⟨_, _, _, _, _, _, rfl⟩ := h'
  exact ⟨_, _, _, _, _, _, rfl⟩

theorem firstStepOf_frequencyStart (hz : Int) (s : State) : firstStepOf s (frequencyStart hz s) := by
  rw [frequencyStart_eq]
  exact ⟨_, _, _, _, _, _, rfl⟩

theorem firstStepOf_channelCall {op : Op} (h : op.isChannelCall = true) (s : State) :
    firstStepOf s (runOp op s).1 ∧ (runOp op s).1.holdMs = s.holdMs := by
  cases op <;> simp only [Op.isChannelCall, Bool.false_eq_true] at h
  case ensureInit =>
    rw [runOp]
    split
    · exact ⟨firstStepOf_refl s, rfl⟩
    · simp only [initStart, frequencyStart_eq]
      exact ⟨⟨_, _, _, _, _, _, rfl⟩, rfl⟩
  case setChannel c on off =>
    obtain ⟨_, _, _, e⟩ := setChannel_shape c on off s
    rw [runOp, e]
    exact ⟨⟨_, _, _, _, _, _, rfl⟩, rfl⟩
  case flag => exact ⟨⟨_, _, _, _, _, _, rfl⟩, rfl⟩

/-- What the calls of a command leave: FREQ, INIT and the registers of the other commands (R71). -/
theorem firstStepOf_runOps {p : Params} {i : Instr} {ops : List Op} (h : commandOps p i = some ops) (s : State) :
    firstStepOf s (runOps ops s) := by
  refine runOps_keeps_of_mem (P := firstStepOf s) (fun op hop u hu => firstStepOf_trans hu ?_)
    (fun k u hu => firstStepOf_trans hu ⟨_, _, _, _, _, _, rfl⟩) s (firstStepOf_refl s)
  rcases mem_commandOps h hop with hop | ⟨hz, -, rfl⟩ | ⟨-, n, rfl⟩
  · exact (firstStepOf_channelCall hop u).1
  · exact firstStepOf_frequencyStart hz u
  · exact ⟨_, _, _, _, _, _, rfl⟩

/-- Only a stepper's calls write HOLD_MS (R29). -/
theorem holdMs_runOps {p : Params} {i : Instr} {ops : List Op} (h : commandOps p i = some ops) (hi : ¬isStepper i)
    (s : State) : (runOps ops s).holdMs = s.holdMs := by
  refine runOps_keeps_of_mem (P := fun t => t.holdMs = s.holdMs) (fun op hop u hu => Eq.trans ?_ hu)
    (fun _ _ => id) s rfl
  rcases mem_commandOps h hop with hop | ⟨hz, -, rfl⟩ | ⟨hstep, -⟩
  · exact (firstStepOf_channelCall hop u).2
  · rw [runOp, frequencyStart_eq]
  · exact absurd hstep hi

/-- Settles O53: a run of calls writes HOLD_MS at most, for a stepper; every other command is one update. -/
theorem registersHaveTheirOnlyWriters : Obligations.RegistersHaveTheirOnlyWriters := by
  intro i s t h
  rcases exec_cases h with ⟨ops, hops, rfl⟩ | ⟨-, rfl⟩ | ⟨_, _, rfl, rfl⟩ | ⟨_, rfl, rfl⟩ | ⟨_, _, rfl, rfl⟩ |
    ⟨_, -, rfl⟩ | ⟨_, -, rfl⟩
  · have hhold := fun hne => not_not.1 (mt (fun hi => holdMs_runOps hops hi s) hne)
    obtain ⟨_, _, _, _, _, _, e⟩ := firstStepOf_runOps hops s
    rw [e] at hhold ⊢
    exact ⟨absurd rfl, absurd rfl, absurd rfl, hhold, rfl, rfl, rfl, rfl, rfl, rfl, rfl, rfl⟩
  case inr.inr.inr.inr.inl =>
    split <;> simp
  all_goals simp

/-- From `s` to `t` the expander and SEQ are as they were, and the history grew by analog reads at most. -/
def pwmUntouched (s t : State) : Prop :=
  t.expander = s.expander ∧ t.seq = s.seq ∧
    ∃ new, t.trace = s.trace ++ new ∧ ∀ e ∈ new, ∃ pin level, e = .analogRead pin level

theorem pwmUntouched_refl (s : State) : pwmUntouched s s :=
  ⟨rfl, rfl, [], (List.append_nil _).symm, List.forall_mem_nil _⟩

theorem pwmUntouched_analogRead (pin : Pin) (s : State) : pwmUntouched s (analogRead pin s) :=
  ⟨rfl, rfl, [.analogRead pin (analogAnswer pin s)], rfl, List.forall_mem_singleton.2 ⟨_, _, rfl⟩⟩

/-- Settles O54: each of these commands is one update of the block's own registers, with one analog read at most. -/
theorem otherCommandsTouchNoPwmState : Obligations.OtherCommandsTouchNoPwmState := by
  intro i s t h hi
  rcases exec_cases h with ⟨ops, hops, rfl⟩ | ⟨-, rfl⟩ | ⟨pin, _, -, rfl⟩ | ⟨_, -, rfl⟩ | ⟨_, _, -, rfl⟩ |
    ⟨_, -, rfl⟩ | ⟨_, -, rfl⟩
  · cases i <;> simp only [commandOps, reduceCtorEq] at hi hops
  · exact pwmUntouched_refl _
  · exact pwmUntouched_analogRead pin s
  · exact pwmUntouched_refl s
  · split <;> exact pwmUntouched_refl s
  · exact pwmUntouched_refl s
  · exact pwmUntouched_refl s

end Sys2Proof.Machine
end

section
/-! The values the rules compute from operands (spec/00_scope.md section 5, R67, R124, R151, R158): tick bytes, the
prescale value, servo ticks, and the bounds of every intermediate (R13). -/

namespace Sys2Proof.Machine

open Sys2Proof.Config

/-! Tick bytes (R67). -/

/-- A high byte of at most four bits passes a mask that keeps bits 11:8 of the tick. -/
theorem and_mask_of_lt_16 {mask : Byte} (hmask : mask &&& 0x0F = 0x0F) {x : Byte} (hx : x.toNat < 16) :
    x &&& mask = x := by
  have hlow : x &&& 0x0F = x := by
    refine BitVec.eq_of_toNat_eq ?_
    rw [BitVec.toNat_and]
    exact (Nat.and_two_pow_sub_one_eq_mod x.toNat 4).trans (Nat.mod_eq_of_lt hx)
  rw [← hlow, BitVec.and_assoc, BitVec.and_comm 0x0F mask, hmask]

theorem toNat_ofInt_byte (v : Int) : ((BitVec.ofInt 8 v).toNat : Int) = v % 256 := by
  rw [BitVec.toNat_ofInt]
  omega

/-- Settles O16: the bytes are the value's base-256 digits, and a tick's high digit has four bits. -/
theorem tickBytesAreLittleEndian : Obligations.TickBytesAreLittleEndian := by
  refine ⟨fun v mask => ⟨tickLo_eq_ofInt v, tickHi_eq_ofInt mask v⟩, fun v mask h₀ h₁ hmask => ?_⟩
  have hlo := toNat_ofInt_byte v
  have hhi := toNat_ofInt_byte (v / 256)
  rw [tickLo_eq_ofInt, tickHi_eq_ofInt, and_mask_of_lt_16 hmask (by omega)]
  omega

/-! The prescale value (R124). -/

/-- Rounding to the nearest, half up, is a floor (R11). -/
theorem rnd_eq (n d : Int) : rnd n d = (2 * n + d) / (2 * d) := rfl

/-- `rnd(n, d)` lies within one half of n/d. -/
theorem rnd_bounds (n : Int) {d : Int} (hd : 0 < d) :
    2 * d * rnd n d ≤ 2 * n + d ∧ 2 * n + d < 2 * d * rnd n d + 2 * d := by
  have h2d : 0 < 2 * d := by omega
  rw [rnd_eq]
  exact ⟨Int.mul_ediv_self_le h2d.ne', Int.lt_mul_ediv_self_add h2d⟩

theorem le_rnd_iff (n : Int) {d : Int} (hd : 0 < d) (k : Int) : k ≤ rnd n d ↔ k * (2 * d) ≤ 2 * n + d := by
  have h2d : 0 < 2 * d := by omega
  rw [rnd_eq, Int.le_ediv_iff_mul_le h2d]

theorem prescale_eq (hz : Int) : prescale hz = rnd 25000000 (4096 * hz) - 1 := rfl

/-- Settles O22: the rounding's two bounds, no tie as 4096 does not divide 50000000, and the two ends of the range. -/
theorem prescaleIsNearestAndFits : Obligations.PrescaleIsNearestAndFits := by
  intro hz h
  have hd : 0 < 4096 * hz := by omega
  have hlo := le_rnd_iff 25000000 hd 1
  have hhi := le_rnd_iff 25000000 hd 257
  obtain ⟨hle, hlt⟩ := rnd_bounds 25000000 hd
  rw [prescale_eq]
  generalize rnd 25000000 (4096 * hz) = q at *
  rw [show 2 * (4096 * hz) * q = 8192 * (hz * q) by ring] at hle hlt
  rw [show (2 * (q - 1 + 1) + 1) * (4096 * hz) = 8192 * (hz * q) + 4096 * hz by ring,
    show (2 * (q - 1 + 1) - 1) * (4096 * hz) = 8192 * (hz * q) - 4096 * hz by ring]
  refine ⟨?_, ?_⟩ <;> omega

/-! Servo ticks (R151, R158). -/

theorem servoPulse_eq (deg : Int) : servoPulse deg = 10 * deg + 600 := by
  have hspan : servoSpan deg = 10 * deg * 180 := by
    rw [servoSpan, servoSpanUs]
    omega
  rw [servoPulse, tdiv, hspan, servoSpanDeg, Int.mul_tdiv_cancel _ (by decide)]
  rfl

theorem servoProduct_eq (deg : Int) : servoProduct deg = 40960 * (deg + 60) := by
  rw [servoProduct, servoPulse_eq, frameTicks]
  ring

/-- From -60 degrees on the quotient truncates downward. -/
theorem servoTicks_of_ge {deg : Int} (h : -60 ≤ deg) : servoTicks deg = 40960 * (deg + 60) / 20000 := by
  rw [servoTicks, servoProduct_eq]
  exact Int.tdiv_eq_ediv_of_nonneg (by omega)

/-- Below -60 degrees it truncates upward, and the ticks are negative. -/
theorem servoTicks_of_lt {deg : Int} (h : deg < -60) : servoTicks deg = -(40960 * (-60 - deg) / 20000) := by
  rw [servoTicks, servoProduct_eq, show 40960 * (deg + 60) = -(40960 * (-60 - deg)) by ring, tdiv, Int.neg_tdiv]
  exact congrArg Neg.neg (Int.tdiv_eq_ediv_of_nonneg (by omega))

/-- Settles O21: on either side of -60 degrees the ticks are a floor quotient, increasing in the degrees. -/
theorem servoTicksRangeAndOrder : Obligations.ServoTicksRangeAndOrder := by
  refine ⟨fun deg => ?_, fun deg h₀ h₁ => ?_, ⟨by decide, by decide⟩, fun d e h₀ hle h₁ => ?_, fun deg h₀ h₁ => ?_⟩
  · rcases lt_or_ge deg (-60) with h | h
    · rw [servoTicks_of_lt h]
      omega
    · rw [servoTicks_of_ge h]
      omega
  · rw [servoTicks_of_ge (by omega)]
    omega
  · rw [servoTicks_of_ge (by omega), servoTicks_of_ge (by omega)]
    omega
  · rw [servoTicks_of_ge h₀]
    omega

/-! The bounds of R13. -/

section
variable {v : Int} (h : valFits v)
include h

theorem servo_bounds :
    |servoSpan v| ≤ 88 * 10 ^ 12 ∧ |servoPulse v| ≤ 88 * 10 ^ 12 ∧ |servoProduct v| ≤ 88 * 10 ^ 12 := by
  obtain ⟨h₀, h₁⟩ := h
  rw [servoPulse_eq, servoProduct_eq, servoSpan, servoSpanUs]
  simp only [abs_le]
  omega

theorem rawDuty_bound (dir : Dir) : |rawDuty dir v| ≤ 89 * 10 ^ 9 := by
  obtain ⟨h₀, h₁⟩ := h
  rw [abs_le]
  cases dir <;> simp only [rawDuty, speedScale, dirSign] <;> omega

theorem turnDegrees_bound : |turnDegrees v| ≤ 78 * 10 ^ 10 := by
  obtain ⟨h₀, h₁⟩ := h
  rw [turnDegrees, turnDeg, abs_le]
  omega

theorem holdProduct_bound (model : Model) {m : Nat} (hm : m = v.natAbs ∨ m = (turnDegrees v).natAbs) :
    holdProduct model m ≤ 39 * 10 ^ 15 := by
  have hturn := turnDegrees_bound h
  obtain ⟨h₀, h₁⟩ := h
  rw [abs_le] at hturn
  have hprod := holdProduct_le model m
  omega

theorem prescale_bounds :
    |prescaleProduct v| ≤ 88 * 10 ^ 11 ∧ |rndDivisor (prescaleProduct v)| < 2 ^ 63 ∧
      |rndDividend 25000000 (prescaleProduct v)| < 2 ^ 63 := by
  obtain ⟨h₀, h₁⟩ := h
  simp only [rndDivisor, rndDividend, prescaleProduct, frameTicks, abs_le, abs_lt]
  omega

end

/-- Settles O60: each intermediate is linear in its operand, and each result is computed from it by definition. -/
theorem intermediatesFitSixtyFourBits : Obligations.IntermediatesFitSixtyFourBits :=
  ⟨fun _ h => ⟨⟨rfl, rfl, servo_bounds h⟩, fun dir => ⟨rfl, rawDuty_bound h dir⟩, turnDegrees_bound h,
    fun model _ hm => ⟨rfl, holdProduct_bound h model hm⟩, rfl, prescale_bounds h⟩, by decide, by decide⟩

end Sys2Proof.Machine
end

section
/-! The commands of the PWM driver (spec/40_pwm_driver.md): SETFREQ and its settle wait, the lazy initialisation, and
the commands that are one channel write once the block is initialised. -/

namespace Sys2Proof.Machine

open Sys2Proof.Config

/-! A run of calls with nothing left to suspend it is a command's whole meaning. -/

/-- On an initialised block `ensureInit` passes (R122). -/
theorem exec_of_initialised {i : Instr} {s : State} {ops : List Op}
    (hops : commandOps s.cfg i = some (.ensureInit :: ops)) (h : s.init = true) : exec i s = .next (runOps ops s) := by
  rw [exec_of_commandOps hops, runOps_ensureInit_done h]

/-- On an uninitialised one it suspends the command at the settle wait (R122). -/
theorem exec_of_uninitialised {i : Instr} {s : State} {ops : List Op}
    (hops : commandOps s.cfg i = some (.ensureInit :: ops)) (h : s.init = false) :
    exec i s = .next (suspend (initRest s ++ ops) (initStart s)) := by
  rw [exec_of_commandOps hops, runOps_ensureInit_start h]

/-- The sequencer's step runs what is left of the command (R28). -/
theorem step_of_scheduled_sequencer {s u : State} {k : List Op} (h : scheduled s .sequencer u)
    (hseq : s.seq = .running k true) : step s = .next (runOps k { u with seq := .idle }) := by
  rw [step_of_scheduled h]
  obtain ⟨-, -, rfl⟩ := h
  simp only [doMove, resume, hseq]

/-! Channel writes on an initialised block. -/

/-- Settles O18: after `ensureInit` passes, one `setChannel` is left. -/
theorem setchCompletes : Obligations.SetchCompletes := fun _ ch on off h =>
  exec_of_initialised (ops := [.setChannel ch on off]) rfl h

/-- Settles O19: CHOFF is SETCH of the zero pair. -/
theorem choffCompletes : Obligations.ChoffCompletes := fun _ ch h =>
  exec_of_initialised (ops := [.setChannel ch 0 0]) rfl h

/-- Settles O20: SERVO is SETCH of its ticks, the formula's constants being those of R7. -/
theorem servoCompletes : Obligations.ServoCompletes := fun _ idx deg h =>
  exec_of_initialised (ops := [.setChannel (servoChannel idx) 0 (servoTicks deg)]) rfl h

/-! `setFrequency` up to its settle wait (R125). -/

/-- The registers after the sleep, prescale and restore writes, `old` the MODE1 byte read. -/
def frequencyWritten (p : Params) (old prescaleByte : Byte) (m : Mem) : Mem :=
  memWrite (memWrite (memWrite m 0x00 (sleepByte p old)) 0xFE prescaleByte) 0x00 old

theorem memRead_frequencyWritten_mode1 (p : Params) (old b : Byte) (m : Mem) :
    memRead (frequencyWritten p old b m) 0x00 = some old := memRead_memWrite_same _ _ _

theorem memRead_frequencyWritten_prescale (p : Params) (old b : Byte) (m : Mem) :
    memRead (frequencyWritten p old b m) 0xFE = some b := by
  rw [frequencyWritten, memRead_memWrite_other _ _ (by decide), memRead_memWrite_same]

theorem memRead_frequencyWritten_other (p : Params) (old b : Byte) (m : Mem) {a : Nat} (h₀ : a ≠ 0x00)
    (h₁ : a ≠ 0xFE) : memRead (frequencyWritten p old b m) a = memRead m a := by
  rw [frequencyWritten, memRead_memWrite_other _ _ h₀, memRead_memWrite_other _ _ h₁, memRead_memWrite_other _ _ h₀]

/-- The first atomic step of `setFrequency(hz)`, its constants in numbers (R125). -/
theorem frequencyStart_eq_numbers (hz : Int) (s : State) :
    frequencyStart hz s = { s with
      sticky := if 0 ≤ prescale hz ∧ prescale hz ≤ 255 then s.sticky else { s.sticky with masked := true }
      draws := s.draws + 1
      expander := frequencyWritten s.cfg (mode1Answer s) (BitVec.ofInt 8 (prescale hz)) s.expander
      trace := s.trace ++
        [.busRead 0x40 0x00 (mode1Answer s),
          .busWrite 0x40 [0x00, (mode1Answer s &&& s.cfg.sleepKeep) ||| s.cfg.sleepSet],
          .busWrite 0x40 [0xFE, BitVec.ofInt 8 (prescale hz)],
          .busWrite 0x40 [0x00, mode1Answer s],
          .sleepMicros 5000] } := by
  have hbyte : byteAt (prescale hz) 0 = BitVec.ofInt 8 (prescale hz) := tickLo_eq_ofInt (prescale hz)
  rw [frequencyStart_eq, hbyte, if_congr (prescaleInRange_iff _) rfl rfl]
  rfl

/-- Settles O23: SETFREQ is DROPPED alone, or `setFrequency` up to its suspension. -/
theorem setfreqRunsToTheSettleWait : Obligations.SetfreqRunsToTheSettleWait := by
  refine fun s hz => ⟨fun h => ?_, fun h => ?_⟩
  · exact exec_of_commandOps (ops := [.flag .dropped]) (by rw [commandOps, if_pos h])
  · refine ⟨mode1Answer s, _, ?_, memRead_frequencyWritten_mode1 .., memRead_frequencyWritten_prescale ..,
      fun _ => memRead_frequencyWritten_other s.cfg (mode1Answer s) _ s.expander⟩
    have hcalls : commandOps s.cfg (.setfreq hz) = some [.setFrequency hz] := by
      rw [commandOps, if_neg (Int.not_le.2 h)]
    rw [exec_of_commandOps hcalls, runOps_setFrequency, frequencyStart_eq_numbers]
    rfl

/-- Settles O24: the continuation's first call is the wake write and FREQ, and then the rest runs. -/
theorem settleWaitEndsWithTheWakeWrite : Obligations.SettleWaitEndsWithTheWakeWrite := by
  intro s u old hz rest h hseq
  have hstep := step_of_scheduled_sequencer h hseq
  rw [runOps_settled, frequencyFinish_eq] at hstep
  obtain ⟨-, -, rfl⟩ := h
  refine ⟨_, hstep, rfl, memRead_memWrite_same _ _ _, fun a ha => memRead_memWrite_other _ _ ha, ?_⟩
  rintro rfl
  exact hstep

/-! The initialisation (R122, R123). -/

/-- The MODE1 byte the initialisation reads, after its first write. -/
def initOld (s : State) : Byte := mode1Answer (busWrite regMode1 [s.cfg.initMode1] s)

theorem initRest_eq (s : State) : initRest s = [.settled (initOld s) 50, .setInit] := by
  rw [initRest, frequencyOld_eq]
  rfl

/-- The registers after the initialisation up to its settle wait; 0x79 is the prescale of 50 Hz. -/
def initWritten (s : State) : Mem :=
  frequencyWritten s.cfg (initOld s) 0x79 (memWrite s.expander 0x00 s.cfg.initMode1)

theorem memRead_initWritten_other (s : State) {a : Nat} (h₀ : a ≠ 0x00) (h₁ : a ≠ 0xFE) :
    memRead (initWritten s) a = memRead s.expander a := by
  rw [initWritten, memRead_frequencyWritten_other _ _ _ _ h₀ h₁, memRead_memWrite_other _ _ h₀]

theorem prescale_initHz : prescale initHz = 121 := by decide

/-- The first atomic step of the initialisation, its constants in numbers (R123). -/
theorem initStart_eq (s : State) :
    initStart s = { s with
      draws := s.draws + 1
      expander := initWritten s
      trace := s.trace ++
        [.busWrite 0x40 [0x00, s.cfg.initMode1],
          .busRead 0x40 0x00 (initOld s),
          .busWrite 0x40 [0x00, (initOld s &&& s.cfg.sleepKeep) ||| s.cfg.sleepSet],
          .busWrite 0x40 [0xFE, 0x79],
          .busWrite 0x40 [0x00, initOld s],
          .sleepMicros 5000] } := by
  rw [initStart, frequencyStart_eq_numbers, prescale_initHz, if_pos (by decide), busWrite_trace, List.append_assoc]
  rfl

/-- INIT and the channel-writing commands begin with `ensureInit`, whatever the configuration (R130). -/
theorem commandOps_ensureInit_first {i : Instr} (hi : i = .init ∨ writesChannels i = true) :
    ∃ ops, ∀ p, commandOps p i = some (.ensureInit :: ops) := by
  rcases hi with rfl | hi
  · exact ⟨[], fun _ => rfl⟩
  · cases i <;> simp only [writesChannels, Bool.false_eq_true] at hi <;> exact ⟨_, fun _ => rfl⟩

/-- Settles O25: the command suspends in `ensureInit`; what is left behind it is what an initialised block runs. -/
theorem lazyInitialisationComesFirst : Obligations.LazyInitialisationComesFirst := by
  intro s i hinit hi
  obtain ⟨ops, hops⟩ := commandOps_ensureInit_first hi
  refine ⟨initOld s, ops, initWritten s, ?_, fun _ => memRead_initWritten_other s,
    fun u hu => exec_of_initialised (hops _) hu⟩
  rw [exec_of_uninitialised (hops _) hinit, initStart_eq, initRest_eq]
  rfl

/-- INIT on an initialised block changes nothing (R127). -/
theorem exec_init_of_initialised {s : State} (h : s.init = true) : exec .init s = .next s :=
  exec_of_initialised (ops := []) rfl h

/-- Settles O26: the rest of an INIT sets FREQ and INIT, after which INIT finds nothing to do. -/
theorem initCompletesOnceAndIsIdempotent : Obligations.InitCompletesOnceAndIsIdempotent := by
  refine ⟨fun s u old h hseq => ?_, fun s => exec_init_of_initialised⟩
  refine ⟨_, step_of_scheduled_sequencer h hseq, ?_⟩
  rw [runOps_settled, runOps_setInit, runOps_nil]
  exact ⟨rfl, rfl, rfl, exec_init_of_initialised rfl⟩

end Sys2Proof.Machine
end

section
/-! Runs of channel writes: what a list of `setChannel` calls on channels 0..15, with ticks in range, records and leaves
in the registers (R62, R121). -/

namespace Sys2Proof.Machine

open Sys2Proof.Config

/-- The operands of one `setChannel` (R121). -/
structure ChannelWrite where
  c : Int
  on : Int
  off : Int

/-- The write is neither dropped nor masked (R121). -/
def ChannelWrite.fits (w : ChannelWrite) : Prop :=
  (0 ≤ w.c ∧ w.c ≤ 15) ∧ 0 ≤ w.on ∧ w.on ≤ 4095 ∧ 0 ≤ w.off ∧ w.off ≤ 4095

/-- The writes as procedure calls. -/
def writeOps (ws : List ChannelWrite) : List Op := ws.map fun w => .setChannel w.c w.on w.off

/-- The bursts the writes record (R103). -/
def writeBursts (mask : Byte) (ws : List ChannelWrite) : List PortEvent :=
  ws.map fun w => channelBurst mask w.c w.on w.off

/-- The registers after the writes. -/
def writtenChannels (mask : Byte) (ws : List ChannelWrite) (m : Mem) : Mem :=
  ws.foldl (fun m w => channelWritten mask w.c w.on w.off m) m

/-- The state after the writes. -/
def afterWrites (ws : List ChannelWrite) (s : State) : State :=
  { s with
    trace := s.trace ++ writeBursts s.cfg.tickHighMask ws
    expander := writtenChannels s.cfg.tickHighMask ws s.expander }

theorem setChannel_of_fits {w : ChannelWrite} (h : w.fits) (s : State) :
    setChannel w.c w.on w.off s = afterWrites [w] s := by
  obtain ⟨⟨h₀, h₁⟩, ht⟩ := h
  rw [setChannel_eq h₀ h₁, if_pos ht]
  rfl

theorem afterWrites_afterWrites (ws ws' : List ChannelWrite) (s : State) :
    afterWrites ws' (afterWrites ws s) = afterWrites (ws ++ ws') s := by
  simp [afterWrites, writeBursts, writtenChannels]

/-- A run of fitting writes is their bursts in order (R121). -/
theorem runOps_writeOps {ws : List ChannelWrite} (h : ∀ w ∈ ws, w.fits) (rest : List Op) (s : State) :
    runOps (writeOps ws ++ rest) s = runOps rest (afterWrites ws s) := by
  induction ws generalizing s with
  | nil => simp [writeOps, afterWrites, writeBursts, writtenChannels]
  | cons w ws ih =>
    obtain ⟨hw, hws⟩ := List.forall_mem_cons.1 h
    have hfirst : runOps (writeOps (w :: ws) ++ rest) s =
        runOps (writeOps ws ++ rest) (setChannel w.c w.on w.off s) := rfl
    rw [hfirst, setChannel_of_fits hw, ih hws, afterWrites_afterWrites, List.singleton_append]

/-! The registers after a run of writes. -/

theorem memRead_writtenChannels_other {ws : List ChannelWrite} (h : ∀ w ∈ ws, w.fits) (mask : Byte) (m : Mem)
    {a : Nat} (ha : ∀ w ∈ ws, ¬ofChannel w.c a) : memRead (writtenChannels mask ws m) a = memRead m a := by
  induction ws generalizing m with
  | nil => rfl
  | cons w ws ih =>
    obtain ⟨⟨⟨h₀, h₁⟩, -⟩, hws⟩ := List.forall_mem_cons.1 h
    obtain ⟨haw, haws⟩ := List.forall_mem_cons.1 ha
    have hfirst : writtenChannels mask (w :: ws) m =
      writtenChannels mask ws (channelWritten mask w.c w.on w.off m) := rfl
    rw [hfirst, ih hws _ haws, memRead_channelWritten_other h₀ h₁ _ _ _ _ haw]

/-- A channel holds what its four registers hold (R62). -/
theorem channelHolds_congr {m m' : Mem} {mask : Byte} {c on off : Int} (h₀ : 0 ≤ c)
    (h : ∀ a, ofChannel c a → memRead m' a = memRead m a) (hm : channelHolds m mask c on off) :
    channelHolds m' mask c on off := by
  obtain ⟨h6, h7, h8, h9⟩ := hm
  have hread : ∀ k : Int, 6 ≤ k → k < 10 → memRead m' (k + 4 * c).toNat = memRead m (k + 4 * c).toNat := by
    refine fun k hk hk' => h _ ?_
    unfold ofChannel
    omega
  exact ⟨(hread 6 (by decide) (by decide)).trans h6, (hread 7 (by decide) (by decide)).trans h7,
    (hread 8 (by decide) (by decide)).trans h8, (hread 9 (by decide) (by decide)).trans h9⟩

/-- No register belongs to two channels (R62). -/
theorem ofChannel_unique {c c' : Int} {a : Nat} (h : ofChannel c a) (h' : ofChannel c' a) : c = c' := by
  unfold ofChannel at h h'
  omega

/-- Writes to different channels are all still held at the end. -/
theorem channelHolds_writtenChannels {ws : List ChannelWrite} (h : ∀ w ∈ ws, w.fits)
    (hne : (ws.map ChannelWrite.c).Nodup) (mask : Byte) (m : Mem) :
    ∀ w ∈ ws, channelHolds (writtenChannels mask ws m) mask w.c w.on w.off := by
  induction ws generalizing m with
  | nil => exact List.forall_mem_nil _
  | cons w ws ih =>
    obtain ⟨⟨⟨h₀, h₁⟩, -⟩, hws⟩ := List.forall_mem_cons.1 h
    obtain ⟨hw, hne⟩ := List.nodup_cons.1 hne
    refine List.forall_mem_cons.2 ⟨?_, ih hws hne _⟩
    refine channelHolds_congr h₀ (fun a ha => memRead_writtenChannels_other hws mask _ fun w' hw' ha' => hw ?_)
      (channelHolds_channelWritten h₀ h₁ mask w.on w.off m)
    rw [ofChannel_unique ha ha']
    exact List.mem_map_of_mem hw'

/-! Writes of the zero pair, by which channels are stopped (R155). -/

/-- The zero writes of channels. -/
def zeroWrites (cs : List Int) : List ChannelWrite := cs.map fun c => ⟨c, 0, 0⟩

theorem fits_zeroWrites {cs : List Int} (h : ∀ c ∈ cs, 0 ≤ c ∧ c ≤ 15) : ∀ w ∈ zeroWrites cs, w.fits :=
  List.forall_mem_map.2 fun c hc => ⟨h c hc, by simp⟩

theorem channelBurst_zero (mask : Byte) (c : Int) :
    channelBurst mask c 0 0 = .busWrite 0x40 [BitVec.ofInt 8 (6 + 4 * c), 0, 0, 0, 0] := by
  simp [channelBurst]

theorem writeBursts_zeroWrites (mask : Byte) (cs : List Int) :
    writeBursts mask (zeroWrites cs) = cs.map fun c => .busWrite 0x40 [BitVec.ofInt 8 (6 + 4 * c), 0, 0, 0, 0] := by
  simp only [writeBursts, zeroWrites, List.map_map]
  exact List.map_congr_left fun c _ => channelBurst_zero mask c

theorem channelHolds_zeroWrites {cs : List Int} (h : ∀ c ∈ cs, 0 ≤ c ∧ c ≤ 15) (hne : cs.Nodup) (mask : Byte)
    (m : Mem) : ∀ c ∈ cs, channelHolds (writtenChannels mask (zeroWrites cs) m) mask c 0 0 := by
  have hchannels : (zeroWrites cs).map ChannelWrite.c = cs := List.map_map.trans (List.map_id cs)
  have hholds := channelHolds_writtenChannels (fits_zeroWrites h) (by rwa [hchannels]) mask m
  exact List.forall_mem_map.1 hholds

theorem memRead_zeroWrites_other {cs : List Int} (h : ∀ c ∈ cs, 0 ≤ c ∧ c ≤ 15) (mask : Byte) (m : Mem) {a : Nat}
    (ha : ∀ c ∈ cs, ¬ofChannel c a) : memRead (writtenChannels mask (zeroWrites cs) m) a = memRead m a :=
  memRead_writtenChannels_other (fits_zeroWrites h) mask m (List.forall_mem_map.2 ha)

/-! Stopping motors (R154, R155). -/

/-- The channels of a motor, the forward one first (R154). -/
def motorChannels (i : Int) : List Int := [motorPp i, motorPn i]

theorem motorChannels_in_range {i : Int} (h₀ : 1 ≤ i) (h₁ : i ≤ 4) : ∀ c ∈ motorChannels i, 0 ≤ c ∧ c ≤ 15 := by
  simp only [motorChannels, motorPp, motorPn, List.forall_mem_cons]
  exact ⟨by omega, by omega, List.forall_mem_nil _⟩

theorem motorStopOps_of_motor {i : Int} (h₀ : 1 ≤ i) (h₁ : i ≤ 4) :
    motorStopOps i = .ensureInit :: writeOps (zeroWrites (motorChannels i)) := by
  rw [motorStopOps, if_pos ((motorOk_iff i).2 ⟨h₀, h₁⟩)]
  rfl

/-- On an initialised block the stops of motors are the zero bursts of their channels, in order (R155). -/
theorem runOps_motorStops {motors : List Int} (hm : ∀ i ∈ motors, 1 ≤ i ∧ i ≤ 4) {s : State} (h : s.init = true) :
    runOps (motors.flatMap motorStopOps) s = afterWrites (zeroWrites (motors.flatMap motorChannels)) s := by
  induction motors generalizing s with
  | nil => simp [afterWrites, writeBursts, writtenChannels, zeroWrites]
  | cons i motors ih =>
    obtain ⟨⟨h₀, h₁⟩, hm⟩ := List.forall_mem_cons.1 hm
    have hzero : zeroWrites ((i :: motors).flatMap motorChannels) =
      zeroWrites (motorChannels i) ++ zeroWrites (motors.flatMap motorChannels) := List.map_append
    have hrest := ih hm (s := afterWrites (zeroWrites (motorChannels i)) s) h
    rw [List.flatMap_cons, motorStopOps_of_motor h₀ h₁, List.cons_append, runOps_ensureInit_done h,
      runOps_writeOps (fits_zeroWrites (motorChannels_in_range h₀ h₁)), hrest, hzero, afterWrites_afterWrites]

end Sys2Proof.Machine
end

section
/-! The actuator mapper (spec/41_actuator_mapper.md): DCMOTOR, MSTOP, MSTOPALL, and what the channel-writing commands
leave unchanged (R150 to R159). -/

namespace Sys2Proof.Machine

open Sys2Proof.Config

/-! DCMOTOR (R152 to R154). -/

theorem dirSign_eq_ite (dir : Dir) : dirSign dir = if dir = .fwd then 1 else -1 := by cases dir <;> rfl

theorem clampedDuty_eq (dir : Dir) (speed : Int) :
    clampedDuty dir speed = min 4095 (max (-4095) (rawDuty dir speed)) := rfl

theorem clampedDuty_eq_rawDuty_iff (dir : Dir) (speed : Int) :
    clampedDuty dir speed = rawDuty dir speed ↔ ¬(rawDuty dir speed < -4095 ∨ 4095 < rawDuty dir speed) := by
  rw [clampedDuty_eq]
  omega

/-- The state from which the duty is written: CLAMPED set where the raw duty left the range (R153). -/
def dutyState (dir : Dir) (speed : Int) (s : State) : State :=
  if rawDuty dir speed < -4095 ∨ 4095 < rawDuty dir speed then setFlag .clamped s else s

theorem exec_dcmotor {s : State} (h : s.init = true) {idx : Int} (h₀ : 1 ≤ idx) (h₁ : idx ≤ 4) (dir : Dir)
    (speed : Int) :
    exec (.dcmotor idx dir speed) s =
      .next (runOps (dutyOps idx (clampedDuty dir speed)) (dutyState dir speed s)) := by
  rw [exec_of_initialised rfl h, if_pos ((motorOk_iff idx).2 ⟨h₀, h₁⟩), dutyState,
    if_congr (clampedDuty_eq_rawDuty_iff dir speed) rfl rfl, ite_not]
  split <;> rfl

/-- A motor index outside 1..4 is dropped (R153, R155). -/
theorem not_motorOk {idx : Int} (h : idx < 1 ∨ 4 < idx) : ¬motorOk idx = true := by
  rw [motorOk_iff]
  omega

/-- Settles O27: the calls of DCMOTOR for either index, and for either sign of the duty. -/
theorem dcmotorCompletes : Obligations.DcmotorCompletes := by
  refine fun s idx dir speed h => ⟨fun hidx => ?_, fun h₀ h₁ raw d u hraw hd hu => ?_⟩
  · rw [exec_of_initialised rfl h, if_neg (not_motorOk hidx)]
    rfl
  · rw [← dirSign_eq_ite] at hraw
    have hd' : d = clampedDuty dir speed := by rw [hd, hraw]; rfl
    have hu' : u = dutyState dir speed s := by rw [hu, hraw]; rfl
    rw [exec_dcmotor h h₀ h₁, ← hd', ← hu', dutyOps]
    split <;> rfl

/-- The channel writes of DCMOTOR: the driven channel, then the other (R153). -/
def dutyWrites (idx d : Int) : List ChannelWrite :=
  if 0 ≤ d then [⟨motorPp idx, 0, d⟩, ⟨motorPn idx, 0, 0⟩] else [⟨motorPn idx, 0, -d⟩, ⟨motorPp idx, 0, 0⟩]

theorem dutyOps_eq (idx d : Int) : dutyOps idx d = writeOps (dutyWrites idx d) := by
  unfold dutyOps dutyWrites
  split <;> rfl

theorem fits_dutyWrites {idx d : Int} (h₀ : 1 ≤ idx) (h₁ : idx ≤ 4) (hd₀ : -4095 ≤ d) (hd₁ : d ≤ 4095) :
    ∀ w ∈ dutyWrites idx d, w.fits := by
  unfold dutyWrites
  split <;> simp only [List.forall_mem_cons, List.not_mem_nil, false_implies, implies_true, and_true, ChannelWrite.fits,
    motorPp, motorPn] <;> omega

theorem nodup_dutyWrites (idx d : Int) : ((dutyWrites idx d).map ChannelWrite.c).Nodup := by
  unfold dutyWrites
  split <;> simp [motorPp, motorPn]

theorem clampedDuty_in_range (dir : Dir) (speed : Int) :
    -4095 ≤ clampedDuty dir speed ∧ clampedDuty dir speed ≤ 4095 := by
  rw [clampedDuty_eq]
  omega

/-- For either sign of the duty one channel of the motor is driven with its magnitude and the other is zeroed. -/
theorem channelHolds_dutyWrites {idx : Int} (h₀ : 1 ≤ idx) (h₁ : idx ≤ 4) {d : Int} (hd₀ : -4095 ≤ d) (hd₁ : d ≤ 4095)
    (mask : Byte) (m : Mem) :
    (0 ≤ d → channelHolds (writtenChannels mask (dutyWrites idx d) m) mask (motorPp idx) 0 d ∧
      channelHolds (writtenChannels mask (dutyWrites idx d) m) mask (motorPn idx) 0 0) ∧
    (d < 0 → channelHolds (writtenChannels mask (dutyWrites idx d) m) mask (motorPn idx) 0 (-d) ∧
      channelHolds (writtenChannels mask (dutyWrites idx d) m) mask (motorPp idx) 0 0) := by
  have hholds := channelHolds_writtenChannels (fits_dutyWrites h₀ h₁ hd₀ hd₁) (nodup_dutyWrites idx d) mask m
  refine ⟨fun hd => ?_, fun hd => ?_⟩
  · exact ⟨hholds ⟨motorPp idx, 0, d⟩ (by simp [dutyWrites, hd]), hholds ⟨motorPn idx, 0, 0⟩ (by simp [dutyWrites, hd])⟩
  · have hd' := Int.not_le.2 hd
    exact ⟨hholds ⟨motorPn idx, 0, -d⟩ (by simp [dutyWrites, hd']),
      hholds ⟨motorPp idx, 0, 0⟩ (by simp [dutyWrites, hd'])⟩

/-- Where DCMOTOR leaves an initialised block: CLAMPED perhaps, and the motor's two channels written. -/
theorem exec_dcmotor_writes {s : State} (h : s.init = true) {idx : Int} (h₀ : 1 ≤ idx) (h₁ : idx ≤ 4) (dir : Dir)
    (speed : Int) :
    exec (.dcmotor idx dir speed) s =
      .next (afterWrites (dutyWrites idx (clampedDuty dir speed)) (dutyState dir speed s)) := by
  obtain ⟨hd₀, hd₁⟩ := clampedDuty_in_range dir speed
  have hrun := runOps_writeOps (fits_dutyWrites h₀ h₁ hd₀ hd₁) [] (dutyState dir speed s)
  rw [exec_dcmotor h h₀ h₁, dutyOps_eq, ← List.append_nil (writeOps _), hrun, runOps_nil]

theorem dutyState_frame (dir : Dir) (speed : Int) (s : State) :
    (dutyState dir speed s).cfg = s.cfg ∧ (dutyState dir speed s).expander = s.expander ∧
      (dutyState dir speed s).sticky.masked = s.sticky.masked ∧
      (dutyState dir speed s).sticky.dropped = s.sticky.dropped := by
  unfold dutyState
  split <;> exact ⟨rfl, rfl, rfl, rfl⟩

/-- Settles O28: the sign of the clamped duty chooses the driven channel, and direction and speed choose the sign. -/
theorem dcmotorDrivesOneChannel : Obligations.DcmotorDrivesOneChannel := by
  intro s t idx dir speed h h₀ h₁ hexec
  rw [exec_dcmotor_writes h h₀ h₁] at hexec
  cases hexec
  obtain ⟨hcfg, -, hmasked, hdropped⟩ := dutyState_frame dir speed s
  refine ⟨?_, hmasked, hdropped⟩
  obtain ⟨hd₀, hd₁⟩ := clampedDuty_in_range dir speed
  obtain ⟨hpos, hneg⟩ := channelHolds_dutyWrites h₀ h₁ hd₀ hd₁ s.cfg.tickHighMask (dutyState dir speed s).expander
  have hfwd : dir = .fwd → clampedDuty dir speed = min 4095 (max (-4095) (speed * 41 * 1)) := by rintro rfl; rfl
  have hrev : dir = .rev → clampedDuty dir speed = min 4095 (max (-4095) (speed * 41 * -1)) := by rintro rfl; rfl
  rw [afterWrites, hcfg]
  generalize clampedDuty dir speed = d at *
  rcases Int.lt_or_le d 0 with hd | hd
  · obtain ⟨hdriven, hother⟩ := hneg hd
    refine ⟨-d, motorPn idx, motorPp idx, by omega, by omega, .inr ⟨rfl, rfl⟩, fun hdir hspeed => ?_,
      fun hdir hspeed => ⟨rfl, ?_⟩, hdriven, hother⟩
    · have := hfwd hdir
      omega
    · have := hrev hdir
      omega
  · obtain ⟨hdriven, hother⟩ := hpos hd
    refine ⟨d, motorPp idx, motorPn idx, hd, hd₁, .inl ⟨rfl, rfl⟩, fun hdir hspeed => ⟨rfl, ?_⟩,
      fun hdir hspeed => ?_, hdriven, hother⟩
    · have := hfwd hdir
      omega
    · have := hrev hdir
      omega

/-! MSTOP and MSTOPALL (R155, R156). -/

/-- Settles O29: the calls of MSTOP for either index. -/
theorem mstopCompletes : Obligations.MstopCompletes := by
  refine fun s idx h => ⟨fun hidx => ?_, fun h₀ h₁ => ?_⟩ <;> rw [exec_of_initialised rfl h]
  · rw [if_neg (not_motorOk hidx)]
    rfl
  · rw [if_pos ((motorOk_iff idx).2 ⟨h₀, h₁⟩)]
    rfl

/-- The channels of the four motors, in the order in which MSTOPALL stops them (R156). -/
theorem motorChannels_all : [1, 2, 3, 4].flatMap motorChannels = [7, 6, 5, 4, 3, 2, 1, 0] := by decide

theorem exec_mstopall {s : State} (h : s.init = true) :
    exec .mstopall s = .next (afterWrites (zeroWrites [7, 6, 5, 4, 3, 2, 1, 0]) s) := by
  rw [← motorChannels_all, ← runOps_motorStops (by decide) h]
  exact exec_of_initialised rfl h

/-- Settles O30: the eight zero bursts of the four motors' channels. -/
theorem mstopallZeroesChannelsInOrder : Obligations.MstopallZeroesChannelsInOrder := by
  intro s h
  have hrange : ∀ c ∈ ([7, 6, 5, 4, 3, 2, 1, 0] : List Int), 0 ≤ c ∧ c ≤ 15 := by decide
  refine ⟨writtenChannels s.cfg.tickHighMask (zeroWrites [7, 6, 5, 4, 3, 2, 1, 0]) s.expander, ?_,
    fun c h₀ h₁ => ?_, fun a ha => ?_⟩
  · rw [exec_mstopall h, afterWrites, writeBursts_zeroWrites]
    rfl
  · refine channelHolds_zeroWrites hrange (by decide) _ _ c ?_
    interval_cases c <;> decide
  · refine memRead_zeroWrites_other hrange _ _ ?_
    simp only [List.forall_mem_cons, List.not_mem_nil, false_implies, implies_true, and_true, ofChannel]
    omega

end Sys2Proof.Machine
end

section
/-! What a channel-writing command leaves unchanged on an initialised block (spec/41_actuator_mapper.md, R121, R150). -/

namespace Sys2Proof.Machine

open Sys2Proof.Config

/-! The calls of such a command address its channels and set its flags. -/

/-- The flags a channel-writing command may set: DROPPED, DCMOTOR also CLAMPED, SETCH and SERVO also MASKED (R150). -/
def flagAllowed (i : Instr) (f : Flag) : Prop :=
  match f with
  | .dropped => True
  | .clamped => ∃ idx dir speed, i = .dcmotor idx dir speed
  | .masked => (∃ ch on off, i = .setch ch on off) ∨ ∃ idx deg, i = .servo idx deg
  | _ => False

/-- The call passes on an initialised block, or sets an allowed flag, or writes a channel the command addresses, with
ticks in range unless the command may be masked. -/
def callAllowed (i : Instr) (op : Op) : Prop :=
  match op with
  | .ensureInit => True
  | .flag f => flagAllowed i f
  | .setChannel c on off =>
    c ∈ channelsAddressed i ∧ ((0 ≤ on ∧ on ≤ 4095 ∧ 0 ≤ off ∧ off ≤ 4095) ∨ flagAllowed i .masked)
  | _ => False

theorem callAllowed_of_fits {i : Instr} {w : ChannelWrite} (hc : w.c ∈ channelsAddressed i) (h : w.fits) :
    callAllowed i (.setChannel w.c w.on w.off) := ⟨hc, .inl h.2⟩

theorem callAllowed_motorStopOps {i : Instr} {idx : Int}
    (h : motorOk idx = true → ∀ c ∈ motorChannels idx, c ∈ channelsAddressed i) :
    ∀ op ∈ motorStopOps idx, callAllowed i op := by
  by_cases hok : motorOk idx = true
  · obtain ⟨h₀, h₁⟩ := (motorOk_iff idx).1 hok
    have hfits := fits_zeroWrites (motorChannels_in_range h₀ h₁)
    rw [motorStopOps_of_motor h₀ h₁]
    refine List.forall_mem_cons.2 ⟨trivial, List.forall_mem_map.2 fun w hw => ?_⟩
    obtain ⟨c, hc, rfl⟩ := List.mem_map.1 hw
    exact callAllowed_of_fits (h hok c hc) (hfits _ hw)
  · rw [motorStopOps, if_neg hok]
    exact List.forall_mem_cons.2 ⟨trivial, List.forall_mem_singleton.2 trivial⟩

theorem c_mem_of_dutyWrites {idx d : Int} {w : ChannelWrite} (hw : w ∈ dutyWrites idx d) :
    w.c ∈ motorChannels idx := by
  unfold dutyWrites at hw
  split at hw <;> rw [List.mem_pair] at hw <;> rcases hw with rfl | rfl <;> simp [motorChannels]

theorem callAllowed_dcmotorOps (idx : Int) (dir : Dir) (speed : Int) :
    ∀ op ∈ dcmotorOps idx dir speed, callAllowed (.dcmotor idx dir speed) op := by
  refine List.forall_mem_cons.2 ⟨trivial, ?_⟩
  split
  · rename_i hok
    obtain ⟨h₀, h₁⟩ := (motorOk_iff idx).1 hok
    obtain ⟨hd₀, hd₁⟩ := clampedDuty_in_range dir speed
    refine List.forall_mem_append.2 ⟨?_, ?_⟩
    · split
      · exact List.forall_mem_nil _
      · exact List.forall_mem_singleton.2 ⟨_, _, _, rfl⟩
    · rw [dutyOps_eq]
      refine List.forall_mem_map.2 fun w hw => callAllowed_of_fits ?_ (fits_dutyWrites h₀ h₁ hd₀ hd₁ w hw)
      rw [channelsAddressed, if_pos hok]
      exact c_mem_of_dutyWrites hw
  · exact List.forall_mem_singleton.2 trivial

theorem callAllowed_commandOps {p : Params} {i : Instr} {ops : List Op} (hi : writesChannels i = true)
    (h : commandOps p i = some ops) : ∀ op ∈ ops, callAllowed i op := by
  cases i <;> simp only [writesChannels, Bool.false_eq_true] at hi <;>
    simp only [commandOps, Option.some.injEq] at h <;> subst h
  case dcmotor => exact callAllowed_dcmotorOps _ _ _
  case mstop idx =>
    refine callAllowed_motorStopOps fun hok => ?_
    rw [channelsAddressed, if_pos hok]
    exact fun _ => id
  case mstopall =>
    simp only [List.forall_mem_cons, List.forall_mem_append]
    refine ⟨trivial, ⟨⟨?_, ?_⟩, ?_⟩, ?_⟩ <;> exact callAllowed_motorStopOps fun _ => by decide
  all_goals simp [callAllowed, flagAllowed, channelsAddressed]

/-! The frame, kept by each allowed call. -/

/-- `k'` is `k` with allowed flags set at most. -/
def flagsFrame (i : Instr) (k k' : Sticky) : Prop :=
  k' = { k with dropped := k'.dropped, clamped := k'.clamped, masked := k'.masked } ∧
    (k'.clamped ≠ k.clamped → flagAllowed i .clamped) ∧ (k'.masked ≠ k.masked → flagAllowed i .masked)

/-- `t` is `s` but for allowed flags, the history and the registers of the channels the command addresses. -/
def channelFrame (i : Instr) (s t : State) : Prop :=
  t = { s with sticky := t.sticky, trace := t.trace, expander := t.expander } ∧ flagsFrame i s.sticky t.sticky ∧
    ∀ a, (∀ c ∈ channelsAddressed i, 0 ≤ c → c ≤ 15 → ¬ofChannel c a) → memRead t.expander a = memRead s.expander a

theorem channelFrame_refl (i : Instr) (s : State) : channelFrame i s s :=
  ⟨rfl, ⟨rfl, absurd rfl, absurd rfl⟩, fun _ _ => rfl⟩

theorem flagsFrame_stickySet {i : Instr} {f : Flag} (hf : flagAllowed i f) {k k' : Sticky} (h : flagsFrame i k k') :
    flagsFrame i k (stickySet f k') := by
  obtain ⟨hk, hclamped, hmasked⟩ := h
  cases f <;> simp only [flagAllowed] at hf
  case dropped => exact ⟨by rw [hk]; rfl, hclamped, hmasked⟩
  case clamped => exact ⟨by rw [hk]; rfl, fun _ => hf, hmasked⟩
  case masked => exact ⟨by rw [hk]; rfl, hclamped, fun _ => hf⟩

theorem channelFrame_setFlag {i : Instr} {f : Flag} (hf : flagAllowed i f) {s t : State} (h : channelFrame i s t) :
    channelFrame i s (setFlag f t) := by
  obtain ⟨ht, hflags, hmem⟩ := h
  exact ⟨by rw [ht]; rfl, flagsFrame_stickySet hf hflags, hmem⟩

/-- One burst on an addressed channel changes the history and that channel's registers. -/
theorem channelFrame_burst {i : Instr} {c on off : Int} (hc : c ∈ channelsAddressed i) (h₀ : 0 ≤ c) (h₁ : c ≤ 15)
    (e : PortEvent) {s t : State} (h : channelFrame i s t) :
    channelFrame i s { t with
      trace := t.trace ++ [e], expander := channelWritten t.cfg.tickHighMask c on off t.expander } := by
  obtain ⟨ht, hflags, hmem⟩ := h
  refine ⟨by rw [ht], hflags, fun a ha => ?_⟩
  rw [← hmem a ha]
  exact memRead_channelWritten_other h₀ h₁ _ _ _ _ (ha c hc h₀ h₁)

theorem channelFrame_setChannel {i : Instr} {c on off : Int} (hc : callAllowed i (.setChannel c on off)) {s t : State}
    (h : channelFrame i s t) : channelFrame i s (setChannel c on off t) := by
  obtain ⟨hmem, hticks⟩ := hc
  by_cases hrange : 0 ≤ c ∧ c ≤ 15
  · obtain ⟨h₀, h₁⟩ := hrange
    rw [setChannel_eq h₀ h₁]
    split
    · exact channelFrame_burst hmem h₀ h₁ _ h
    · rename_i hout
      exact channelFrame_burst hmem h₀ h₁ _ (channelFrame_setFlag (f := .masked) (hticks.resolve_left hout) h)
  · rw [setChannel_dropped hrange]
    exact channelFrame_setFlag (f := .dropped) trivial h

/-- On an initialised block a run of allowed calls goes to its end. -/
theorem channelFrame_runOps {i : Instr} {ops : List Op} (hops : ∀ op ∈ ops, callAllowed i op) {s t : State}
    (hs : s.init = true) (h : channelFrame i s t) : channelFrame i s (runOps ops t) := by
  induction ops generalizing t with
  | nil => exact h
  | cons op ops ih =>
    obtain ⟨hop, hrest⟩ := List.forall_mem_cons.1 hops
    cases op <;> simp only [callAllowed] at hop
    case ensureInit =>
      have ht : t.init = true := by rw [h.1]; exact hs
      rw [runOps_ensureInit_done ht]
      exact ih hrest h
    case flag f => exact ih hrest (channelFrame_setFlag hop h)
    case setChannel c on off => exact ih hrest (channelFrame_setChannel hop h)

/-- A channel-writing command is a run of calls (R130). -/
theorem commandOps_of_writesChannels {i : Instr} (hi : writesChannels i = true) (p : Params) :
    ∃ ops, commandOps p i = some ops :=
  have ⟨_, hops⟩ := commandOps_ensureInit_first (.inr hi)
  ⟨_, hops p⟩

/-- Settles O31: every call of the command is allowed, and set flags stay set over any run of calls. -/
theorem channelCommandsFrame : Obligations.ChannelCommandsFrame := by
  intro s t i hi hinit h
  obtain ⟨ops, hops⟩ := commandOps_of_writesChannels hi s.cfg
  rw [exec_of_commandOps hops] at h
  cases h
  obtain ⟨hstate, ⟨hflags, hclamped, hmasked⟩, hmem⟩ :=
    channelFrame_runOps (callAllowed_commandOps hi hops) hinit (channelFrame_refl i s)
  exact ⟨hstate, hflags, fun f => stickyGet_runOps ops s, hclamped, hmasked, hmem⟩

end Sys2Proof.Machine
end

section
/-! The stepper (spec/42_stepper_sequencer.md): its checks, the energize bursts and the hold, the stop after the hold
(R183 to R189). -/

namespace Sys2Proof.Machine

open Sys2Proof.Config

/-! The checks before the work (R185 to R187). -/

/-- Settles O32: both magnitudes are tested for zero first. -/
theorem zeroMagnitudeOnlySetsNoopZero : Obligations.ZeroMagnitudeOnlySetsNoopZero := fun _ _ _ _ =>
  ⟨exec_of_commandOps (ops := [.flag .noopZero]) rfl, exec_of_commandOps (ops := [.flag .noopZero]) rfl⟩

theorem stepperOps_of_bad_pair {pair : Int} (h₁ : pair ≠ 1) (h₂ : pair ≠ 2) (p : Params) (dir : Dir) (model : Model)
    (deg : Int) : stepperOps p pair dir model deg = [.flag .dropped] := by
  rw [stepperOps, pairOf, if_neg h₁, if_neg h₂]

/-- Settles O33: then the pair is tested, before any initialisation. -/
theorem badPairOnlySetsDropped : Obligations.BadPairOnlySetsDropped := by
  intro s pair dir model v hv h₁ h₂
  constructor <;> refine exec_of_commandOps (ops := [.flag .dropped]) ?_ <;>
    rw [commandOps, if_neg hv, stepperOps_of_bad_pair h₁ h₂]

theorem turnDegrees_eq (turns : Int) : turnDegrees turns = 360 * turns := Int.mul_comm turns 360

/-- A stepper's calls read the magnitude of the degrees alone (R185). -/
theorem stepperOps_neg (p : Params) (pair : Int) (dir : Dir) (model : Model) (deg : Int) :
    stepperOps p pair dir model (-deg) = stepperOps p pair dir model deg := by
  unfold stepperOps
  rw [Int.natAbs_neg]

/-- Settles O37: the calls of the two commands are the same, and so are those of either sign. -/
theorem stepturnIsStepdegOf360 : Obligations.StepturnIsStepdegOf360 := by
  refine ⟨fun s pair dir model t ht => ?_, fun s pair dir model deg => ?_⟩
  · have hdeg : 360 * t ≠ 0 := by omega
    rw [exec, exec, execStepturn, execStepdeg, if_neg ht, if_neg hdeg, turnDegrees_eq]
  · rw [exec, exec, execStepdeg, execStepdeg, if_congr neg_eq_zero rfl (stepperOps_neg ..)]

/-! The work of a valid command. -/

/-- What a valid stepper command does after `ensureInit` (R185). -/
def stepperWork (p : Params) (q : Pair) (dir : Dir) (model : Model) (deg : Int) : List Op :=
  energizeOps p model q dir ++ .hold (holdMs model deg.natAbs) :: pairStopOps q

/-- The command is STEPDEG of these degrees, or STEPTURN of turns worth as many (R187). -/
def stepsPair (i : Instr) (q : Pair) (dir : Dir) (model : Model) (deg : Int) : Prop :=
  i = .stepdeg (pairIndex q) dir model deg ∨
    ∃ turns, deg = 360 * turns ∧ i = .stepturn (pairIndex q) dir model turns

theorem stepperOps_of_pair (p : Params) (q : Pair) (dir : Dir) (model : Model) (deg : Int) :
    stepperOps p (pairIndex q) dir model deg = .ensureInit :: stepperWork p q dir model deg := by
  cases q <;> rfl

theorem commandOps_of_stepsPair {i : Instr} {q : Pair} {dir : Dir} {model : Model} {deg : Int}
    (hi : stepsPair i q dir model deg) (h : deg ≠ 0) (p : Params) :
    commandOps p i = some (.ensureInit :: stepperWork p q dir model deg) := by
  rcases hi with rfl | ⟨turns, rfl, rfl⟩
  · rw [commandOps, if_neg h, stepperOps_of_pair]
  · have hturns : turns ≠ 0 := by omega
    rw [commandOps, if_neg hturns, turnDegrees_eq, stepperOps_of_pair]

/-- Settles O35: the calls begin with `ensureInit`, as INIT's do, and the work is behind it. -/
theorem stepperInitialisesAfterItsChecks : Obligations.StepperInitialisesAfterItsChecks := by
  intro s q dir model deg i hinit hdeg hi
  have hops := commandOps_of_stepsPair hi hdeg
  refine ⟨initOld s, stepperWork s.cfg q dir model deg, suspend (initRest s) (initStart s), ?_,
    congrArg (Seq.running · false) (initRest_eq s), ?_, fun u hu hcfg => ?_⟩
  · rw [exec_of_uninitialised (ops := []) rfl hinit, List.append_nil]
  · rw [exec_of_uninitialised (hops _) hinit, initRest_eq]
    rfl
  · exact exec_of_initialised (hcfg ▸ hops u.cfg) hu

/-! The channels of a configured coil map (R183). -/

/-- Every entry list of an admitted map meets its constraints (R183). -/
theorem coilListOk_of_coilMapOk {m : CoilMap} (h : coilMapOk m = true) (model : Model) (q : Pair) (dir : Dir) :
    coilListOk q (coilEntries m model q dir) = true := by
  simp only [coilMapOk, Bool.and_eq_true] at h
  obtain ⟨⟨⟨⟨⟨⟨⟨ha1f, ha1r⟩, ha2f⟩, ha2r⟩, hb1f⟩, hb1r⟩, hb2f⟩, hb2r⟩ := h
  cases model <;> cases q <;> cases dir <;> assumption

/-- Four entries that cover the four channels of the pair name each of them once (R183). -/
theorem coilChannels_perm {q : Pair} {es : List CoilEntry} (h : coilListOk q es = true) :
    (pairChannels q).Perm (es.map CoilEntry.ch) := by
  simp only [coilListOk, Bool.and_eq_true, beq_iff_eq, List.all_eq_true, List.any_eq_true] at h
  obtain ⟨⟨hlen, hcover⟩, -⟩ := h
  have hnodup : (pairChannels q).Nodup := by cases q <;> decide
  have hsub : pairChannels q ⊆ es.map CoilEntry.ch := by
    intro c hc
    obtain ⟨e, he, rfl⟩ := hcover c hc
    exact List.mem_map_of_mem he
  refine (List.subperm_of_subset hnodup hsub).perm_of_length_le ?_
  rw [List.length_map, hlen]
  cases q <;> decide

theorem mem_pairChannels_of_entry {q : Pair} {es : List CoilEntry} (h : coilListOk q es = true) {e : CoilEntry}
    (he : e ∈ es) : e.ch ∈ pairChannels q :=
  (coilChannels_perm h).mem_iff.2 (List.mem_map_of_mem he)

theorem pairChannels_le (q : Pair) : ∀ c ∈ pairChannels q, c ≤ 7 := by
  cases q <;> decide

/-! The energize bursts (R185). -/

/-- The energize writes of a stepper command, in the map's order (R185). -/
def energizeWrites (p : Params) (model : Model) (q : Pair) (dir : Dir) : List ChannelWrite :=
  (coilEntries p.coilMap model q dir).map fun e =>
    ⟨e.ch, (coilDuty p.coilTable model e.phase).on.toNat, (coilDuty p.coilTable model e.phase).off.toNat⟩

theorem energizeOps_eq (p : Params) (model : Model) (q : Pair) (dir : Dir) :
    energizeOps p model q dir = writeOps (energizeWrites p model q dir) := by
  rw [writeOps, energizeWrites, List.map_map]
  rfl

section
variable {p : Params} (h : coilMapOk p.coilMap = true) (model : Model) (q : Pair) (dir : Dir)
include h

theorem c_mem_of_energizeWrites {w : ChannelWrite} (hw : w ∈ energizeWrites p model q dir) :
    ∃ c ∈ pairChannels q, w.c = c := by
  obtain ⟨e, he, rfl⟩ := List.mem_map.1 hw
  exact ⟨e.ch, mem_pairChannels_of_entry (coilListOk_of_coilMapOk h model q dir) he, rfl⟩

theorem fits_energizeWrites : ∀ w ∈ energizeWrites p model q dir, w.fits := by
  intro w hw
  obtain ⟨c, hc, hwc⟩ := c_mem_of_energizeWrites h model q dir hw
  have hle := pairChannels_le q c hc
  obtain ⟨e, -, rfl⟩ := List.mem_map.1 hw
  have hon := (coilDuty p.coilTable model e.phase).on.isLt
  have hoff := (coilDuty p.coilTable model e.phase).off.isLt
  refine ⟨?_, ?_⟩ <;> dsimp only at hwc ⊢ <;> omega

theorem nodup_energizeWrites : ((energizeWrites p model q dir).map ChannelWrite.c).Nodup := by
  have hperm := coilChannels_perm (coilListOk_of_coilMapOk h model q dir)
  have hnodup : (pairChannels q).Nodup := by cases q <;> decide
  have hchannels : (energizeWrites p model q dir).map ChannelWrite.c =
      ((coilEntries p.coilMap model q dir).map CoilEntry.ch).map Int.ofNat := by
    rw [energizeWrites, List.map_map, List.map_map]
    rfl
  rw [hchannels]
  exact (hperm.nodup_iff.1 hnodup).map fun _ _ => Int.ofNat.inj

end

theorem channelsAddressed_of_stepsPair {i : Instr} {q : Pair} {dir : Dir} {model : Model} {deg : Int}
    (hi : stepsPair i q dir model deg) : channelsAddressed i = (pairChannels q).map Int.ofNat := by
  rcases hi with rfl | ⟨_, -, rfl⟩ <;> cases q <;> rfl

/-- The first step of a valid command on an initialised block: the energize writes, then the hold (R185). -/
theorem exec_stepper {s : State} (h : s.init = true) (hc : coilMapOk s.cfg.coilMap = true) {i : Instr} {q : Pair}
    {dir : Dir} {model : Model} {deg : Int} (hi : stepsPair i q dir model deg) (hdeg : deg ≠ 0) :
    exec i s = .next (suspend (pairStopOps q) (record (.sleepMillis (holdMs model deg.natAbs))
      { afterWrites (energizeWrites s.cfg model q dir) s with
        holdMs := BitVec.ofNat 64 (holdMs model deg.natAbs) })) := by
  rw [exec_of_initialised (commandOps_of_stepsPair hi hdeg _) h, stepperWork, energizeOps_eq,
    runOps_writeOps (fits_energizeWrites hc model q dir), runOps_hold]

/-- Settles O34: the energize writes fit, go to different channels, and reach the pair's channels only. -/
theorem stepperEnergizesAndHolds : Obligations.StepperEnergizesAndHolds := by
  intro s q dir model deg i h hc hdeg hi n hn
  obtain rfl : n = holdMs model deg.natAbs := hn.trans (by cases model <;> rfl)
  have hfits := fits_energizeWrites hc model q dir
  refine ⟨writtenChannels s.cfg.tickHighMask (energizeWrites s.cfg model q dir) s.expander, ?_, fun e he => ?_,
    fun a ha => ?_⟩
  · have hbursts : writeBursts s.cfg.tickHighMask (energizeWrites s.cfg model q dir) =
        (coilEntries s.cfg.coilMap model q dir).map (fun e =>
          channelBurst s.cfg.tickHighMask e.ch (coilDuty s.cfg.coilTable model e.phase).on.toNat
            (coilDuty s.cfg.coilTable model e.phase).off.toNat) := List.map_map
    rw [exec_stepper h hc hi hdeg, ← hbursts]
    rfl
  · exact channelHolds_writtenChannels hfits (nodup_energizeWrites hc model q dir) _ _ _ (List.mem_map_of_mem he)
  · refine memRead_writtenChannels_other hfits _ _ fun w hw => ?_
    obtain ⟨c, hmem, hwc⟩ := c_mem_of_energizeWrites hc model q dir hw
    rw [hwc]
    rw [channelsAddressed_of_stepsPair hi] at ha
    exact ha c (List.mem_map_of_mem hmem)

/-! The stop after the hold (R185, R189). -/

/-- The motors of a pair (R180). -/
def pairMotors (q : Pair) : List Int :=
  match q with
  | .one => [1, 2]
  | .two => [3, 4]

theorem pairStopOps_eq (q : Pair) : pairStopOps q = (pairMotors q).flatMap motorStopOps := by
  cases q <;> rfl

theorem pairMotors_in_range (q : Pair) : ∀ i ∈ pairMotors q, 1 ≤ i ∧ i ≤ 4 := by
  cases q <;> decide

/-- The channels of a pair in the order in which they are stopped (R185). -/
def stopChannels (q : Pair) : List Int := (pairMotors q).flatMap motorChannels

theorem stopChannels_in_range (q : Pair) : ∀ c ∈ stopChannels q, 0 ≤ c ∧ c ≤ 15 := by
  cases q <;> decide

theorem nodup_stopChannels (q : Pair) : (stopChannels q).Nodup := by
  cases q <;> decide

/-- They are the channels of the pair. -/
theorem stopChannels_perm (q : Pair) : (stopChannels q).Perm ((pairChannels q).map Int.ofNat) := by
  cases q <;> decide

/-- Settles O36: what is left is the stop of the pair's two motors, the zero bursts of their channels. -/
theorem holdEndsWithThePairStopped : Obligations.HoldEndsWithThePairStopped := by
  intro s u q h hseq hinit
  have hstep := step_of_scheduled_sequencer h hseq
  have hu : u.init = true := by rw [h.2.2]; exact hinit
  rw [pairStopOps_eq, runOps_motorStops (s := { u with seq := .idle }) (pairMotors_in_range q) hu] at hstep
  obtain ⟨-, -, rfl⟩ := h
  have hrange := stopChannels_in_range q
  have hmem : ∀ c ∈ pairChannels q, (c : Int) ∈ stopChannels q := fun c hc =>
    (stopChannels_perm q).mem_iff.2 (List.mem_map_of_mem hc)
  refine ⟨writtenChannels s.cfg.tickHighMask (zeroWrites (stopChannels q)) s.expander, ?_, fun c hc => ?_,
    fun a ha => ?_⟩
  · rw [hstep, afterWrites, writeBursts_zeroWrites]
    cases q <;> rfl
  · exact channelHolds_zeroWrites hrange (nodup_stopChannels q) _ _ c (hmem c hc)
  · refine memRead_zeroWrites_other hrange _ _ fun c' hc' => ?_
    obtain ⟨c, hc, rfl⟩ := List.mem_map.1 ((stopChannels_perm q).mem_iff.1 hc')
    exact ha c hc

/-! No stepper command touches MODE1 or PRESCALE (R188). -/

/-- A burst on a channel, or a request to the timer in milliseconds. -/
def channelOrTimerEvent (mask : Byte) (e : PortEvent) : Prop :=
  (∃ c on off, 0 ≤ c ∧ c ≤ 15 ∧ e = channelBurst mask c on off) ∨ ∃ h, e = .sleepMillis h

/-- `t` follows `s` with such events alone, the block still initialised. -/
def channelHistory (s t : State) : Prop :=
  t.init = true ∧ t.cfg = s.cfg ∧
    ∃ new, t.trace = s.trace ++ new ∧ ∀ e ∈ new, channelOrTimerEvent s.cfg.tickHighMask e

theorem channelHistory_refl {s : State} (h : s.init = true) : channelHistory s s :=
  ⟨h, rfl, [], (List.append_nil _).symm, List.forall_mem_nil _⟩

theorem channelHistory_append {s t u : State} (h : channelHistory s t) (hinit : u.init = t.init) (hcfg : u.cfg = t.cfg)
    {e : PortEvent} (htr : u.trace = t.trace ++ [e]) (he : channelOrTimerEvent s.cfg.tickHighMask e) :
    channelHistory s u := by
  obtain ⟨hi, hc, new, hnew, hall⟩ := h
  refine ⟨hinit.trans hi, hcfg.trans hc, new ++ [e], by rw [htr, hnew, List.append_assoc], ?_⟩
  exact List.forall_mem_append.2 ⟨hall, List.forall_mem_singleton.2 he⟩

theorem channelHistory_setChannel (c on off : Int) {s t : State} (h : channelHistory s t) :
    channelHistory s (setChannel c on off t) := by
  by_cases hc : 0 ≤ c ∧ c ≤ 15
  · have ⟨_, hcfg, _⟩ := h
    rw [setChannel_eq hc.1 hc.2]
    exact channelHistory_append h rfl rfl rfl (.inl ⟨c, on, off, hc.1, hc.2, by rw [hcfg]⟩)
  · rw [setChannel_dropped hc]
    exact h

theorem channelHistory_runOps {p : Params} {i : Instr} {ops : List Op} (hi : isStepper i)
    (hops : commandOps p i = some ops) {s : State} (h : s.init = true) : channelHistory s (runOps ops s) := by
  refine runOps_keeps_of_mem (P := channelHistory s) (fun op hop u hu => ?_) (fun _ _ => id) s (channelHistory_refl h)
  rcases mem_commandOps hops hop with hop | ⟨hz, rfl, -⟩ | ⟨-, n, rfl⟩
  · cases op <;> simp only [Op.isChannelCall, Bool.false_eq_true] at hop
    case ensureInit =>
      rw [runOp, if_pos hu.1]
      exact hu
    case setChannel => exact channelHistory_setChannel _ _ _ hu
    case flag => exact hu
  · rcases hi with ⟨_, _, _, _, hi⟩ | ⟨_, _, _, _, hi⟩ <;> cases hi
  · exact channelHistory_append hu rfl rfl rfl (.inr ⟨n, rfl⟩)

theorem channelHistory_exec {i : Instr} (hi : isStepper i) {s t : State} (hinit : s.init = true)
    (h : exec i s = .next t) : channelHistory s t := by
  obtain ⟨ops, hops⟩ : ∃ ops, commandOps s.cfg i = some ops := by
    rcases hi with ⟨_, _, _, _, rfl⟩ | ⟨_, _, _, _, rfl⟩ <;> exact ⟨_, rfl⟩
  rw [exec_of_commandOps hops] at h
  cases h
  exact channelHistory_runOps hi hops hinit

/-- Settles O55: each call of a stepper command is a burst, the hold, or no event; FREQ is no first step's to write. -/
theorem stepperChangesNoFrequency : Obligations.StepperChangesNoFrequency := by
  intro s t p d m v hinit h
  obtain ⟨i, hi, h⟩ : ∃ i, isStepper i ∧ exec i s = .next t := by
    rcases h with h | h
    · exact ⟨_, .inl ⟨p, d, m, v, rfl⟩, h⟩
    · exact ⟨_, .inr ⟨p, d, m, v, rfl⟩, h⟩
  obtain ⟨-, -, -, -, -, -, hfreq, -⟩ := registersHaveTheirOnlyWriters i s t h
  obtain ⟨-, -, hnew⟩ := channelHistory_exec hi hinit h
  exact ⟨hfreq, hnew⟩

end Sys2Proof.Machine
end

section
/-! The commands of the phototransistor (spec/43_phototransistor.md): LREAD and LWATCH (R213, R215). -/

namespace Sys2Proof.Machine

open Sys2Proof.Config

/-! LREAD (R210, R213). -/

theorem condHolds_int (level : Int) (thresh : Word32) : condHolds .int level thresh = decide (thresh.toInt < level) :=
  rfl

theorem condHolds_notInt (level : Int) (thresh : Word32) :
    condHolds .notInt level thresh = decide (level ≤ thresh.toInt) := by
  rw [condHolds, above, ← decide_not]
  exact decide_eq_decide.2 Int.not_lt

/-- A listed level is the next answer (log entry 5). -/
theorem analogAnswer_of_listed {s : State} {l : Level} {ls : List Level} (h : s.levels = l :: ls) (pin : Pin) :
    analogAnswer pin s = l := by
  rw [analogAnswer, h]

/-- Settles O39: the level is the port's answer, and the condition is compared with it. -/
theorem lreadStoresTheAnswer : Obligations.LreadStoresTheAnswer := by
  refine fun s pin cond => ⟨analogAnswer pin s, ?_, fun l ls h => analogAnswer_of_listed h pin⟩
  rw [exec, execLread]
  cases cond
  · rw [condHolds_int]
    rfl
  · rw [condHolds_notInt]
    rfl

/-- No level lies above ANALOG_MAX (R64). -/
theorem level_le (l : Level) : l.val ≤ 1023 := Nat.le_of_lt_succ l.isLt

/-- Settles O40: a level is a number of 0..1023, so it is never above 1023 and always above a negative threshold. -/
theorem lreadExtremeThresholds : Obligations.LreadExtremeThresholds := by
  intro s t pin h
  cases h
  have hle := level_le (analogAnswer pin s)
  refine ⟨fun hthresh => ?_, fun hthresh => ?_⟩ <;> dsimp only <;> rw [condHolds_int]
  · exact decide_eq_false (by omega)
  · exact decide_eq_true (by omega)

/-! LWATCH (R215). -/

theorem monFull_iff (s : State) : monFull s = true ↔ s.cfg.monCapacity = some s.mon.length := by
  rw [monFull]
  cases s.cfg.monCapacity with
  | none => simp
  | some n => rw [beq_iff_eq, Option.some.injEq, eq_comm]

theorem exec_lwatch_full {s : State} (h : monFull s = true) (pin : Pin) (cond : Cond) :
    exec (.lwatch pin cond) s = .next (setFlag .dropped s) := by
  rw [exec, execLwatch, if_pos h]

theorem exec_lwatch_free {s : State} (h : ¬monFull s = true) (pin : Pin) (cond : Cond) :
    exec (.lwatch pin cond) s = .next { s with mon := s.mon ++ [⟨pin, cond, .sample⟩] } := by
  rw [exec, execLwatch, if_neg h]

/-- Settles O42: the capacity is full, or the registration is appended. -/
theorem lwatchRegistersOrDrops : Obligations.LwatchRegistersOrDrops := fun s pin cond =>
  ⟨fun hfull => exec_lwatch_full ((monFull_iff s).2 hfull) pin cond,
    fun hfree => exec_lwatch_free ((monFull_iff s).not.2 hfree) pin cond⟩

end Sys2Proof.Machine
end

section
/-! Noninterference (spec/10_state.md, R23, R27, R40): no computation reads FREQ, and no command reads a sticky
flag. -/

namespace Sys2Proof.Machine

open Sys2Proof.Config

/-- The state with another FREQ. -/
def withFreq (f : Word32) (s : State) : State := { s with freq := f }

/-- The state with other sticky flags. -/
def withSticky (k : Sticky) (s : State) : State := { s with sticky := k }

/-- A field that no procedure call reads, and that no suspension touches, no run of calls reads. -/
theorem runOps_set {α : Type} (set : α → State → State)
    (hop : ∀ op s a, ∃ b, runOp op (set a s) = (set b (runOp op s).1, (runOp op s).2))
    (hs : ∀ k s a, suspend k (set a s) = set a (suspend k s)) (ops : List Op) (s : State) (a : α) :
    ∃ b, runOps ops (set a s) = set b (runOps ops s) := by
  induction ops generalizing s a with
  | nil => exact ⟨a, rfl⟩
  | cons op rest ih =>
    obtain ⟨b, hb⟩ := hop op s a
    simp only [runOps, hb]
    rcases runOp op s with ⟨u, _ | k⟩
    · exact ih u b
    · exact ⟨b, hs _ u b⟩

/-! Procedure calls. -/

theorem frequencyStart_withSticky (hz : Int) (s : State) (k : Sticky) :
    ∃ k', frequencyStart hz (withSticky k s) = withSticky k' (frequencyStart hz s) := by
  simp only [frequencyStart_eq]
  exact ⟨_, rfl⟩

theorem setChannel_withSticky (c on off : Int) (s : State) (k : Sticky) :
    ∃ k', setChannel c on off (withSticky k s) = withSticky k' (setChannel c on off s) := by
  by_cases hc : 0 ≤ c ∧ c ≤ 15
  · simp only [setChannel_eq hc.1 hc.2]
    exact ⟨_, rfl⟩
  · simp only [setChannel_dropped hc]
    exact ⟨_, rfl⟩

theorem runOp_withSticky (op : Op) (s : State) (k : Sticky) :
    ∃ k', runOp op (withSticky k s) = (withSticky k' (runOp op s).1, (runOp op s).2) := by
  cases op with
  | ensureInit =>
    by_cases h : s.init = true
    · exact ⟨k, by simp [runOp, withSticky, h]⟩
    · obtain ⟨k', e⟩ := frequencyStart_withSticky initHz (busWrite regMode1 [s.cfg.initMode1] s) k
      refine ⟨k', ?_⟩
      rw [runOp, runOp, if_neg h, if_neg (c := (withSticky k s).init = true) h]
      simp only [initRest_eq]
      exact congrArg (·, _) e
  | setFrequency hz =>
    obtain ⟨k', e⟩ := frequencyStart_withSticky hz s k
    simp only [runOp, frequencyOld_eq, e]
    exact ⟨k', rfl⟩
  | settled old hz => exact ⟨k, rfl⟩
  | setInit => exact ⟨k, rfl⟩
  | setChannel c on off =>
    obtain ⟨k', e⟩ := setChannel_withSticky c on off s k
    exact ⟨k', congrArg (·, none) e⟩
  | flag f => exact ⟨stickySet f k, rfl⟩
  | hold h => exact ⟨k, rfl⟩

theorem runOp_withFreq (op : Op) (s : State) (f : Word32) :
    ∃ g, runOp op (withFreq f s) = (withFreq g (runOp op s).1, (runOp op s).2) := by
  cases op with
  | ensureInit =>
    by_cases h : s.init = true
    · exact ⟨f, by simp [runOp, withFreq, h]⟩
    · refine ⟨f, ?_⟩
      rw [runOp, runOp, if_neg h, if_neg (c := (withFreq f s).init = true) h]
      simp only [initStart_eq, initRest_eq]
      rfl
  | setFrequency hz =>
    simp only [runOp, frequencyOld_eq, frequencyStart_eq]
    exact ⟨f, rfl⟩
  | settled old hz => exact ⟨BitVec.ofInt 32 hz, rfl⟩
  | setInit => exact ⟨f, rfl⟩
  | setChannel c on off =>
    refine ⟨f, ?_⟩
    by_cases hc : 0 ≤ c ∧ c ≤ 15
    · simp only [runOp, setChannel_eq hc.1 hc.2]
      rfl
    · simp only [runOp, setChannel_dropped hc]
      rfl
  | flag g => exact ⟨f, rfl⟩
  | hold h => exact ⟨f, rfl⟩

theorem runOps_withSticky (ops : List Op) (s : State) (k : Sticky) :
    ∃ k', runOps ops (withSticky k s) = withSticky k' (runOps ops s) :=
  runOps_set withSticky runOp_withSticky (fun _ _ _ => rfl) ops s k

theorem runOps_withFreq (ops : List Op) (s : State) (f : Word32) :
    ∃ g, runOps ops (withFreq f s) = withFreq g (runOps ops s) :=
  runOps_set withFreq runOp_withFreq (fun _ _ _ => rfl) ops s f

/-! Commands. -/

/-- Settles O59: a run of calls reads no flag, and each of the other commands is one update that reads none. -/
theorem stickyFlagsAreReadByNoCommand : Obligations.StickyFlagsAreReadByNoCommand := by
  intro i s t k h
  cases hops : commandOps s.cfg i with
  | some ops =>
    rw [exec_of_commandOps hops] at h
    cases h
    obtain ⟨k', e⟩ := runOps_withSticky ops s k
    exact ⟨k', (exec_of_commandOps (s := withSticky k s) hops).trans (congrArg _ e)⟩
  | none =>
    cases i <;> simp only [commandOps, reduceCtorEq] at hops
    case lwatch pin cond =>
      by_cases hfull : monFull s = true
      · rw [exec_lwatch_full hfull] at h
        cases h
        exact ⟨stickySet .dropped k, exec_lwatch_full (s := withSticky k s) hfull pin cond⟩
      · rw [exec_lwatch_free hfull] at h
        cases h
        exact ⟨k, exec_lwatch_free (s := withSticky k s) hfull pin cond⟩
    all_goals
      cases h
      exact ⟨_, rfl⟩

theorem exec_withFreq {i : Instr} {s t : State} (h : exec i s = .next t) (f : Word32) :
    ∃ g, exec i (withFreq f s) = .next (withFreq g t) := by
  cases hops : commandOps s.cfg i with
  | some ops =>
    rw [exec_of_commandOps hops] at h
    cases h
    obtain ⟨g, e⟩ := runOps_withFreq ops s f
    exact ⟨g, (exec_of_commandOps (s := withFreq f s) hops).trans (congrArg _ e)⟩
  | none =>
    refine ⟨f, ?_⟩
    cases i <;> simp only [commandOps, reduceCtorEq] at hops
    case lwatch pin cond =>
      by_cases hfull : monFull s = true
      · rw [exec_lwatch_full hfull] at h
        cases h
        exact exec_lwatch_full (s := withFreq f s) hfull pin cond
      · rw [exec_lwatch_free hfull] at h
        cases h
        exact exec_lwatch_free (s := withFreq f s) hfull pin cond
    all_goals
      cases h
      rfl

/-! Moves. -/

theorem issue_withFreq {w : Command} {s t : State} (h : issue w s = .next t) (f : Word32) :
    ∃ g, issue w (withFreq f s) = .next (withFreq g t) := by
  by_cases hb : s.busy = true
  · rw [issue_of_busy hb] at h
    cases h
    exact ⟨f, issue_of_busy (s := withFreq f s) hb w⟩
  have hidle : s.busy = false := Bool.not_eq_true _ ▸ hb
  cases hd : decode w with
  | error e =>
    rw [issue_of_decode_error hidle hd] at h
    cases h
    exact ⟨f, issue_of_decode_error (s := withFreq f s) hidle hd⟩
  | ok i =>
    rw [issue_of_decode_ok hidle hd] at h
    rw [issue_of_decode_ok (s := withFreq f s) hidle hd]
    exact exec_withFreq h f

/-- FREQ is read at its own offset alone (R33). -/
theorem hostRegister_withFreq {off : Nat} (h : off ≠ 0x0C) (f : Word32) (s : State) :
    hostRegister off (withFreq f s) = hostRegister off s := by
  unfold hostRegister
  split
  case h_2 => exact absurd rfl h
  all_goals rfl

theorem hostRead_withFreq {address size : Nat} {s t : State} (h : hostRead address size s = .next t)
    (hne : ¬(address = s.cfg.hostBase + 0x0C ∧ size = 4)) (f : Word32) :
    hostRead address size (withFreq f s) = .next (withFreq f t) := by
  rw [hostRead] at h ⊢
  rw [show (withFreq f s).cfg = s.cfg from rfl]
  cases hoff : hostOffset s.cfg address size with
  | none =>
    rw [hoff] at h
    cases h
  | some off =>
    rw [hoff] at h
    cases h
    obtain ⟨rfl, rfl, -, -⟩ := hostOffset_eq_some hoff
    have hne' : off ≠ 0x0C := by rintro rfl; exact hne ⟨rfl, rfl⟩
    simp only [hostRegister_withFreq hne']
    rfl

theorem writeRegister_withFreq {off : Nat} {v : Word32} {s t : State} (h : writeRegister off v s = .next t)
    (f : Word32) : ∃ g, writeRegister off v (withFreq f s) = .next (withFreq g t) := by
  rcases eq_or_ne off 0x00 with rfl | h₀
  · cases h
    exact ⟨f, rfl⟩
  rcases eq_or_ne off 0x04 with rfl | h₁
  · exact issue_withFreq h f
  · rw [writeRegister_ignored h₀ h₁] at h
    cases h
    exact ⟨f, writeRegister_ignored h₀ h₁ v _⟩

theorem hostWrite_withFreq {address size : Nat} {v : Word32} {s t : State} (h : hostWrite address size v s = .next t)
    (f : Word32) : ∃ g, hostWrite address size v (withFreq f s) = .next (withFreq g t) := by
  rw [hostWrite] at h
  rw [hostWrite, show (withFreq f s).cfg = s.cfg from rfl]
  cases hoff : hostOffset s.cfg address size with
  | none =>
    rw [hoff] at h
    cases h
  | some off =>
    rw [hoff] at h
    exact writeRegister_withFreq h f

theorem doMove_withFreq {m : Move} {s t : State} (h : doMove m s = .next t)
    (hm : m ≠ .hostRead (s.cfg.hostBase + 0x0C) 4) (f : Word32) :
    ∃ g, doMove m (withFreq f s) = .next (withFreq g t) := by
  rcases doMove_cases h with ⟨off, v, rfl, -, -⟩ | ⟨v, rfl, -⟩ | ⟨off, rfl, -⟩ | ⟨k, rfl, hseq, rfl⟩ |
    ⟨k, rfl, hseq, rfl⟩ | ⟨i, pin, cond, rfl, hmon, rfl⟩ | ⟨i, pin, cond, rfl, hmon, rfl⟩ | ⟨rfl, rfl⟩
  · exact hostWrite_withFreq h f
  · exact hostWrite_withFreq h f
  · exact ⟨f, hostRead_withFreq h (fun ⟨e, _⟩ => hm (by rw [e])) f⟩
  · exact ⟨f, by simp only [doMove, timerSeq, withFreq, hseq]⟩
  · obtain ⟨g, hg⟩ := runOps_withFreq k { s with seq := .idle } f
    refine ⟨g, ?_⟩
    simp only [doMove, resume, withFreq, hseq]
    exact congrArg _ hg
  · exact ⟨f, by simp only [doMove, timerMon, withFreq, hmon]⟩
  · refine ⟨f, ?_⟩
    simp only [doMove, tick, withFreq, hmon, monitorTick_eq]
    rfl
  · exact ⟨0, rfl⟩

/-- Where no move is left the machine waits (R280). -/
theorem step_of_no_move {s : State} (hc : coilMapOk s.cfg.coilMap = true) (h : nextMove s = none) :
    step s = .next s := by
  rw [step, stepMove, if_pos hc, h]

/-- Settles O58: no move but the host's read of it reads FREQ. -/
theorem freqIsReadByNoComputation : Obligations.FreqIsReadByNoComputation := by
  intro s t f h hread
  obtain ⟨hc, ⟨hm, rfl⟩ | ⟨m, hm, hmove⟩⟩ := step_cases h
  · exact ⟨f, step_of_no_move (s := withFreq f t) hc hm⟩
  · obtain ⟨g, hg⟩ := doMove_withFreq (s := takeMove s) hmove (by rintro rfl; exact hread hm) f
    exact ⟨g, (step_of_scheduled (s := withFreq f s) ⟨hc, hm, rfl⟩).trans hg⟩

end Sys2Proof.Machine
end

section
/-! Bounded progress (spec/70_reset_and_hazards.md, R216, R284, R296): each answered suspension leaves fewer calls that
can suspend, and every agent's turn comes within one round. -/

namespace Sys2Proof.Machine

open Sys2Proof.Config

/-! Each continuation of a command has fewer suspensions left than the one before. -/

/-- The call can suspend the command (R65). -/
def Op.suspends (op : Op) : Bool :=
  match op with
  | .ensureInit | .setFrequency _ | .hold _ => true
  | _ => false

/-- How often a continuation can still suspend. -/
def suspensions (k : List Op) : Nat := k.countP Op.suspends

/-- What a suspended call leaves of itself does not suspend again. -/
theorem suspensions_of_runOp {op : Op} {s u : State} {k : List Op} (h : runOp op s = (u, some k)) :
    op.suspends = true ∧ suspensions k = 0 := by
  cases op <;> simp only [runOp, Prod.mk.injEq, Option.some.injEq, reduceCtorEq, and_false] at h
  case ensureInit =>
    split at h <;> cases h
    exact ⟨rfl, rfl⟩
  case setFrequency =>
    rw [← h.2]
    exact ⟨rfl, rfl⟩
  case hold =>
    rw [← h.2]
    exact ⟨rfl, rfl⟩

/-- A run of calls ends the command, or suspends it with fewer suspensions left. -/
theorem runOps_seq_cases (k : List Op) {s : State} (h : s.seq = .idle) :
    (runOps k s).seq = .idle ∨ ∃ k', (runOps k s).seq = .running k' false ∧ suspensions k' < suspensions k := by
  induction k generalizing s with
  | nil => exact .inl h
  | cons op rest ih =>
    have hu : (runOp op s).1.seq = .idle := (runOp_seq op s).trans h
    rw [runOps]
    rcases hrun : runOp op s with ⟨u, _ | k⟩ <;> rw [hrun] at hu
    · refine (ih hu).imp_right fun ⟨k', hk', hlt⟩ => ⟨k', hk', hlt.trans_le ?_⟩
      exact (List.sublist_cons_self op rest).countP_le
    · obtain ⟨hop, hk⟩ := suspensions_of_runOp hrun
      refine .inr ⟨k ++ rest, rfl, ?_⟩
      rw [suspensions] at hk
      rw [suspensions, suspensions, List.countP_append, List.countP_cons_of_pos hop, hk, Nat.zero_add]
      exact Nat.lt_succ_self _

/-! Where the answers and continuations are listed (R65, R75). -/

/-- The state after one listed round. -/
def afterRound (k : List Op) (s : State) : State := runOps k { s with seq := .idle, turn := s.turn + 2 }

theorem core_run_round {s : State} (hc : coilMapOk s.cfg.coilMap = true) {k : List Op} (h : s.seq = .running k false)
    (rest : List Move) :
    Sys2Proof.core.run 2 { s with moves := .timerSeq :: .sequencer :: rest } =
      .next { afterRound k s with moves := rest } := by
  have hanswer : scheduled { s with moves := .timerSeq :: .sequencer :: rest } .timerSeq
      { s with moves := .sequencer :: rest, turn := s.turn + 1 } := ⟨hc, rfl, rfl⟩
  have hresume : scheduled { s with moves := .sequencer :: rest, turn := s.turn + 1, seq := .running k true } .sequencer
      { s with moves := rest, turn := s.turn + 2, seq := .running k true } := ⟨hc, rfl, rfl⟩
  rw [core_run_next 1 (timerAnswersWakeTheirAgent.2 _ _ k hanswer h),
    core_run_next 0 (step_of_scheduled_sequencer hresume rfl), afterRound, ← runOps_moves]
  rfl

theorem afterRound_cfg (k : List Op) (s : State) : (afterRound k s).cfg = s.cfg := by
  obtain ⟨_, _, _, _, _, _, _, _, -, e⟩ := runOps_shape k { s with seq := .idle, turn := s.turn + 2 }
  rw [afterRound, e]

/-- As many rounds as there are suspensions left, and one more, end the command. -/
theorem core_run_answerRounds {s : State} (hc : coilMapOk s.cfg.coilMap = true) {k : List Op}
    (h : s.seq = .running k false) (ms : List Move) :
    ∃ (n : Nat) (t : State), n ≤ suspensions k + 1 ∧ t.seq = .idle ∧ t.moves = ms ∧
      Sys2Proof.core.run (2 * n) { s with moves := answerRounds n ++ ms } = .next t := by
  induction hm : suspensions k using Nat.strongRecOn generalizing s k with
  | _ m ih =>
    have hc' : coilMapOk (afterRound k s).cfg.coilMap = true := by rw [afterRound_cfg]; exact hc
    rcases runOps_seq_cases k (s := { s with seq := .idle, turn := s.turn + 2 }) rfl with hidle | ⟨k', hk', hlt⟩
    · exact ⟨1, { afterRound k s with moves := ms }, by omega, hidle, rfl, core_run_round hc h ms⟩
    · obtain ⟨n, t, hn, ht, hmoves, hrun⟩ := ih (suspensions k') (by omega) hc' hk' rfl
      refine ⟨n + 1, t, by omega, ht, hmoves, ?_⟩
      rw [Nat.mul_add, Nat.add_comm]
      exact (core_run_add 2 (2 * n) (core_run_round hc h (answerRounds n ++ ms))).trans hrun

/-! Where the agents take turns (log entry 1). -/

/-- From `s` to `t` nothing came to be listed, and the agents are as many as they were. -/
def keepsTurns (s t : State) : Prop := t.moves = [] ∧ t.cfg = s.cfg ∧ t.mon.length = s.mon.length

theorem keepsTurns_refl {s : State} (h : s.moves = []) : keepsTurns s s := ⟨h, rfl, rfl⟩

theorem keepsTurns_trans {s t u : State} (h : keepsTurns s t) (h' : keepsTurns t u) : keepsTurns s u :=
  ⟨h'.1, h'.2.1.trans h.2.1, h'.2.2.trans h.2.2⟩

/-- How many steps of its own the sequencer takes at most until it is idle: two a suspension. -/
def seqSteps (q : Seq) : Nat :=
  match q with
  | .idle => 0
  | .running k false => 2 * suspensions k + 2
  | .running k true => 2 * suspensions k + 1

/-- The sequencer has its own step while a command runs (R75). -/
theorem agentMove_sequencer {s : State} (h : s.seq ≠ .idle) :
    agentMove s 0 = some .timerSeq ∨ agentMove s 0 = some .sequencer := by
  rw [agentMove]
  cases hseq : s.seq with
  | idle => exact absurd hseq h
  | running k answered => cases answered <;> simp

/-- A registered monitor's own step, by its phase (R31, R216). -/
theorem agentMove_monitor_cases {s : State} {i : Nat} (h : i < s.mon.length) :
    (∃ pin cond, s.mon[i]? = some ⟨pin, cond, .sleeping⟩ ∧ agentMove s (i + 1) = some (.timerMon i)) ∨
      ∃ pin cond, s.mon[i]? = some ⟨pin, cond, .sample⟩ ∧ agentMove s (i + 1) = some (.tick i) := by
  rw [agentMove]
  rcases hmon : s.mon[i]? with _ | ⟨pin, cond, _ | _⟩
  · exact absurd h (Nat.not_lt.2 (List.getElem?_eq_none_iff.1 hmon))
  · exact .inr ⟨pin, cond, rfl, rfl⟩
  · exact .inl ⟨pin, cond, rfl, rfl⟩

/-- The move brings the running command nearer to its end, or it is not the sequencer's and leaves the command. -/
def advances (m : Move) (s t : State) : Prop :=
  seqSteps t.seq < seqSteps s.seq ∨ t.seq = s.seq ∧ m ≠ .timerSeq ∧ m ≠ .sequencer

/-- What an agent's own step does: the sequencer's brings its command nearer to its end, a monitor's leaves it. -/
theorem doMove_of_agentMove {s : State} {agent : Nat} {m : Move} (h : agentMove s agent = some m) :
    ∃ t, doMove m s = .next t ∧ t.moves = s.moves ∧ t.cfg = s.cfg ∧ t.mon.length = s.mon.length ∧ t.turn = s.turn ∧
      advances m s t := by
  cases agent with
  | zero =>
    rw [agentMove] at h
    split at h <;> cases h
    · rename_i k hseq
      refine ⟨{ s with seq := .running k true }, by simp only [doMove, timerSeq, hseq], rfl, rfl, rfl, rfl, .inl ?_⟩
      rw [hseq]
      exact Nat.lt_succ_self _
    · rename_i k hseq
      refine ⟨runOps k { s with seq := .idle }, by simp only [doMove, resume, hseq], ?_⟩
      have hdone := runOps_seq_cases k (s := { s with seq := .idle }) rfl
      obtain ⟨_, _, _, _, _, _, _, _, -, e⟩ := runOps_shape k { s with seq := .idle }
      rw [e] at hdone ⊢
      refine ⟨rfl, rfl, rfl, rfl, .inl ?_⟩
      rw [hseq]
      rcases hdone with hidle | ⟨k', hk', hlt⟩
      · rw [hidle]
        exact Nat.succ_pos _
      · rw [hk']
        simp only [seqSteps]
        omega
  | succ i =>
    rw [agentMove] at h
    split at h <;> cases h
    · rename_i pin cond hmon
      exact ⟨{ s with mon := s.mon.set i ⟨pin, cond, .sample⟩ }, by simp only [doMove, timerMon, hmon], rfl, rfl,
        List.length_set, rfl, .inr ⟨rfl, by simp, by simp⟩⟩
    · rename_i pin cond hmon
      refine ⟨monitorTick i ⟨pin, cond, .sample⟩ s, by simp only [doMove, tick, hmon], ?_⟩
      rw [monitorTick_eq]
      exact ⟨rfl, rfl, List.length_set, rfl, .inr ⟨rfl, by simp, by simp⟩⟩

/-- A step in turn. -/
theorem step_in_turn {s : State} (hc : coilMapOk s.cfg.coilMap = true) (hm : s.moves = []) {m : Move}
    (h : nextMove s = some m) :
    ∃ t, step s = .next t ∧ keepsTurns s t ∧ t.turn = s.turn + 1 ∧ advances m s t := by
  obtain ⟨agent, hagent⟩ := nextMove_agent hm h
  obtain ⟨t, ht, hmoves, hcfg, hmon, hturn, hseq⟩ := doMove_of_agentMove (s := takeMove s) hagent
  refine ⟨t, (step_of_scheduled ⟨hc, h, rfl⟩).trans ht, ⟨?_, hcfg, hmon⟩, hturn, hseq⟩
  rw [hmoves, takeMove_moves, hm, List.tail_nil]

/-- With an agent that has a step, some step is taken in turn. -/
theorem exists_step_in_turn {s : State} (hc : coilMapOk s.cfg.coilMap = true) (hm : s.moves = []) {agent : Nat}
    (ha : agent < agentCount s) (h : agentMove s agent ≠ none) :
    ∃ m t, nextMove s = some m ∧ step s = .next t ∧ keepsTurns s t ∧ t.turn = s.turn + 1 ∧ advances m s t := by
  obtain ⟨m, hnext⟩ := Option.ne_none_iff_exists'.1 (nextMove_ne_none hm ha h)
  obtain ⟨t, ht⟩ := step_in_turn hc hm hnext
  exact ⟨m, t, hnext, ht⟩

/-- When the sequencer's turn is `j` steps away, it takes a step of its own within j + 1. -/
theorem sequencer_steps_in_turn (j : Nat) {s : State} (hc : coilMapOk s.cfg.coilMap = true) (hm : s.moves = [])
    (hseq : s.seq ≠ .idle) (hj : (s.turn + j) % agentCount s = 0) :
    ∃ n t, n ≤ j + 1 ∧ Sys2Proof.core.run n s = .next t ∧ keepsTurns s t ∧ seqSteps t.seq < seqSteps s.seq := by
  have hmine := agentMove_sequencer hseq
  have hready : agentMove s 0 ≠ none := by rcases hmine with e | e <;> simp [e]
  obtain ⟨m, t, hnext, hstep, hkeeps, hturn, hlt | ⟨hsame, hm₁, hm₂⟩⟩ :=
    exists_step_in_turn hc hm (Nat.succ_pos _) hready
  · exact ⟨1, t, by omega, core_run_next 0 hstep, hkeeps, hlt⟩
  cases j with
  | zero =>
    rw [Nat.add_zero] at hj
    have hmove : ∀ m', agentMove s 0 = some m' → m = m' := fun m' e =>
      Option.some.inj (hnext.symm.trans (nextMove_turn hm (by rw [hj, e])))
    rcases hmine with e | e
    · exact absurd (hmove _ e) hm₁
    · exact absurd (hmove _ e) hm₂
  | succ j =>
    have ⟨hmt, hcfg, hlen⟩ := hkeeps
    have hcount : agentCount t = agentCount s := congrArg (· + 1) hlen
    obtain ⟨n, u, hn, hrun, hkeeps', hlt⟩ := sequencer_steps_in_turn j (s := t) (by rw [hcfg]; exact hc) hmt
      (by rw [hsame]; exact hseq) (by rw [hturn, hcount, Nat.add_right_comm, Nat.add_assoc]; exact hj)
    exact ⟨n + 1, u, by omega, (core_run_next n hstep).trans hrun, keepsTurns_trans hkeeps hkeeps',
      hsame ▸ hlt⟩

/-- While the agents take turns a command ends within as many rounds as the sequencer has steps left. -/
theorem command_ends_in_turn (w : Nat) {s : State} (hc : coilMapOk s.cfg.coilMap = true) (hm : s.moves = [])
    (hw : seqSteps s.seq ≤ w) :
    ∃ n t, n ≤ w * agentCount s ∧ t.seq = .idle ∧ t.moves = [] ∧ Sys2Proof.core.run n s = .next t := by
  by_cases hseq : s.seq = .idle
  · exact ⟨0, s, Nat.zero_le _, hseq, hm, rfl⟩
  obtain ⟨j, hjlt, hj⟩ := turn_comes s.turn (agentCount s) 0 (Nat.succ_pos _)
  obtain ⟨n, t, hn, hrun, ⟨hmt, hcfg, hlen⟩, hlt⟩ := sequencer_steps_in_turn j hc hm hseq hj
  cases w with
  | zero => omega
  | succ w =>
    have hcount : agentCount t = agentCount s := congrArg (· + 1) hlen
    obtain ⟨n', u, hn', hidle, hmu, hrun'⟩ := command_ends_in_turn w (s := t) (by rw [hcfg]; exact hc) hmt (by omega)
    rw [hcount] at hn'
    refine ⟨n + n', u, ?_, hidle, hmu, (core_run_add n n' hrun).trans hrun'⟩
    rw [Nat.succ_mul]
    omega

/-- With a monitor registered the agents go on taking turns (R216). -/
theorem core_run_in_turn (n : Nat) {s : State} (hc : coilMapOk s.cfg.coilMap = true) (hm : s.moves = [])
    (hmon : 0 < s.mon.length) :
    ∃ t, Sys2Proof.core.run n s = .next t ∧ keepsTurns s t ∧ t.turn = s.turn + n := by
  induction n generalizing s with
  | zero => exact ⟨s, rfl, keepsTurns_refl hm, rfl⟩
  | succ n ih =>
    have hready : agentMove s 1 ≠ none := by rcases agentMove_monitor hmon with e | e <;> simp [e]
    obtain ⟨_, t, -, hstep, hkeeps, hturn, -⟩ := exists_step_in_turn hc hm (Nat.succ_lt_succ hmon) hready
    have ⟨hmt, hcfg, hlen⟩ := hkeeps
    obtain ⟨u, hrun, hkeeps', hturn'⟩ := ih (s := t) (by rw [hcfg]; exact hc) hmt (by rw [hlen]; exact hmon)
    exact ⟨u, (core_run_next n hstep).trans hrun, keepsTurns_trans hkeeps hkeeps', by omega⟩

/-! The obligation. -/

/-- Settles O57: listed rounds, turns of the sequencer, and turns of a monitor. -/
theorem suspendedCommandsCompleteAndMonitorsGoOn : Obligations.SuspendedCommandsCompleteAndMonitorsGoOn := by
  refine ⟨fun s k ms hc hseq => ?_, fun s k hc hseq hm => ?_, fun s i hc hm hi => ?_⟩
  · obtain ⟨n, t, hn, ht⟩ := core_run_answerRounds hc hseq ms
    exact ⟨n, t, hn.trans (Nat.succ_le_succ List.countP_le_length), ht⟩
  · have hsteps : seqSteps s.seq ≤ 2 * (k.length + 1) := by
      have hle : suspensions k ≤ k.length := List.countP_le_length
      rw [hseq, seqSteps]
      omega
    obtain ⟨n, t, hn, hidle, hmt, hrun⟩ := command_ends_in_turn (2 * (k.length + 1)) hc hm hsteps
    exact ⟨n, t, hn, ⟨hidle, fun v => by rw [hmt]; exact List.not_mem_nil⟩, hrun⟩
  · obtain ⟨j, hj, hcomes⟩ := turn_comes s.turn (agentCount s) (i + 1) (Nat.succ_lt_succ hi)
    obtain ⟨t, hrun, ⟨hmt, -, hlen⟩, hturn⟩ := core_run_in_turn j hc hm (Nat.zero_lt_of_lt hi)
    have hcount : agentCount t = agentCount s := congrArg (· + 1) hlen
    have hnext : ∀ m, agentMove t (i + 1) = some m → nextMove t = some m := fun m e =>
      nextMove_turn hmt (by rw [hturn, hcount, hcomes, e])
    refine ⟨j, t, Nat.le_of_lt_succ hj, hrun, ?_⟩
    rcases agentMove_monitor_cases (s := t) (i := i) (by omega) with ⟨pin, cond, hphase, e⟩ | ⟨pin, cond, hphase, e⟩
    · exact .inl ⟨pin, cond, hphase, hnext _ e⟩
    · exact .inr ⟨pin, cond, hphase, hnext _ e⟩

end Sys2Proof.Machine
end

section
/-! The assembler (spec/30_encoding.md section 4, R104, R105): a line's words are its commands' encodings, a command's
text is read back, and an operand beyond its field is an error. -/

namespace Sys2Proof

/-! A line of a known mnemonic is read by its operands. -/

/-- The mnemonics are written in capitals, without separators. -/
theorem asmMnemonics_solid : ∀ mn ∈ asmMnemonics, capitals mn = mn ∧ (capitals mn).isEmpty = false ∧
    (capitals mn).all (fun c => c != ' ' && c != ',') = true := by
  decide

section
variable {mn : List Char} (hmn : mn ∈ asmMnemonics) {ops : List (List Char)} (hops : ∀ o ∈ ops, solid o)
include hmn hops

theorem parseLine_of_mnemonic : parseLine (lineText mn ops) = parseParts mn (ops.map capitals) := by
  obtain ⟨hcap, hne, hall⟩ := asmMnemonics_solid mn hmn
  rw [parseLine_lineText (solid_of_all hne hall) hops, hcap]

theorem parseLine_eq_ok {is : List Instr} (h : parseOperands mn (ops.map capitals) = some is) :
    parseLine (lineText mn ops) = .ok is := by
  rw [parseLine_of_mnemonic hmn hops, parseParts, if_pos (List.contains_iff_mem.2 hmn), h]

/-- Operands of the wrong form are an error of the assembler. -/
theorem assembleLine_eq_error (h : parseOperands mn (ops.map capitals) = none) :
    assembleLine (lineText mn ops) = .error .badOperands := by
  rw [assembleLine, parseLine_of_mnemonic hmn hops, parseParts, if_pos (List.contains_iff_mem.2 hmn), h]

end

/-! The words of a line. -/

theorem assembleLine_of_wellFormed {line : List Char} {is : List Instr} (h : parseLine line = .ok is)
    (hwf : ∀ i ∈ is, i.WellFormed) : assembleLine line = .ok (is.map encode) := by
  rw [assembleLine, h]
  exact if_pos (List.all_eq_true.2 hwf)

theorem assembleLine_of_illFormed {line : List Char} {is : List Instr} (h : parseLine line = .ok is)
    (hwf : ¬∀ i ∈ is, i.WellFormed) : assembleLine line = .error .outOfRange := by
  rw [assembleLine, h]
  exact if_neg (mt List.all_eq_true.1 hwf)

theorem assembleLine_of_parse_error {line : List Char} {e : AsmError} (h : parseLine line = .error e) :
    assembleLine line = .error e := by
  rw [assembleLine, h]

/-- A line that assembles is the encodings of well-formed commands. -/
theorem of_assembleLine_eq_ok {line : List Char} {ws : List Command} (h : assembleLine line = .ok ws) :
    ∃ is, parseLine line = .ok is ∧ ws = is.map encode ∧ ∀ i ∈ is, i.WellFormed := by
  cases hparse : parseLine line with
  | error e =>
    rw [assembleLine_of_parse_error hparse] at h
    cases h
  | ok is =>
    by_cases hwf : ∀ i ∈ is, i.WellFormed
    · rw [assembleLine_of_wellFormed hparse hwf] at h
      cases h
      exact ⟨is, rfl, rfl, hwf⟩
    · rw [assembleLine_of_illFormed hparse hwf] at h
      cases h

/-- Letters are read in capitals (R104). -/
theorem assembleLine_congr {l l' : List Char} (h : l.map Char.toUpper = l'.map Char.toUpper) :
    assembleLine l = assembleLine l' := by
  rw [assembleLine, assembleLine, parseLine, parseLine, lineParts, lineParts, h]

/-! Operands beyond their fields. -/

theorem natLiteral_of_nonneg {v : Int} (h : 0 ≤ v) : natLiteral (capitals (decimalText v)) = some v.toNat := by
  rw [natLiteral, intLiteral_decimal, Option.bind_some, if_pos h]

theorem pinLiteral_out_of_range {v : Int} (h : v < 0 ∨ 255 < v) : pinLiteral (capitals (decimalText v)) = none := by
  rw [pinLiteral]
  rcases h with h | h
  · rw [natLiteral_negative h, Option.bind_none]
  · rw [natLiteral_of_nonneg (by omega), Option.bind_some, if_neg (by omega)]

theorem maskLiteral_out_of_range {v : Int} (h : v < -2147483648 ∨ 4294967295 < v) :
    maskLiteral (capitals (decimalText v)) = none := by
  rw [maskLiteral, intLiteral_decimal, Option.bind_some, if_neg (by omega)]

/-! The operands of each mnemonic (R104, R105). -/

theorem parseOperands_setfreq (v : List Char) :
    parseOperands "SETFREQ".toList [v] = (do return [.setfreq (← intLiteral v)]) := rfl

theorem parseOperands_lsens (v : List Char) :
    parseOperands "LSENS".toList [v] = (do return [.lsens (← intLiteral v)]) := rfl

theorem parseOperands_sclr (v : List Char) :
    parseOperands "SCLR".toList [v] = (do return [.sclr (← maskLiteral v)]) := rfl

theorem parseOperands_choff (c : List Char) :
    parseOperands "CHOFF".toList [c] = (do return [.choff (← intLiteral c)]) := rfl

theorem parseOperands_mstop (i : List Char) :
    parseOperands "MSTOP".toList [i] = (do return [.mstop (← intLiteral i)]) := rfl

theorem parseOperands_stoppair (p : List Char) :
    parseOperands "STOPPAIR".toList [p] = (do return expandPseudo (.stoppair (← intLiteral p))) := rfl

theorem parseOperands_servo (i v : List Char) :
    parseOperands "SERVO".toList [i, v] = (do return [.servo (← intLiteral i) (← intLiteral v)]) := rfl

theorem parseOperands_setduty (c v : List Char) :
    parseOperands "SETDUTY".toList [c, v] = (do return expandPseudo (.setduty (← intLiteral c) (← natLiteral v))) := rfl

theorem parseOperands_setch (c n f : List Char) :
    parseOperands "SETCH".toList [c, n, f] =
      (do return [.setch (← intLiteral c) (← natLiteral n) (← natLiteral f)]) := rfl

theorem parseOperands_dcmotor (i d v : List Char) :
    parseOperands "DCMOTOR".toList [i, d, v] =
      (do return [.dcmotor (← intLiteral i) (← dirKeyword d) (← intLiteral v)]) := rfl

theorem parseOperands_stepdeg (p d m v : List Char) :
    parseOperands "STEPDEG".toList [p, d, m, v] =
      (do return [.stepdeg (← intLiteral p) (← dirKeyword d) (← modelKeyword m) (← intLiteral v)]) := rfl

theorem parseOperands_stepturn (p d m v : List Char) :
    parseOperands "STEPTURN".toList [p, d, m, v] =
      (do return [.stepturn (← intLiteral p) (← dirKeyword d) (← modelKeyword m) (← intLiteral v)]) := rfl

theorem parseOperands_lread (p c : List Char) :
    parseOperands "LREAD".toList [p, c] = (do return [.lread (← pinLiteral p) (← condKeyword c)]) := rfl

theorem parseOperands_lwatch (p c : List Char) :
    parseOperands "LWATCH".toList [p, c] = (do return [.lwatch (← pinLiteral p) (← condKeyword c)]) := rfl

/-! A command's text is read back as the command. -/

theorem solid_text_operands : (∀ v, solid (decimalText v)) ∧ (∀ n, solid (hexText n)) ∧ (∀ d : Dir, solid d.text) ∧
    (∀ m : Model, solid m.text) ∧ ∀ c : Cond, solid c.text :=
  ⟨solid_decimal, solid_hex, solid_dir, solid_model, solid_cond⟩

theorem parseLine_text (i : Instr) {line : List Char} (h : i.text = some line) : parseLine line = .ok [i] := by
  cases i <;> simp only [Instr.text, Option.some.injEq, reduceCtorEq] at h <;> subst h
  all_goals refine parseLine_eq_ok (by decide) (by simp [solid_text_operands]) ?_
  case nop | init | mstopall => rfl
  case setfreq => exact (parseOperands_setfreq _).trans (by simp [intLiteral_decimal])
  case setch => exact (parseOperands_setch _ _ _).trans (by simp [intLiteral_decimal, natLiteral_decimal])
  case choff => exact (parseOperands_choff _).trans (by simp [intLiteral_decimal])
  case servo => exact (parseOperands_servo _ _).trans (by simp [intLiteral_decimal])
  case dcmotor => exact (parseOperands_dcmotor _ _ _).trans (by simp [intLiteral_decimal, dirKeyword_text])
  case mstop => exact (parseOperands_mstop _).trans (by simp [intLiteral_decimal])
  case stepdeg =>
    exact (parseOperands_stepdeg _ _ _ _).trans (by simp [intLiteral_decimal, dirKeyword_text, modelKeyword_text])
  case stepturn =>
    exact (parseOperands_stepturn _ _ _ _).trans (by simp [intLiteral_decimal, dirKeyword_text, modelKeyword_text])
  case lread => exact (parseOperands_lread _ _).trans (by simp [pinLiteral_decimal, condKeyword_text])
  case lsens => exact (parseOperands_lsens _).trans (by simp [intLiteral_decimal])
  case lwatch => exact (parseOperands_lwatch _ _).trans (by simp [pinLiteral_decimal, condKeyword_text])
  case sclr => exact (parseOperands_sclr _).trans (by simp [maskLiteral_hex])

/-! The obligation, clause by clause. -/

theorem parseLine_setfreq_hex (n : Nat) : parseLine (lineText "SETFREQ".toList [hexText n]) = .ok [.setfreq n] :=
  parseLine_eq_ok (by decide) (by simp [solid_text_operands])
    ((parseOperands_setfreq _).trans (by simp [intLiteral_hex]))

theorem parseLine_setduty (ch : Int) (off : Nat) :
    parseLine (lineText "SETDUTY".toList [decimalText ch, decimalText off]) = .ok [.setch ch 0 off] :=
  parseLine_eq_ok (by decide) (by simp [solid_text_operands])
    ((parseOperands_setduty _ _).trans (by simp [intLiteral_decimal, natLiteral_decimal, expandPseudo]))

theorem parseLine_stoppair (p : Int) :
    parseLine (lineText "STOPPAIR".toList [decimalText p]) = .ok [.mstop (2 * p - 1), .mstop (2 * p)] :=
  parseLine_eq_ok (by decide) (by simp [solid_text_operands])
    ((parseOperands_stoppair _).trans (by simp [intLiteral_decimal, expandPseudo]))

theorem assembleLine_pin_out_of_range {v : Int} (h : v < 0 ∨ 255 < v) (c : Cond) :
    assembleLine (lineText "LREAD".toList [decimalText v, c.text]) = .error .badOperands ∧
      assembleLine (lineText "LWATCH".toList [decimalText v, c.text]) = .error .badOperands := by
  constructor <;> refine assembleLine_eq_error (by decide) (by simp [solid_text_operands]) ?_
  · exact (parseOperands_lread _ _).trans (by simp [pinLiteral_out_of_range h])
  · exact (parseOperands_lwatch _ _).trans (by simp [pinLiteral_out_of_range h])

theorem assembleLine_negative_tick (ch : Int) {on off : Int} (h : on < 0 ∨ off < 0) :
    assembleLine (lineText "SETCH".toList [decimalText ch, decimalText on, decimalText off]) =
      .error .badOperands := by
  refine assembleLine_eq_error (by decide) (by simp [solid_text_operands]) ((parseOperands_setch _ _ _).trans ?_)
  rcases h with h | h <;> simp [natLiteral_negative h]

theorem assembleLine_negative_duty (ch : Int) {off : Int} (h : off < 0) :
    assembleLine (lineText "SETDUTY".toList [decimalText ch, decimalText off]) = .error .badOperands :=
  assembleLine_eq_error (by decide) (by simp [solid_text_operands])
    ((parseOperands_setduty _ _).trans (by simp [natLiteral_negative h]))

theorem assembleLine_mask_out_of_range {v : Int} (h : v < -2147483648 ∨ 4294967295 < v) :
    assembleLine (lineText "SCLR".toList [decimalText v]) = .error .badOperands :=
  assembleLine_eq_error (by decide) (by simp [solid_text_operands])
    ((parseOperands_sclr _).trans (by simp [maskLiteral_out_of_range h]))

/-- Settles O15: a line is read by its mnemonic's operands, and assembles when every command it stands for fits. -/
theorem assembledWordsAreLegalCommands : Obligations.AssembledWordsAreLegalCommands := by
  refine ⟨fun line ws h => ?_, fun line is i hparse hi hill => ?_, fun i line => parseLine_text i,
    parseLine_setfreq_hex, fun v c h => ?_, fun ch on off h => ?_, fun v h => ⟨_, assembleLine_mask_out_of_range h⟩,
    parseLine_setduty, parseLine_stoppair, by decide, by decide, fun l l' => assembleLine_congr⟩
  · obtain ⟨is, hparse, hws, hwf⟩ := of_assembleLine_eq_ok h
    exact ⟨is, hparse, hws, fun i hi => ⟨hwf i hi, decodeOfEncodeIsTheCommand i (hwf i hi)⟩⟩
  · exact ⟨_, assembleLine_of_illFormed hparse fun hwf => hill (hwf i hi)⟩
  · obtain ⟨hread, hwatch⟩ := assembleLine_pin_out_of_range h c
    exact ⟨⟨_, hread⟩, _, hwatch⟩
  · exact ⟨⟨_, assembleLine_negative_tick ch h⟩, fun hoff => ⟨_, assembleLine_negative_duty ch hoff⟩⟩

end Sys2Proof
end
